-- ==== Sys2Proof/Word.lean ====
section
/-! DEFINITION. The two word types of the engine (spec/00_scope.md rule R6, spec/43_checksum.md rule R117):
every quantity is unsigned, a byte is 8 bits, a concentration and the push checksum are 16 bits. -/

namespace Sys2Proof

/-- A byte of a stream, of a frame or of BUF (R6: "A byte is 8 bits"). -/
abbrev Byte := BitVec 8

/-- A 2-byte field: a concentration (R15), the push checksum (R112), DATA (R19). -/
abbrev Half := BitVec 16

end Sys2Proof
end

