-- ==== Sys2Proof/Config.lean ====
section
/-! DEFINITION. The configuration record's type (spec/00_scope.md rules R4 and R5,
spec/93_implementation_defined.md U6) and the values that the spec leaves open. The record's VALUES, which the spec
states, stand in Machine/Params.lean. -/

namespace Sys2Proof

/-- One outbound command: the two variable bytes and the tail of the nine-byte shape (R51, R52). -/
structure CommandBytes where
  c1 : Byte
  c2 : Byte
  tail : Byte
  deriving DecidableEq, Repr

/-- The bytes that an acknowledgment must hold at offsets 1, 2 and 8 (R131, R132, U6). -/
structure AckExpect where
  e1 : Byte
  e2 : Byte
  e8 : Byte
  deriving DecidableEq, Repr

/-- The field router's source offsets for one frame shape (R121). -/
structure Route where
  pm1_0 : Nat
  pm2_5 : Nat
  pm10 : Nat
  deriving DecidableEq, Repr

/-- The configuration record that R5 and U6 ask for: every literal of R4's table. -/
structure Params where
  pushLenA : Nat
  pushLenB : Nat
  queryLen : Nat
  ackLen : Nat
  cmdLen : Nat
  bufSize : Nat
  markerPush : Byte
  markerQuery : Byte
  swapPairsA : Nat
  swapPairsB : Nat
  swapPairsQuery : Nat
  routePush : Route
  routeQuery : Route
  cmdStart : Byte
  cmdFixed : Byte
  cmdSetPush : CommandBytes
  cmdSetQuery : CommandBytes
  cmdQuery : CommandBytes
  cmdSleep : CommandBytes
  cmdWake : CommandBytes
  ackSleep : AckExpect
  ackWake : AckExpect
  rxTimeoutMs : Nat
  deriving DecidableEq, Repr

/-- `T_QUERY_WAIT` (R4, R82, U3): "tens of milliseconds", OPEN. A free value: nothing constrains it and no rule depends
on it (D15). Log entry 13. -/
opaque Config.tQueryWait : Nat

/-- `T_FLUSH_SETTLE` (R4, R141, U4): "a short settling delay", OPEN. A free value, as `Config.tQueryWait`. Log entry 13. -/
opaque Config.tFlushSettle : Nat

/-- `LM_RESET` (R4, R23, D9, U1): what an accessor returns before the first successful READDATA. The spec promises
nothing, "not even that two calls agree", so the value is free and is drawn afresh at each such read, from the count of
draws that State holds. Log entry 3. -/
opaque Config.unwrittenMeasurement : Nat → Half

/-- What the line brings for ever when nothing is known of it: the bursts of bytes of an environment that "is free" (R39).
A free value: a claim about it holds for every sequence of arrivals. Log entry 6. -/
opaque Config.lineBursts : Nat → List Byte

end Sys2Proof
end

