-- ==== Sys2Proof/Syntax.lean ====
section
/-! DEFINITION. The instructions: one constructor per row of spec/opcode_table.json (spec/30_encoding.md rules R50 to R60).
Ten host operations, five outbound command frames, five inbound frame shapes. -/

namespace Sys2Proof

/-- OperatingMode (R11). -/
inductive Mode where
  | push
  | query
  deriving DecidableEq, Repr

/-- SensorVariant (R12). -/
inductive Variant where
  | a
  | b
  deriving DecidableEq, Repr

/-- A push frame as it stands on the wire (R53, R54), less its first marker byte, which the engine requires to be 0x42
(R83). `lead` holds the reserved fields before the concentrations, `trail` those after them: three and three in variant A,
three and seven in variant B. -/
structure PushFrame where
  marker1 : Byte
  declLen : Half
  lead : List Half
  pm1_0 : Half
  pm2_5 : Half
  pm10 : Half
  trail : List Half
  checksum : Half
  deriving DecidableEq, Repr

/-- A query frame as it stands on the wire (R55), less its first marker byte 0xFF; the fields in wire order. -/
structure QueryFrame where
  marker1 : Byte
  pm2_5 : Half
  pm10 : Half
  pm1_0 : Half
  checksum : Byte
  deriving DecidableEq, Repr

/-- The bytes of an acknowledgment that the engine does not test (R56, R134): byte 0, and bytes 3 to 7 in `fill`. -/
structure AckFrame where
  marker0 : Byte
  fill : List Byte
  deriving DecidableEq, Repr

/-- The rows of spec/opcode_table.json. -/
inductive Instr where
  /-- R73 -/
  | getmode
  /-- R70 -/
  | setmode (m : Mode)
  /-- R71: SETMODE with m = 0 under its second name -/
  | setinitiative
  /-- R72: SETMODE with m = 1 under its second name -/
  | setqanda
  /-- R80 -/
  | readdata
  /-- R122 -/
  | getpm1_0
  /-- R123 -/
  | getpm2_5
  /-- R124 -/
  | getpm10_0
  /-- R131 -/
  | sleep
  /-- R132 -/
  | wakeup
  /-- R52, R140: the engine sends `FF 01 78 40 00 00 00 00 47` -/
  | cmdSetPush
  /-- R52, R140: the engine sends `FF 01 78 41 00 00 00 00 46` -/
  | cmdSetQuery
  /-- R52, R140: the engine sends `FF 01 86 00 00 00 00 00 79` -/
  | cmdQuery
  /-- R52, R140: the engine sends `FF 01 A7 01 00 00 00 00 57` -/
  | cmdSleep
  /-- R52, R140: the engine sends `FF 01 A7 00 00 00 00 00 58` -/
  | cmdWake
  /-- R53: a 24-byte push frame comes in -/
  | framePushA (f : PushFrame)
  /-- R54: a 32-byte push frame comes in -/
  | framePushB (f : PushFrame)
  /-- R55: a 9-byte query frame comes in -/
  | frameQuery (f : QueryFrame)
  /-- R56, R131: an acknowledgment with SLEEP's three bytes comes in -/
  | ackSleep (a : AckFrame)
  /-- R56, R132: an acknowledgment with WAKEUP's three bytes comes in -/
  | ackWake (a : AckFrame)
  deriving DecidableEq, Repr

/-- What selects the decoding of a byte sequence (R63: "nothing in the bytes themselves tells the engine which applies"):
a host operation word (R59), an outbound command (R51), a push or query frame by MODE and VARIANT, or the acknowledgment
of the operation in progress. -/
inductive Context where
  | hostOp
  | outbound
  | pushA
  | pushB
  | query
  | ackSleep
  | ackWake
  deriving DecidableEq, Repr

/-- The context that each instruction's bytes are read in (the table's `kind` and `selected_by`). -/
def Instr.context : Instr → Context
  | .getmode => .hostOp
  | .setmode _ => .hostOp
  | .setinitiative => .hostOp
  | .setqanda => .hostOp
  | .readdata => .hostOp
  | .getpm1_0 => .hostOp
  | .getpm2_5 => .hostOp
  | .getpm10_0 => .hostOp
  | .sleep => .hostOp
  | .wakeup => .hostOp
  | .cmdSetPush => .outbound
  | .cmdSetQuery => .outbound
  | .cmdQuery => .outbound
  | .cmdSleep => .outbound
  | .cmdWake => .outbound
  | .framePushA _ => .pushA
  | .framePushB _ => .pushB
  | .frameQuery _ => .query
  | .ackSleep _ => .ackSleep
  | .ackWake _ => .ackWake

/-- The core instruction an instruction's words decode to: the two pseudo-operations stand for SETMODE (R64, R71, R72),
every other instruction for itself. Log entry 16. -/
def Instr.core : Instr → Instr
  | .getmode => .getmode
  | .setmode m => .setmode m
  | .setinitiative => .setmode .push
  | .setqanda => .setmode .query
  | .readdata => .readdata
  | .getpm1_0 => .getpm1_0
  | .getpm2_5 => .getpm2_5
  | .getpm10_0 => .getpm10_0
  | .sleep => .sleep
  | .wakeup => .wakeup
  | .cmdSetPush => .cmdSetPush
  | .cmdSetQuery => .cmdSetQuery
  | .cmdQuery => .cmdQuery
  | .cmdSleep => .cmdSleep
  | .cmdWake => .cmdWake
  | .framePushA f => .framePushA f
  | .framePushB f => .framePushB f
  | .frameQuery f => .frameQuery f
  | .ackSleep a => .ackSleep a
  | .ackWake a => .ackWake a

end Sys2Proof
end

