-- ==== Sys2Proof/Machine/Params.lean ====
section
/-! DEFINITION. The values of the configuration record: every literal of spec/00_scope.md rule R4, of the command table R52,
of the acknowledgment tests R131 and R132 and of the field router R121, exactly as the spec states them (R5 makes them
normative and asks that they stand apart from the machine). -/

namespace Sys2Proof.Machine

/-- R4, R52, R121, R131, R132. -/
def params : Params where
  pushLenA := 24
  pushLenB := 32
  queryLen := 9
  ackLen := 9
  cmdLen := 9
  bufSize := 32
  markerPush := 0x42
  markerQuery := 0xFF
  swapPairsA := 11
  swapPairsB := 15
  swapPairsQuery := 3
  routePush := ⟨10, 12, 14⟩
  routeQuery := ⟨6, 2, 4⟩
  cmdStart := 0xFF
  cmdFixed := 0x01
  cmdSetPush := ⟨0x78, 0x40, 0x47⟩
  cmdSetQuery := ⟨0x78, 0x41, 0x46⟩
  cmdQuery := ⟨0x86, 0x00, 0x79⟩
  cmdSleep := ⟨0xA7, 0x01, 0x57⟩
  cmdWake := ⟨0xA7, 0x00, 0x58⟩
  ackSleep := ⟨0xA7, 0x01, 0x58⟩
  ackWake := ⟨0xA7, 0x00, 0x58⟩
  rxTimeoutMs := 100

/-- `PUSH_LEN(VARIANT)` (R4, R12). -/
def pushLen : Variant → Nat
  | .a => params.pushLenA
  | .b => params.pushLenB

end Sys2Proof.Machine
end

