-- ==== Sys2Proof/WellFormed.lean ====
section
/-! DEFINITION. Which terms of Instr stand for something the wire can carry: the counts of reserved fields and of untested
bytes that the frame formats fix (spec/30_encoding.md rules R53, R54, R56). Everything else is carried by the types. -/

namespace Sys2Proof

/-- R53: three reserved fields before the concentrations and three after them. -/
def PushFrame.wfA (f : PushFrame) : Bool := f.lead.length == 3 && f.trail.length == 3

/-- R54: three reserved fields before the concentrations and seven after them (spec/90_conflicts.md C2). -/
def PushFrame.wfB (f : PushFrame) : Bool := f.lead.length == 3 && f.trail.length == 7

/-- R56: bytes 3 to 7 are five bytes. -/
def AckFrame.wf (a : AckFrame) : Bool := a.fill.length == 5

/-- An instruction that an encoding exists for. -/
def Instr.wf : Instr → Bool
  | .getmode => true
  | .setmode _ => true
  | .setinitiative => true
  | .setqanda => true
  | .readdata => true
  | .getpm1_0 => true
  | .getpm2_5 => true
  | .getpm10_0 => true
  | .sleep => true
  | .wakeup => true
  | .cmdSetPush => true
  | .cmdSetQuery => true
  | .cmdQuery => true
  | .cmdSleep => true
  | .cmdWake => true
  | .framePushA f => f.wfA
  | .framePushB f => f.wfB
  | .frameQuery _ => true
  | .ackSleep a => a.wf
  | .ackWake a => a.wf

end Sys2Proof
end

