-- ==== Sys2Proof/Decode.lean ====
section
/-! DEFINITION. From bytes to instructions and back (spec/30_encoding.md rules R50 to R61). The decoder is total on any
bytes and rejects by name; it tests of an inbound frame exactly the bits that the table's `engine_mask` marks (R62, R86,
R134), not all that the format fixes. The encoder is written from the same tables. Last comes the host's reading of a table
row as one number. -/

namespace Sys2Proof

open Sys2Proof.Machine (params)

/-- `BE16(h, l)` (R6): the value whose more significant byte is `h`. -/
def be16 (h l : Byte) : Half := h ++ l

/-- `LE16(l, h)` (R6): the same number, named for rising offsets. -/
def le16 (l h : Byte) : Half := h ++ l

/-- Bits 15 to 8. -/
def hiByte (v : Half) : Byte := v.extractLsb' 8 8

/-- Bits 7 to 0. -/
def loByte (v : Half) : Byte := v.extractLsb' 0 8

/-- The encoding of MODE: 0 = PushMode, 1 = QueryMode (R11). -/
def Mode.bit : Mode → Bool
  | .push => false
  | .query => true

/-- The mode that a mode bit names (R11, R59). -/
def modeOfBit (b : Bool) : Mode := if b then .query else .push

/-- The encoding of VARIANT: 0 = A, 1 = B (R12). -/
def Variant.bit : Variant → Bool
  | .a => false
  | .b => true

/-- Why bytes are refused. -/
inductive DecodeError where
  /-- R61: an operation word that names no operation -/
  | noOperation
  /-- a byte sequence that is not as long as the shape asked for (R63) -/
  | badLength
  /-- the first byte is not the marker of the shape asked for (R83) -/
  | noMarker
  /-- not one of the five commands (R52) -/
  | notACommand
  /-- bytes 1, 2 and 8 are not the ones expected (R131, R132) -/
  | notAnAck
  deriving DecidableEq, Repr

/-- R59 to R61: bits 7 to 5 zero, bit 4 the mode argument of SETMODE and zero otherwise, bits 3 to 0 the number. -/
def decodeOpw (w : Byte) : Except DecodeError Instr :=
  if w &&& 0xEF = 0x01 then .ok (.setmode (modeOfBit (w.getLsbD 4)))
  else if w = 0x00 then .ok .getmode
  else if w = 0x02 then .ok .readdata
  else if w = 0x03 then .ok .getpm1_0
  else if w = 0x04 then .ok .getpm2_5
  else if w = 0x05 then .ok .getpm10_0
  else if w = 0x06 then .ok .sleep
  else if w = 0x07 then .ok .wakeup
  else .error .noOperation

/-- The nine bytes of a command, by the shape of R51 and the table of R52, the tail as the table gives it. -/
def commandWire (c : CommandBytes) : List Byte :=
  [params.cmdStart, params.cmdFixed, c.c1, c.c2, 0x00, 0x00, 0x00, 0x00, c.tail]

/-- R52: the five commands, and no other. -/
def decodeCommand (bs : List Byte) : Except DecodeError Instr :=
  if bs.length ≠ params.cmdLen then .error .badLength
  else if bs = commandWire params.cmdSetPush then .ok .cmdSetPush
  else if bs = commandWire params.cmdSetQuery then .ok .cmdSetQuery
  else if bs = commandWire params.cmdQuery then .ok .cmdQuery
  else if bs = commandWire params.cmdSleep then .ok .cmdSleep
  else if bs = commandWire params.cmdWake then .ok .cmdWake
  else .error .notACommand

/-- `n` big-endian 2-byte fields from the front of a byte sequence (R57), with the bytes after them. -/
def takeHalves : Nat → List Byte → Option (List Half × List Byte)
  | 0, bs => some ([], bs)
  | n + 1, h :: l :: bs =>
    match takeHalves n bs with
    | some (hs, r) => some (be16 h l :: hs, r)
    | none => none
  | _ + 1, _ => none

/-- A push frame with `trail` reserved fields after the concentrations (R53: three, R54: seven). Byte 0 must be the marker
(R83); no other bit is tested (R62, R86). -/
def decodePush (trail : Nat) (bs : List Byte) : Except DecodeError PushFrame :=
  match bs with
  | m0 :: m1 :: l1 :: l0 :: body =>
    if m0 ≠ params.markerPush then .error .noMarker
    else
      match takeHalves 3 body with
      | some (lead, p1h :: p1l :: p2h :: p2l :: p3h :: p3l :: rest) =>
        match takeHalves trail rest with
        | some (trailing, [ch, cl]) =>
          .ok { marker1 := m1, declLen := be16 l1 l0, lead := lead, pm1_0 := be16 p1h p1l, pm2_5 := be16 p2h p2l,
                pm10 := be16 p3h p3l, trail := trailing, checksum := be16 ch cl }
        | _ => .error .badLength
      | _ => .error .badLength
  | _ => .error .badLength

/-- A query frame (R55). Byte 0 must be the marker (R83); no other bit is tested (R62, R86). -/
def decodeQuery (bs : List Byte) : Except DecodeError QueryFrame :=
  match bs with
  | [m0, m1, ah, al, bh, bl, ch, cl, k] =>
    if m0 ≠ params.markerQuery then .error .noMarker
    else .ok { marker1 := m1, pm2_5 := be16 ah al, pm10 := be16 bh bl, pm1_0 := be16 ch cl, checksum := k }
  | _ => .error .badLength

/-- An acknowledgment with the three bytes expected (R56, R131, R132); the other six are free (R134). -/
def decodeAck (e : AckExpect) (bs : List Byte) : Except DecodeError AckFrame :=
  match bs with
  | [m0, b1, b2, v, w, x, y, z, t] =>
    if b1 = e.e1 ∧ b2 = e.e2 ∧ t = e.e8 then .ok { marker0 := m0, fill := [v, w, x, y, z] }
    else .error .notAnAck
  | _ => .error .badLength

/-- The decoder: in each context, the instruction that the bytes are, or the reason they are none. -/
def decode (c : Context) (bs : List Byte) : Except DecodeError Instr :=
  match c with
  | .hostOp =>
    match bs with
    | [w] => decodeOpw w
    | _ => .error .badLength
  | .outbound => decodeCommand bs
  | .pushA => (decodePush 3 bs).map .framePushA
  | .pushB => (decodePush 7 bs).map .framePushB
  | .query => (decodeQuery bs).map .frameQuery
  | .ackSleep => (decodeAck params.ackSleep bs).map .ackSleep
  | .ackWake => (decodeAck params.ackWake bs).map .ackWake

/-- 2-byte fields as they stand on the wire, the more significant byte first (R40, R50). -/
def halvesWire : List Half → List Byte
  | [] => []
  | v :: vs => hiByte v :: loByte v :: halvesWire vs

/-- The bytes of a push frame in wire order (R53, R54). -/
def pushWire (f : PushFrame) : List Byte :=
  params.markerPush :: f.marker1 ::
    halvesWire (f.declLen :: f.lead ++ [f.pm1_0, f.pm2_5, f.pm10] ++ f.trail ++ [f.checksum])

/-- The bytes of a query frame in wire order (R55). -/
def queryWire (f : QueryFrame) : List Byte :=
  params.markerQuery :: f.marker1 :: halvesWire [f.pm2_5, f.pm10, f.pm1_0] ++ [f.checksum]

/-- The bytes of an acknowledgment in wire order (R56). -/
def ackWire (e : AckExpect) (a : AckFrame) : List Byte :=
  a.marker0 :: e.e1 :: e.e2 :: a.fill ++ [e.e8]

/-- The encoder: the words of an instruction, from the tables of R52 to R56 and R60. -/
def encode : Instr → List Byte
  | .getmode => [0x00]
  | .setmode .push => [0x01]
  | .setmode .query => [0x11]
  | .setinitiative => [0x01]
  | .setqanda => [0x11]
  | .readdata => [0x02]
  | .getpm1_0 => [0x03]
  | .getpm2_5 => [0x04]
  | .getpm10_0 => [0x05]
  | .sleep => [0x06]
  | .wakeup => [0x07]
  | .cmdSetPush => commandWire params.cmdSetPush
  | .cmdSetQuery => commandWire params.cmdSetQuery
  | .cmdQuery => commandWire params.cmdQuery
  | .cmdSleep => commandWire params.cmdSleep
  | .cmdWake => commandWire params.cmdWake
  | .framePushA f => pushWire f
  | .framePushB f => pushWire f
  | .frameQuery f => queryWire f
  | .ackSleep a => ackWire params.ackSleep a
  | .ackWake a => ackWire params.ackWake a

/-- Byte `k` of a number, byte 0 the least significant. -/
def byteOf (w k : Nat) : Byte := BitVec.ofNat 8 (w >>> (8 * k))

/-- The `n` bytes of a number, the first byte in its least significant bits. -/
def bytesLowFirst (n w : Nat) : List Byte := (List.range n).map (byteOf w)

/-- The contexts a row of `n` bytes can be read in, the more fully fixed patterns first: a 9-byte word is a command, else
the acknowledgment of SLEEP or of WAKEUP, else a query frame. -/
def contextsOf : Nat → List Context
  | 1 => [.hostOp]
  | 9 => [.outbound, .ackSleep, .ackWake, .query]
  | 24 => [.pushA]
  | 32 => [.pushB]
  | _ => []

/-- The first context in which the bytes are an instruction, with the instruction. -/
def decodeFirst : List Context → List Byte → Option (Context × Instr)
  | [], _ => none
  | c :: cs, bs =>
    match decode c bs with
    | .ok i => some (c, i)
    | .error _ => decodeFirst cs bs

/-- A table word as bytes in wire order, with its context and instruction: the first byte in the least significant bits,
or, where that reads as nothing, in the most significant bits, which is how the table writes `match` (R50, D31). Log
entry 12. -/
def readTableWord (nbits w : Nat) : Option (Context × Instr × List Byte) :=
  let n := nbits / 8
  let bs := bytesLowFirst n w
  match decodeFirst (contextsOf n) bs with
  | some (c, i) => some (c, i, bs)
  | none =>
    match decodeFirst (contextsOf n) bs.reverse with
    | some (c, i) => some (c, i, bs.reverse)
    | none => none

/-- The instruction the decoder reads from a table word, or none where it refuses. -/
def decodeTableWord (nbits w : Nat) : Option Instr :=
  match readTableWord nbits w with
  | some (_, i, _) => some i
  | none => none

end Sys2Proof
end

