-- ==== Sys2Proof/Machine/State.lean ====
section
/-! DEFINITION. The machine's state as plain data (spec/10_state.md rule R10, spec/20_memory.md rule R38), the reasons a step
can stop, and the state after reset (spec/70_reset_and_hazards.md rules R170 and R171). -/

namespace Sys2Proof.Machine

/-- The phases of the frame-sync state machine (R14). -/
inductive Phase where
  | idle
  | qreq
  | qwait
  | sync
  | lenchk
  | capture
  | swap
  | check
  | commit
  | cmdtx
  | drain
  | ackwait
  | ackchk
  deriving DecidableEq, Repr

/-- Where inside its phase the engine stands: between which primitive calls of SENDCMD (R140) or of RXFLUSH (R141). State
that the spec implies (the engine "holds" inside a phase, R81), not a register of R10. Log entry 8. -/
inductive Point where
  /-- at the start of the phase -/
  | start
  /-- SENDCMD: in its first TxFlush -/
  | flushBefore
  /-- RXFLUSH: before its settling delay -/
  | settle
  /-- RXFLUSH: in its discard loop -/
  | drain
  /-- SENDCMD: before its nine writes -/
  | write
  /-- SENDCMD: in its last TxFlush -/
  | flushAfter
  deriving DecidableEq, Repr

/-- The operation in progress (R81: "operation is SETMODE", "operation is SLEEP or WAKEUP"), as far as a transition
depends on it. State that the spec implies. Log entry 8. -/
inductive Activity where
  | none
  | setmode
  | readdata
  | sleep
  | wakeup
  deriving DecidableEq, Repr

/-- ERRKIND (R151). -/
inductive ErrKind where
  | none
  | syncMiss
  | shortFrame
  | checksumMismatch
  | cmdNotConfirmed
  deriving DecidableEq, Repr

/-- Arrivals without end (R39: RxArrive is always enabled): one burst of bytes, which may hold none, before each primitive
call for ever. Log entry 6. -/
inductive Endless where
  /-- the bursts `now` and `later`, in turn, over and over -/
  | cycle (now : List Byte) (later : List (List Byte))
  /-- any bursts at all: from the `n`-th on, the bursts of `Config.lineBursts`, of which nothing is known -/
  | free (n : Nat)
  deriving DecidableEq, Repr

/-- One entry of the timeline of outside events: what the host and the environment do next (R39, R156). -/
inductive Input where
  /-- the host presents an operation word once PHASE is IDLE (R59, R156) -/
  | host (w : Byte)
  /-- RxArrive of these bytes, in this order (R39) -/
  | rx (bs : List Byte)
  /-- TxDepart (R39); without effect when TXQ is empty -/
  | depart
  /-- Timeout (R39); without effect except while RxReadN waits with RXQ empty -/
  | timeout
  /-- the environment lets the engine make one primitive call -/
  | pass
  /-- the environment makes no further move until the engine is in this phase -/
  | waitFor (p : Phase)
  /-- bytes arrive without end: a burst before every primitive call, and nothing listed behind is ever reached -/
  | endless (e : Endless)
  deriving DecidableEq, Repr

/-- What the environment does by itself, when the timeline gives it no move to make: two standing premises of R159 and R164
and their failures. -/
structure Line where
  /-- `TxProgress`: while a TxFlush waits, TxDepart moves happen -/
  txProgress : Bool
  /-- a Timeout that stays enabled happens (R164) -/
  timesOut : Bool
  deriving DecidableEq, Repr

/-- The framing buffer's contents (R17) as (offset, byte) pairs in one canonical form; see Machine/Ops.lean. -/
abbrev Memory := List Host.Cell

/-- Why the machine stops. None of these happens on a run from reset; each is an access for which the spec gives no
value. Log entry 17. -/
inductive Fault where
  /-- CAPTURE found fewer than FS bytes in RXQ (CAPTURE_UNDERRUN of R85, R150, U17). Raised by CAPTURE; safe: the spec says
  that the case cannot occur and that a model which keeps it must fault. -/
  | captureUnderrun
  /-- RxPeek or RxRead of an empty RXQ (R32, R33, U7). Raised by SYNC and by RXFLUSH; safe, and unreachable because every
  call follows a test of RxAvail. -/
  | rxEmpty
  /-- FS names an offset of BUF that does not exist (R17: offsets 0 to 31). Raised by CAPTURE, SWAP and CHECK; safe, and
  unreachable while the invariant of R13 holds. -/
  | bufRange (fs : Nat)
  deriving DecidableEq, Repr

/-- Why a step is given no meaning. -/
inductive Refusal where
  /-- An arm of exec without a meaning yet. Raised by exec only; safe. -/
  | notModelled (mnemonic : String)
  /-- An operation word that names no operation (R61, D5, U12). Raised by the fetch of a host operation; safe.
  Log entry 15. -/
  | noOperation (w : Byte)
  /-- A host operation while PHASE is not IDLE (R156, D20, U9: the host has no such move). Raised by the meanings of the host
  operations; safe. Log entry 14. -/
  | engineBusy
  deriving DecidableEq, Repr

/-- The state of the engine, of its transport, and of what stands outside it. -/
structure State where
  /-- VARIANT (R12) -/
  variant : Variant
  /-- MODE (R11) -/
  mode : Mode
  /-- FS, 6 bits (R13) -/
  fs : BitVec 6
  /-- PHASE (R14) -/
  phase : Phase
  /-- PM1_0 = x[0] (R15) -/
  pm1_0 : Half
  /-- PM2_5 = x[1] (R15) -/
  pm2_5 : Half
  /-- PM10 = x[2] (R15) -/
  pm10 : Half
  /-- BUF (R17) -/
  buf : Memory
  /-- STATUS (R19): true is 1 -/
  status : Bool
  /-- ERRKIND (R19, R151) -/
  errkind : ErrKind
  /-- DATA (R19) -/
  data : Half
  /-- RXQ, oldest first (R38) -/
  rxq : List Byte
  /-- TXQ, oldest first (R38) -/
  txq : List Byte
  /-- TXLOG, oldest first (R38) -/
  txlog : List Byte
  /-- RXTO in milliseconds (R38) -/
  rxto : Nat
  /-- the operation in progress (implied by R81) -/
  act : Activity
  /-- the place inside the phase (implied by R81) -/
  point : Point
  /-- SYNC's transient `found` (R83) -/
  found : Bool
  /-- RxReadN's transient `k` in ACKREAD (R34, R130) -/
  ackCount : Nat
  /-- SENDCMD's operand c1 (R140) -/
  cmd1 : Byte
  /-- SENDCMD's operand c2 (R140) -/
  cmd2 : Byte
  /-- RXFLUSH's `n`: how many bytes the RXFLUSH in progress has discarded, and, when it has returned, the count it returned
  (R141). No rule reads it. Log entry 21 -/
  flushCount : Nat
  /-- the model's own: a READDATA has succeeded since reset (log entry 3) -/
  lmWritten : Bool
  /-- the model's own: how many free values the accessors have drawn (log entry 3) -/
  draws : Nat
  /-- the model's own: the timeline of host operations and environment moves (log entry 5) -/
  inputs : List Input
  /-- the model's own: what the environment does by itself (log entry 6) -/
  line : Line
  deriving DecidableEq, Repr

/-- RESET(v) on a transport that holds nothing and a host that has issued nothing (R171): VARIANT, MODE, FS, PHASE and RXTO
as the spec states; every value the spec leaves unspecified is zero or empty, by log entries 2, 3, 4 and 6. -/
def State.resetWith (v : Variant) : State where
  variant := v
  mode := .push
  fs := BitVec.ofNat 6 (pushLen v)
  phase := .idle
  pm1_0 := 0
  pm2_5 := 0
  pm10 := 0
  buf := []
  status := false
  errkind := .none
  data := 0
  rxq := []
  txq := []
  txlog := []
  rxto := params.rxTimeoutMs
  act := .none
  point := .start
  found := false
  ackCount := 0
  cmd1 := 0
  cmd2 := 0
  flushCount := 0
  lmWritten := false
  draws := 0
  inputs := []
  line := { txProgress := true, timesOut := true }

/-- The machine right after reset. VARIANT is a required argument of reset (R170, D3); this is RESET(A), DESIGN CHOICE of
log entry 1. -/
def State.reset : State := State.resetWith .a

end Sys2Proof.Machine
end

