-- ==== Sys2Proof/Machine/Ops.lean ====
section
/-! DEFINITION. The named operations over the state: the framing buffer's bytes (spec/00_scope.md rule R6,
spec/20_memory.md rule R42), the transport's primitives and the environment's moves between them (R31 to R39), the end of an
operation and a failure (spec/60_exceptions.md rule R153), and RESET(v) (spec/70_reset_and_hazards.md rule R171). -/

namespace Sys2Proof.Machine

/-! ## BUF -/

/-- What an offset of BUF that nothing has written reads as. The spec leaves it unspecified and unobservable (R18, U2):
DESIGN CHOICE, log entry 2. -/
def bufBlank : Byte := 0

/-- `MemRead(a, 1)` (R6): the byte at offset `a`. -/
def Memory.read : Memory → Nat → Byte
  | [], _ => bufBlank
  | (k, b) :: r, a => if k = a then b else Memory.read r a

/-- `MemWrite(a, 1, v)` (R6), keeping the offsets rising and no listed byte blank. -/
def Memory.write : Memory → Nat → Byte → Memory
  | [], a, v => if v = bufBlank then [] else [(a, v)]
  | (k, b) :: r, a, v =>
    if a < k then (if v = bufBlank then (k, b) :: r else (a, v) :: (k, b) :: r)
    else if a = k then (if v = bufBlank then r else (a, v) :: r)
    else (k, b) :: Memory.write r a v

/-- Bytes at rising offsets from `a`. -/
def Memory.writeList (m : Memory) (a : Nat) : List Byte → Memory
  | [] => m
  | v :: vs => Memory.writeList (Memory.write m a v) (a + 1) vs

/-- The canonical form from offset `lo` on: offsets strictly rising, no listed byte blank. -/
def Memory.wfFrom : Nat → Memory → Bool
  | _, [] => true
  | lo, (k, b) :: r => decide (lo ≤ k) && b != bufBlank && Memory.wfFrom (k + 1) r

/-- The canonical form, in which equal contents are equal data. -/
def Memory.wf (m : Memory) : Bool := Memory.wfFrom 0 m

/-- Every listed offset exists (R17: offsets 0 to 31). -/
def Memory.inRange (m : Memory) : Bool := m.all fun c => decide (c.1 < params.bufSize)

/-- `MemRead(a, 2)` (R6): the little-endian view of two bytes. -/
def Memory.read16 (m : Memory) (a : Nat) : Half := le16 (m.read a) (m.read (a + 1))

/-- `MemWrite(a, 2, v)` (R6). -/
def Memory.write16 (m : Memory) (a : Nat) (v : Half) : Memory := (m.write a (loByte v)).write (a + 1) (hiByte v)

/-! ## Single updates -/

/-- `pc <- p` (R6). -/
def State.goto (s : State) (p : Phase) : State := { s with phase := p }

/-- Go on at another place of the same phase. -/
def State.atPoint (s : State) (p : Point) : State := { s with point := p }

/-- `RXQ <- q` (R33). -/
def State.withRxq (s : State) (q : List Byte) : State := { s with rxq := q }

/-- `TXQ <- q` (R35). -/
def State.withTxq (s : State) (q : List Byte) : State := { s with txq := q }

/-! ## The environment (R39) -/

/-- RxArrive of bytes, oldest first: `RXQ <- RXQ ++ bs` (R39). -/
def State.arrive (s : State) (bs : List Byte) : State := { s with rxq := s.rxq ++ bs }

/-- TxDepart (R39): the oldest byte of TXQ moves to TXLOG; not enabled when TXQ is empty. -/
def State.depart (s : State) : State :=
  match s.txq with
  | [] => s
  | b :: r => { s with txq := r, txlog := s.txlog ++ [b] }

/-- The burst that an endless source brings now. -/
def Endless.now : Endless → List Byte
  | .cycle b _ => b
  | .free n => Config.lineBursts n

/-- The source after one burst. -/
def Endless.next : Endless → Endless
  | .cycle b [] => .cycle b []
  | .cycle b (c :: cs) => .cycle c (cs ++ [b])
  | .free n => .free (n + 1)

/-- The source after `k` bursts. -/
def Endless.after : Nat → Endless → Endless
  | 0, e => e
  | k + 1, e => Endless.after k e.next

/-- The bytes of the first `k` bursts, oldest first. -/
def Endless.bytes : Nat → Endless → List Byte
  | 0, _ => []
  | k + 1, e => e.now ++ Endless.bytes k e.next

/-- The environment's moves before one primitive call: those at the head of the timeline, up to a `pass`, a phase not yet
reached, a burst of an endless source, or the host's next operation, for which the host must wait (R156). The result says whether a Timeout ended a wait;
`waiting` says that the engine is inside RxReadN (R34), the only place where Timeout is enabled, with RXQ empty. -/
def envMoves (waiting : Bool) : List Input → State → Bool × State
  | [], s => (false, { s with inputs := [] })
  | .rx bs :: r, s => envMoves waiting r (s.arrive bs)
  | .depart :: r, s => envMoves waiting r s.depart
  | .timeout :: r, s => if waiting && s.rxq.isEmpty then (true, { s with inputs := r }) else envMoves waiting r s
  | .pass :: r, s => (false, { s with inputs := r })
  | .waitFor p :: r, s => if s.phase = p then envMoves waiting r s else (false, { s with inputs := .waitFor p :: r })
  | .host w :: r, s => (false, { s with inputs := .host w :: r })
  | .endless e :: r, s => (false, { s.arrive e.now with inputs := .endless e.next :: r })

/-- The environment's turn before a primitive call of the engine (R39: moves "may occur between any two primitive
calls"). -/
def State.turn (s : State) : State := (envMoves false s.inputs s).2

/-! ## The transport's primitives (R30 to R37), each preceded by the environment's turn -/

/-- `RxAvail()` (R31). -/
def rxAvail (s : State) : Nat × State := (s.turn.rxq.length, s.turn)

/-- `RxPeek()` (R32); none on an empty RXQ. -/
def rxPeek (s : State) : Option (Byte × State) :=
  match s.turn.rxq with
  | [] => none
  | b :: _ => some (b, s.turn)

/-- `RxRead()` (R33); none on an empty RXQ. -/
def rxRead (s : State) : Option (Byte × State) :=
  match s.turn.rxq with
  | [] => none
  | b :: r => some (b, s.turn.withRxq r)

/-- `TxWrite(b)` (R35). -/
def txWrite (s : State) (b : Byte) : State := s.turn.withTxq (s.turn.txq ++ [b])

/-- One look of `TxFlush()` (R36): it is over when TXQ is empty. While it waits and the timeline has no move for the
environment, a byte departs if TxProgress stands. Log entry 21. -/
def txFlush (s : State) : Bool × State :=
  let t := s.turn
  if t.txq = [] then (true, t)
  else if t.inputs.length = s.inputs.length ∧ t.line.txProgress = true then (false, t.depart)
  else (false, t)

/-- `Delay(t)` (R37): it changes no state; only the environment's moves may happen. Log entries 13 and 19. -/
def delay (_t : Nat) (s : State) : State := s.turn

/-- `SetRxTimeout(t)` (R37). -/
def setRxTimeout (t : Nat) (s : State) : State := { s with rxto := t }

/-- How one round of the loop of `RxReadN(n)` ends (R34). -/
inductive ReadRound where
  | byte (b : Byte)
  | timedOut
  | waiting
  deriving DecidableEq, Repr

/-- One round of the loop of `RxReadN(n)` with fewer than `n` bytes read (R34): the next byte, or the end of the wait by a
Timeout, or more waiting. A Timeout comes from the timeline, or by itself when the timeline has no move for the environment
and a lasting Timeout is to happen (R164). -/
def rxReadRound (s : State) : ReadRound × State :=
  let r := envMoves true s.inputs s
  if r.1 then (.timedOut, r.2)
  else
    match r.2.rxq with
    | b :: q => (.byte b, r.2.withRxq q)
    | [] =>
      if r.2.inputs.length = s.inputs.length ∧ r.2.line.timesOut = true then (.timedOut, r.2)
      else (.waiting, r.2)

/-! ## The end of an operation -/

/-- PHASE returns to IDLE and nothing transient survives (R20, R156). -/
def State.leave (s : State) : State :=
  { s with phase := .idle, act := .none, point := .start, found := false, ackCount := 0, cmd1 := 0, cmd2 := 0 }

/-- `return ok(d)` (R6, R19): STATUS = 1, ERRKIND = NONE, DATA = d, PHASE = IDLE. -/
def State.done (s : State) (d : Half) : State := { s.leave with status := true, errkind := .none, data := d }

/-- `raise Fail(kind)` (R153): the engine's one way of taking a failure. STATUS = 0, ERRKIND = kind, DATA = 0,
PHASE = IDLE; nothing is saved and nothing done before is undone. -/
def State.fail (s : State) (k : ErrKind) : State := { s.leave with status := false, errkind := k, data := 0 }

/-! ## RESET(v) -/

/-- RESET(v) on the transport, the timeline and the environment that `s` has (R171): they stay as they are but for RXTO;
VARIANT, MODE, FS and PHASE are set; the rest is left unspecified and is what `State.resetWith` says. Log entry 20. -/
def State.construct (v : Variant) (s : State) : State :=
  setRxTimeout params.rxTimeoutMs
    { State.resetWith v with rxq := s.rxq, txq := s.txq, txlog := s.txlog, inputs := s.inputs, line := s.line }

end Sys2Proof.Machine
end

