-- ==== Sys2Proof/Machine/Operands.lean ====
section
/-! DEFINITION. What MODE, VARIANT and the operation in progress select (spec/10_state.md rule R11's table,
spec/44_commit_access.md rule R121's table), the byte-swap correction (spec/42_parse.md rule R100), and the codes of the
enumerated registers (R14, R151). -/

namespace Sys2Proof.Machine

/-- The frame size that belongs to a mode and a variant (R13). -/
def frameSize (m : Mode) (v : Variant) : Nat :=
  match m with
  | .push => pushLen v
  | .query => params.queryLen

/-- The byte SYNC looks for (R83). -/
def marker : Mode → Byte
  | .push => params.markerPush
  | .query => params.markerQuery

/-- The field router: which offsets feed which measurement register (R121). -/
def route : Mode → Route
  | .push => params.routePush
  | .query => params.routeQuery

/-- The command that requests a mode (R70). -/
def modeCommand : Mode → CommandBytes
  | .push => params.cmdSetPush
  | .query => params.cmdSetQuery

/-- The three bytes that confirm the operation in progress (R131, R132). Outside SLEEP and WAKEUP there is none to confirm
and the phase that asks is not reached. Log entry 18. -/
def ackExpect : Activity → AckExpect
  | .wakeup => params.ackWake
  | .sleep => params.ackSleep
  | .none => params.ackSleep
  | .setmode => params.ackSleep
  | .readdata => params.ackSleep

/-- The offsets at which the exchanged pairs start (R100, R101): 2, 4, … up to FS - 2 in PushMode, the three
concentrations in QueryMode. -/
def swapOffsets (m : Mode) (fs : Nat) : List Nat :=
  match m with
  | .push => (List.range ((fs - 2) / 2)).map fun i => 2 + 2 * i
  | .query => (List.range params.swapPairsQuery).map fun i => 2 + 2 * i

/-- Exchange the bytes at `o` and `o + 1` (R100). -/
def exchange (m : Memory) (o : Nat) : Memory := (m.write o (m.read (o + 1))).write (o + 1) (m.read o)

/-- SWAP's effect on BUF (R100). -/
def swapBuf (m : Mode) (fs : Nat) (buf : Memory) : Memory := (swapOffsets m fs).foldl exchange buf

/-- The number of a phase (R14). -/
def Phase.code : Phase → BitVec 4
  | .idle => 0
  | .qreq => 1
  | .qwait => 2
  | .sync => 3
  | .lenchk => 4
  | .capture => 5
  | .swap => 6
  | .check => 7
  | .commit => 8
  | .cmdtx => 9
  | .drain => 10
  | .ackwait => 11
  | .ackchk => 12

/-- The code of a failure kind (R151). -/
def ErrKind.code : ErrKind → BitVec 3
  | .none => 0
  | .syncMiss => 1
  | .shortFrame => 2
  | .checksumMismatch => 3
  | .cmdNotConfirmed => 4

/-- `zext_16(MODE)` (R73). -/
def modeWord (m : Mode) : Half := if m.bit then 1 else 0

end Sys2Proof.Machine
end

