-- ==== Sys2Proof/Machine/Flags.lean ====
section
/-! DEFINITION. The checksums, which are what this engine computes conditions from (spec/43_checksum.md rules R110 to R116);
it has no condition codes (spec/10_state.md rule R20). -/

namespace Sys2Proof.Machine

/-- `neg8` (R6, R113): complement, then increment, both in 8 bits. -/
def neg8 (b : Byte) : Byte := ~~~b + 1

/-- `CK16(B, n)` (R111): the 16-bit wrapping sum of the bytes at offsets 0 to n - 3. -/
def ck16 (m : Memory) (n : Nat) : Half :=
  (List.range (n - 2)).foldl (fun acc i => acc + (m.read i).setWidth 16) 0

/-- `CK8(B, n)` (R113): the negated 8-bit wrapping sum of the bytes at offsets 1 to n - 2. -/
def ck8 (m : Memory) (n : Nat) : Byte :=
  neg8 ((List.range (n - 2)).foldl (fun acc i => acc + m.read (i + 1)) 0)

/-- The tail that SENDCMD computes for `c1 c2` (R116, R140). -/
def commandTail (c1 c2 : Byte) : Byte := neg8 (params.cmdFixed + c1 + c2)

/-- The nine bytes that `SENDCMD(c1, c2)` writes (R140). -/
def commandFrame (c1 c2 : Byte) : List Byte :=
  [params.cmdStart, params.cmdFixed, c1, c2, 0x00, 0x00, 0x00, 0x00, commandTail c1 c2]

/-- CHECK's test (R110, R112, R114). -/
def checksumOk (m : Mode) (fs : Nat) (buf : Memory) : Bool :=
  match m with
  | .push => ck16 buf fs == buf.read16 (fs - 2)
  | .query => ck8 buf fs == buf.read (fs - 1)

/-- CHECK's offsets all exist: the checksum field's first offset is not below 0 and its last not beyond BUF (R17, R110). -/
def checkInRange (m : Mode) (fs : Nat) : Bool :=
  match m with
  | .push => decide (2 ≤ fs) && decide (fs ≤ params.bufSize)
  | .query => decide (1 ≤ fs) && decide (fs ≤ params.bufSize)

/-- The acknowledgment test (R131, R132, R134): offsets 1, 2 and 8, and nothing else. -/
def ackOk (e : AckExpect) (buf : Memory) : Bool :=
  buf.read 1 == e.e1 && buf.read 2 == e.e2 && buf.read 8 == e.e8

end Sys2Proof.Machine
end

