-- ==== Sys2Proof/Machine/Engine.lean ====
section
/-! DEFINITION. The frame-sync state machine (spec/41_readdata_sync.md rule R81): what the engine does next in each phase,
one place of the spec's pseudocode at a time, with the environment's turn before every primitive call, and its run until an
operation is over. -/

namespace Sys2Proof.Machine

/-- The outcome of the engine's work. -/
abbrev Result := Host.Outcome State Fault Refusal

/-- Where SENDCMD's return leads (R81, R140): the query request to QWAIT, SETMODE to DRAIN, SLEEP and WAKEUP to ACKWAIT. With
no such operation in progress the helper was run for itself and the engine is idle again. -/
def afterSend (s : State) : State :=
  match s.phase, s.act with
  | .qreq, _ => { s with phase := .qwait, point := .start }
  | _, .setmode => { s with phase := .drain, point := .settle }
  | _, .sleep => { s with phase := .ackwait, point := .start, ackCount := 0 }
  | _, .wakeup => { s with phase := .ackwait, point := .start, ackCount := 0 }
  | _, .none => s.leave
  | _, .readdata => s.leave

/-- RXFLUSH's loop begins: `n <- 0` (R141). -/
def State.startDrain (s : State) : State := { s with point := .drain, flushCount := 0 }

/-- RXFLUSH has discarded one byte more: `n <- n + 1` (R141). -/
def State.counted (s : State) : State := { s with flushCount := s.flushCount + 1 }

/-- One look of RXFLUSH's loop (R141): discard one byte and count it, or find none and go on as `finish` says, with the count
as RXFLUSH returns it. -/
def drainTick (finish : State → State) (s : State) : Result :=
  let a := rxAvail s
  if a.1 = 0 then .next (finish a.2)
  else
    match rxRead a.2 with
    | some (_, t) => .next t.counted
    | none => .fault .rxEmpty

/-- SENDCMD (R140), place by place. -/
def sendTick (s : State) : Result :=
  match s.point with
  | .settle => .next ((delay Config.tFlushSettle s).startDrain)
  | .drain => drainTick (fun t => t.atPoint .write) s
  | .write => .next (((commandFrame s.cmd1 s.cmd2).foldl txWrite s).atPoint .flushAfter)
  | .flushAfter => .next (if (txFlush s).1 then afterSend (txFlush s).2 else (txFlush s).2)
  | .start => .next (if (txFlush s).1 then (txFlush s).2.atPoint .settle else (txFlush s).2)
  | .flushBefore => .next (if (txFlush s).1 then (txFlush s).2.atPoint .settle else (txFlush s).2)

/-- SYNC is over, with `found` as given (R83). -/
def State.sought (s : State) (f : Bool) : State := { s with found := f, phase := .lenchk }

/-- One round of SYNC's loop (R83): the scan is over, exhausted or on the marker, or one byte is discarded. -/
def syncTick (s : State) : Result :=
  let a := rxAvail s
  if a.1 = 0 then .next (a.2.sought false)
  else
    match rxPeek a.2 with
    | none => .fault .rxEmpty
    | some (b, t) =>
      if b = marker t.mode then .next (t.sought true)
      else
        match rxRead t with
        | some (_, u) => .next u
        | none => .fault .rxEmpty

/-- LENCHK (R84). -/
def lenchkTick (s : State) : Result :=
  let a := rxAvail s
  if a.1 < a.2.fs.toNat then .next (a.2.fail (if a.2.found then .shortFrame else .syncMiss))
  else .next (a.2.goto .capture)

/-- CAPTURE (R85): exactly FS bytes into BUF. -/
def captureTick (s : State) : Result :=
  let t := s.turn
  let n := t.fs.toNat
  if params.bufSize < n then .fault (.bufRange n)
  else if t.rxq.length < n then .fault .captureUnderrun
  else .next { t with buf := t.buf.writeList 0 (t.rxq.take n), rxq := t.rxq.drop n, phase := .swap }

/-- SWAP (R100). -/
def swapTick (s : State) : Result :=
  if params.bufSize < s.fs.toNat then .fault (.bufRange s.fs.toNat)
  else .next { s with buf := swapBuf s.mode s.fs.toNat s.buf, phase := .check }

/-- CHECK (R110). -/
def checkTick (s : State) : Result :=
  if checkInRange s.mode s.fs.toNat then
    .next (if checksumOk s.mode s.fs.toNat s.buf then s.goto .commit else s.fail .checksumMismatch)
  else .fault (.bufRange s.fs.toNat)

/-- COMMIT (R120): the three measurement registers together, by the router of the mode in force. -/
def commitTick (s : State) : Result :=
  .next (State.done { s with
    pm1_0 := s.buf.read16 (route s.mode).pm1_0
    pm2_5 := s.buf.read16 (route s.mode).pm2_5
    pm10 := s.buf.read16 (route s.mode).pm10
    lmWritten := true } 0)

/-- One round of ACKREAD's RxReadN(9) (R34, R130): each byte goes to its place in BUF. -/
def ackwaitTick (s : State) : Result :=
  if params.ackLen ≤ s.ackCount then .next (s.goto .ackchk)
  else
    match rxReadRound s with
    | (.timedOut, t) => .next (t.fail .cmdNotConfirmed)
    | (.byte b, t) => .next { t with buf := t.buf.write t.ackCount b, ackCount := t.ackCount + 1 }
    | (.waiting, t) => .next t

/-- The test of the three acknowledgment bytes (R131, R132). -/
def ackchkTick (s : State) : Result :=
  .next (if ackOk (ackExpect s.act) s.buf then s.done 0 else s.fail .cmdNotConfirmed)

/-- What the engine does next (R81). In IDLE it does nothing. -/
def tick (s : State) : Result :=
  match s.phase with
  | .idle => .next s
  | .qreq => sendTick s
  | .cmdtx => sendTick s
  | .qwait => .next ((delay Config.tQueryWait s).goto .sync)
  | .sync => syncTick s
  | .lenchk => lenchkTick s
  | .capture => captureTick s
  | .swap => swapTick s
  | .check => checkTick s
  | .commit => commitTick s
  | .drain =>
    match s.point with
    | .settle => .next ((delay Config.tFlushSettle s).startDrain)
    | .start => drainTick (fun t => t.done 0) s
    | .flushBefore => drainTick (fun t => t.done 0) s
    | .drain => drainTick (fun t => t.done 0) s
    | .write => drainTick (fun t => t.done 0) s
    | .flushAfter => drainTick (fun t => t.done 0) s
  | .ackwait => ackwaitTick s
  | .ackchk => ackchkTick s

/-- At most `n` ticks, stopping where `stop` says. -/
def runUntil (stop : State → Bool) : Nat → State → Result
  | 0, s => .next s
  | n + 1, s =>
    if stop s then .next s
    else
      match tick s with
      | .next t => runUntil stop n t
      | .fault f => .fault f
      | .refused r => .refused r

/-- The bytes that the timeline's own entries still have to bring, oldest first; an endless source is not counted. -/
def arrivals : List Input → List Byte
  | [] => []
  | .rx bs :: r => bs ++ arrivals r
  | .host _ :: r => arrivals r
  | .depart :: r => arrivals r
  | .timeout :: r => arrivals r
  | .pass :: r => arrivals r
  | .waitFor _ :: r => arrivals r
  | .endless _ :: r => arrivals r

/-- How many ticks one step of the model makes at most: enough for any operation to end unless the engine is held for ever
(R164), since every round of a loop uses up a byte or an entry of the timeline. Log entry 7. -/
def budget (s : State) : Nat :=
  s.inputs.length + (arrivals s.inputs).length + s.rxq.length + s.txq.length + 64

/-- PHASE is IDLE: the operation is over (R156). -/
def State.isIdle (s : State) : Bool := s.phase == .idle

/-- The engine is not inside SENDCMD. -/
def State.notSending (s : State) : Bool := s.phase != .cmdtx && s.phase != .qreq

/-- Run the operation in progress to its end, or as far as the budget goes when the engine is held. -/
def runToIdle (s : State) : Result := runUntil State.isIdle (budget s) s

/-- Enter SENDCMD(c1, c2) on behalf of an operation (R81, R140): in QREQ for READDATA, in CMDTX otherwise. -/
def State.beginSend (s : State) (a : Activity) (c : CommandBytes) : State :=
  { s with
    phase := if a = .readdata then .qreq else .cmdtx
    act := a
    point := .flushBefore
    found := false
    ackCount := 0
    cmd1 := c.c1
    cmd2 := c.c2 }

/-- A host operation is accepted only in IDLE (R156). -/
def whenIdle (s : State) (k : State → Result) : Result :=
  if s.phase = .idle then k s else .refused .engineBusy

end Sys2Proof.Machine
end

