-- ==== Sys2Proof/Machine/Accessors.lean ====
section
/-! DEFINITION. The accessors (spec/44_commit_access.md rules R122 to R127). -/

namespace Sys2Proof.Machine

/-- An accessor's result: the register's value once a READDATA has succeeded; before that a free value, drawn afresh at
each read (R23, D9, U1; log entry 3). -/
def readMeasurement (v : Half) (s : State) : Result :=
  if s.lmWritten then .next (s.done v)
  else .next (State.done { s with draws := s.draws + 1 } (Config.unwrittenMeasurement s.draws))

/-- GETPM1_0 (R122). -/
def execGetpm1_0 (s : State) : Result := whenIdle s fun t => readMeasurement t.pm1_0 t

/-- GETPM2_5 (R123). -/
def execGetpm2_5 (s : State) : Result := whenIdle s fun t => readMeasurement t.pm2_5 t

/-- GETPM10_0 (R124). -/
def execGetpm10_0 (s : State) : Result := whenIdle s fun t => readMeasurement t.pm10 t

end Sys2Proof.Machine
end

