-- ==== Sys2Proof/Machine/Commands.lean ====
section
/-! DEFINITION. The outbound command frames (spec/30_encoding.md rules R51 and R52, spec/46_helpers.md rules R140 and R142):
the meaning of a row of kind wire_outbound is that the engine sends that frame, by SENDCMD, on behalf of the operation in
progress. Log entry 9. -/

namespace Sys2Proof.Machine

/-- SENDCMD up to its return (R140), for the operation in progress. -/
def sendCommand (c : CommandBytes) (s : State) : Result :=
  let t := { s.beginSend s.act c with found := s.found, ackCount := s.ackCount }
  runUntil State.notSending (budget t) t

/-- CMD_SET_PUSH (R52). -/
def execCmdSetPush (s : State) : Result := sendCommand params.cmdSetPush s

/-- CMD_SET_QUERY (R52). -/
def execCmdSetQuery (s : State) : Result := sendCommand params.cmdSetQuery s

/-- CMD_QUERY (R52). -/
def execCmdQuery (s : State) : Result := sendCommand params.cmdQuery s

/-- CMD_SLEEP (R52). -/
def execCmdSleep (s : State) : Result := sendCommand params.cmdSleep s

/-- CMD_WAKE (R52). -/
def execCmdWake (s : State) : Result := sendCommand params.cmdWake s

end Sys2Proof.Machine
end

