-- ==== Sys2Proof/Machine/Frames.lean ====
section
/-! DEFINITION. The inbound frames (spec/30_encoding.md rules R53 to R56): the meaning of a row of kind wire_inbound is that
its bytes arrive (spec/20_memory.md rule R39) and that the engine, if an operation is in progress, goes on with them by the
state machine (SYNC, LENCHK, CAPTURE, SWAP, CHECK, COMMIT; or ACKREAD and its test); in IDLE they "merely accumulate"
(spec/60_exceptions.md rule R155). Log entry 10. -/

namespace Sys2Proof.Machine

/-- Bytes arrive in one burst and the operation in progress, if any, goes on. -/
def receive (bs : List Byte) (s : State) : Result := runToIdle (s.arrive bs)

/-- FRAME_PUSH_A (R53). -/
def execFramePushA (f : PushFrame) (s : State) : Result := receive (pushWire f) s

/-- FRAME_PUSH_B (R54). -/
def execFramePushB (f : PushFrame) (s : State) : Result := receive (pushWire f) s

/-- FRAME_QUERY (R55). -/
def execFrameQuery (f : QueryFrame) (s : State) : Result := receive (queryWire f) s

/-- ACK_SLEEP (R56, R131). -/
def execAckSleep (a : AckFrame) (s : State) : Result := receive (ackWire params.ackSleep a) s

/-- ACK_WAKE (R56, R132). -/
def execAckWake (a : AckFrame) (s : State) : Result := receive (ackWire params.ackWake a) s

end Sys2Proof.Machine
end

