-- ==== Sys2Proof/Machine/ModeControl.lean ====
section
/-! DEFINITION. The mode control operations (spec/40_mode_control.md rules R70 to R75). -/

namespace Sys2Proof.Machine

/-- `SETMODE m` (R70): FS and MODE are written together, then the command is sent, then RXQ is drained; there is no short
cut when the mode does not change (R75). -/
def enterMode (m : Mode) (s : State) : Result :=
  runToIdle (State.beginSend { s with fs := BitVec.ofNat 6 (frameSize m s.variant), mode := m } .setmode (modeCommand m))

/-- GETMODE (R73). -/
def execGetmode (s : State) : Result := whenIdle s fun t => .next (t.done (modeWord t.mode))

/-- SETMODE m (R70). -/
def execSetmode (m : Mode) (s : State) : Result := whenIdle s (enterMode m)

/-- SETINITIATIVE (R71): exactly SETMODE 0. -/
def execSetinitiative (s : State) : Result := whenIdle s (enterMode .push)

/-- SETQANDA (R72): exactly SETMODE 1. -/
def execSetqanda (s : State) : Result := whenIdle s (enterMode .query)

end Sys2Proof.Machine
end

