-- ==== Sys2Proof/Machine/Power.lean ====
section
/-! DEFINITION. The power-state commands (spec/45_power.md rules R130 to R134). -/

namespace Sys2Proof.Machine

/-- SLEEP (R131): the command, then ACKREAD and the test of three bytes by the state machine (R81). -/
def execSleep (s : State) : Result := whenIdle s fun t => runToIdle (t.beginSend .sleep params.cmdSleep)

/-- WAKEUP (R132). -/
def execWakeup (s : State) : Result := whenIdle s fun t => runToIdle (t.beginSend .wakeup params.cmdWake)

end Sys2Proof.Machine
end

