-- ==== Sys2Proof/Machine/ReadData.lean ====
section
/-! DEFINITION. READDATA (spec/41_readdata_sync.md rules R80 to R91). -/

namespace Sys2Proof.Machine

/-- READDATA (R80): in QueryMode it starts with the query request (R82), in PushMode with SYNC; the other steps follow by
the state machine (R81). -/
def startRead (s : State) : State :=
  match s.mode with
  | .push => { s with phase := .sync, act := .readdata, point := .start, found := false, ackCount := 0 }
  | .query => s.beginSend .readdata params.cmdQuery

/-- READDATA (R80). -/
def execReaddata (s : State) : Result := whenIdle s fun t => runToIdle (startRead t)

end Sys2Proof.Machine
end

