-- ==== Sys2Proof/Machine/Dispatch.lean ====
section
/-! DEFINITION. One arm per instruction. -/

namespace Sys2Proof.Machine

def exec (i : Instr) (s : State) : Host.Outcome State Fault Refusal :=
  match i with
  | .getmode => Sys2Proof.Machine.execGetmode s
  | .setmode m => Sys2Proof.Machine.execSetmode m s
  | .setinitiative => Sys2Proof.Machine.execSetinitiative s
  | .setqanda => Sys2Proof.Machine.execSetqanda s
  | .readdata => Sys2Proof.Machine.execReaddata s
  | .getpm1_0 => Sys2Proof.Machine.execGetpm1_0 s
  | .getpm2_5 => Sys2Proof.Machine.execGetpm2_5 s
  | .getpm10_0 => Sys2Proof.Machine.execGetpm10_0 s
  | .sleep => Sys2Proof.Machine.execSleep s
  | .wakeup => Sys2Proof.Machine.execWakeup s
  | .cmdSetPush => Sys2Proof.Machine.execCmdSetPush s
  | .cmdSetQuery => Sys2Proof.Machine.execCmdSetQuery s
  | .cmdQuery => Sys2Proof.Machine.execCmdQuery s
  | .cmdSleep => Sys2Proof.Machine.execCmdSleep s
  | .cmdWake => Sys2Proof.Machine.execCmdWake s
  | .framePushA f => Sys2Proof.Machine.execFramePushA f s
  | .framePushB f => Sys2Proof.Machine.execFramePushB f s
  | .frameQuery f => Sys2Proof.Machine.execFrameQuery f s
  | .ackSleep a => Sys2Proof.Machine.execAckSleep a s
  | .ackWake a => Sys2Proof.Machine.execAckWake a s

end Sys2Proof.Machine
end

