-- ==== Sys2Proof/Machine/Fetch.lean ====
section
/-! DEFINITION. Where the machine's next instruction comes from (spec/20_memory.md rule R47: "The engine fetches no
instructions"): in IDLE the host's next operation word (spec/30_encoding.md rule R59); at the start of SENDCMD the command
frame of the operation in progress (R51); while an operation waits for a frame, the bytes that arrive next, read in the
context that MODE, VARIANT and the operation select (R63). Log entries 5, 9, 10 and 11. -/

namespace Sys2Proof.Machine

/-- What stands next. -/
inductive Fetched where
  /-- an instruction, and the state with its bytes taken from where they stood -/
  | instr (i : Instr) (s : State)
  /-- a host operation word that names no operation (R61) -/
  | unknown (w : Byte)
  /-- nothing to decode: the operation in progress goes on -/
  | engine
  /-- nothing to decode and no operation in progress: only the environment may move -/
  | environment
  deriving DecidableEq, Repr

/-- The inbound shape that the operation in progress waits for (R63; the table's `selected_by`). -/
def inboundContext (s : State) : Option Context :=
  match s.act with
  | .readdata =>
    if s.phase = .qwait ∨ s.phase = .sync ∨ s.phase = .lenchk then
      some (match s.mode with
        | .push => match s.variant with
          | .a => .pushA
          | .b => .pushB
        | .query => .query)
    else none
  | .sleep => if s.phase = .ackwait then some .ackSleep else none
  | .wakeup => if s.phase = .ackwait then some .ackWake else none
  | .none => none
  | .setmode => none

/-- The host's next operation word, in IDLE. -/
def fetchHost (s : State) : Fetched :=
  match s.inputs with
  | .host w :: r =>
    match decode .hostOp [w] with
    | .ok i => .instr i { s with inputs := r }
    | .error _ => .unknown w
  | _ => .environment

/-- The command frame that SENDCMD is about to send. -/
def fetchCommand (s : State) : Fetched :=
  match s.point with
  | .flushBefore =>
    match decode .outbound (commandFrame s.cmd1 s.cmd2) with
    | .ok i => .instr i s
    | .error _ => .engine
  | _ => .engine

/-- The bytes that arrive next, while an operation waits for a frame. -/
def fetchInbound (s : State) : Fetched :=
  match s.inputs with
  | .rx bs :: r =>
    match inboundContext s with
    | some c =>
      match decode c bs with
      | .ok i => .instr i { s with inputs := r }
      | .error _ => .engine
    | none => .engine
  | _ => .engine

/-- What stands next. -/
def fetch (s : State) : Fetched :=
  match s.phase with
  | .idle => fetchHost s
  | .cmdtx => fetchCommand s
  | .qreq => fetchCommand s
  | _ => fetchInbound s

/-- Place a host operation word: IDLE, and the word next on the timeline. -/
def placeHost (s : State) (w : Byte) : State := { s.leave with inputs := .host w :: s.inputs }

/-- Place a command frame: the operation that sends it at the start of SENDCMD (R52's column "sent by"). -/
def placeCommand (s : State) (i : Instr) : State :=
  match i with
  | .cmdSetPush => s.beginSend .setmode params.cmdSetPush
  | .cmdSetQuery => s.beginSend .setmode params.cmdSetQuery
  | .cmdQuery => s.beginSend .readdata params.cmdQuery
  | .cmdSleep => s.beginSend .sleep params.cmdSleep
  | .cmdWake => s.beginSend .wakeup params.cmdWake
  | _ => s

/-- Place an inbound frame: an operation that waits for its shape, with RXQ empty, and its bytes next on the timeline. -/
def placeInbound (s : State) (c : Context) (bs : List Byte) : State :=
  let reading (m : Mode) (v : Variant) : State :=
    { s.leave with
      variant := v, mode := m, fs := BitVec.ofNat 6 (frameSize m v), phase := .sync, act := .readdata, rxq := []
      inputs := .rx bs :: s.inputs }
  let confirming (a : Activity) : State :=
    { s.leave with phase := .ackwait, act := a, rxq := [], inputs := .rx bs :: s.inputs }
  match c with
  | .pushA => reading .push .a
  | .pushB => reading .push .b
  | .query => reading .query s.variant
  | .ackSleep => confirming .sleep
  | .ackWake => confirming .wakeup
  | .hostOp => s
  | .outbound => s

/-- Place a table word where it is fetched next. A one-byte word is a host operation word whether or not it names an
operation; a longer word that is no instruction is left to arrive as plain bytes. -/
def placeTableWord (s : State) (nbits w : Nat) : State :=
  if nbits = 8 then placeHost s (BitVec.ofNat 8 w)
  else
    match readTableWord nbits w with
    | some (.outbound, i, _) => placeCommand s i
    | some (c, _, bs) => placeInbound s c bs
    | none => { s with inputs := .rx (bytesLowFirst (nbits / 8) w) :: s.inputs }

end Sys2Proof.Machine
end

