-- ==== Sys2Proof/Machine/Step.lean ====
section
/-! DEFINITION. One step of the machine: the instruction that stands next, or the work of the operation in progress, or, in
IDLE with nothing issued, the environment's moves alone. -/

namespace Sys2Proof.Machine

/-- The step. -/
def step (s : State) : Host.Outcome State Fault Refusal :=
  match fetch s with
  | .instr i t => exec i t
  | .unknown w => .refused (.noOperation w)
  | .engine => runToIdle s
  | .environment => .next s.turn

/-- The state with a table word stored where the next step fetches it. Log entry 11. -/
def State.withFetchWord (s : State) (nbits w : Nat) : State := placeTableWord s nbits w

end Sys2Proof.Machine
end

