-- ==== Sys2Proof/Safety.lean ====
section
/-! DEFINITION. The terms that claims about runs are stated in: the invariant of every state that a run from reset reaches
(spec/10_state.md rule R13, spec/20_memory.md rule R43, spec/41_readdata_sync.md rule R81), the quiescent operation
(spec/20_memory.md rule R39), the premises about the environment (spec/60_exceptions.md rule R159), and the result registers
an operation ends with (R151). -/

namespace Sys2Proof.Machine

/-- What any moves of the environment come to (R39): the bytes `a` arrived, the oldest `k` bytes of TXQ departed, and `r` is
left of the timeline. -/
def State.moved (s : State) (a : List Byte) (k : Nat) (r : List Input) : State :=
  { s with rxq := s.rxq ++ a, txq := s.txq.drop k, txlog := s.txlog ++ s.txq.take k, inputs := r }

/-- FS is the frame size of MODE and VARIANT (R13). -/
abbrev State.Geometry (s : State) : Prop := s.fs.toNat = frameSize s.mode s.variant

/-- Which operations are in progress in which phase (R81's table, R14's table). -/
def Phase.serves : Phase → Activity → Bool
  | .idle, a => a == .none
  | .qreq, a => a == .readdata
  | .qwait, a => a == .readdata
  | .sync, a => a == .readdata
  | .lenchk, a => a == .readdata
  | .capture, a => a == .readdata
  | .swap, a => a == .readdata
  | .check, a => a == .readdata
  | .commit, a => a == .readdata
  | .cmdtx, a => a == .setmode || a == .sleep || a == .wakeup
  | .drain, a => a == .setmode
  | .ackwait, a => a == .sleep || a == .wakeup
  | .ackchk, a => a == .sleep || a == .wakeup

/-- The command that an operation sends (R143). -/
def commandOf (a : Activity) (m : Mode) : Option CommandBytes :=
  match a with
  | .none => none
  | .setmode => some (modeCommand m)
  | .readdata => some params.cmdQuery
  | .sleep => some params.cmdSleep
  | .wakeup => some params.cmdWake

/-- The phases of SENDCMD (R81). -/
abbrev State.Sending (s : State) : Prop := s.phase = .cmdtx ∨ s.phase = .qreq

/-- What holds of every state that a run from reset reaches: FS fits MODE and VARIANT; BUF is in canonical form and has no
offset beyond its size; RXTO is the timeout configured at reset; the phase belongs to the operation in progress; the query
request is sent in QueryMode only; CAPTURE finds a whole frame; ACKREAD never counts beyond its frame; SENDCMD sends the
command of its operation. -/
abbrev State.Inv (s : State) : Prop :=
  s.Geometry ∧ s.buf.wf = true ∧ s.buf.inRange = true ∧ s.rxto = params.rxTimeoutMs ∧
  s.phase.serves s.act = true ∧
  (s.phase = .qreq ∨ s.phase = .qwait → s.mode = .query) ∧
  (s.phase = .capture → s.fs.toNat ≤ s.rxq.length) ∧
  s.ackCount ≤ params.ackLen ∧
  (s.Sending → commandOf s.act s.mode = some ⟨s.cmd1, s.cmd2, commandTail s.cmd1 s.cmd2⟩)

/-- Nothing arrives before the host's next operation, or before a move that waits for IDLE: departures, Timeouts, pauses and
waits may stand on the timeline, arrivals may not. -/
def quietInputs : List Input → Bool
  | [] => true
  | .host _ :: _ => true
  | .waitFor p :: r => p == .idle || quietInputs r
  | .depart :: r => quietInputs r
  | .timeout :: r => quietInputs r
  | .pass :: r => quietInputs r
  | .rx _ :: _ => false
  | .endless _ :: _ => false

/-- The quiescent operation of R39: no RxArrive occurs while it runs. -/
def State.quiescent (s : State) : Bool := quietInputs s.inputs

/-- No move of the environment of any kind stands on the timeline for the operation that runs. -/
def State.frozen (s : State) : Bool :=
  match s.inputs with
  | [] => true
  | .host _ :: _ => true
  | .waitFor p :: _ => p == .idle
  | .rx _ :: _ => false
  | .depart :: _ => false
  | .timeout :: _ => false
  | .pass :: _ => false
  | .endless _ :: _ => false

/-- No endless source stands before the host's next operation, or before a move that waits for IDLE: `FiniteArrivals` of R159
for one operation. -/
def finiteInputs : List Input → Bool
  | [] => true
  | .host _ :: _ => true
  | .waitFor p :: r => p == .idle || finiteInputs r
  | .depart :: r => finiteInputs r
  | .timeout :: r => finiteInputs r
  | .pass :: r => finiteInputs r
  | .rx _ :: r => finiteInputs r
  | .endless _ :: _ => false

/-- The premises `TxProgress` and `FiniteArrivals` of R159 and the fair Timeout of R164. -/
abbrev State.Fair (s : State) : Prop :=
  s.line.txProgress = true ∧ s.line.timesOut = true ∧ finiteInputs s.inputs = true

/-- An entry of the timeline that the environment can leave behind while an operation runs: not the host's next operation, for
which the host waits (R156), and not an endless source, which never ends. -/
def Input.passes : Input → Bool
  | .host _ => false
  | .endless _ => false
  | .rx _ => true
  | .depart => true
  | .timeout => true
  | .pass => true
  | .waitFor _ => true

/-- Between the timeline `l` and the timeline `r` the bytes `a` arrived, in this order (R39): `l` gave up a part `p`, and, where
an endless source stood behind it, that source gave `k` bursts. -/
def Brought (l : List Input) (a : List Byte) (r : List Input) : Prop :=
  ∃ p : List Input, (∀ i ∈ p, i.passes = true) ∧
    ((l = p ++ r ∧ a = arrivals p) ∨
     ∃ (e : Endless) (k : Nat) (q : List Input), l = p ++ .endless e :: q ∧ r = .endless (e.after k) :: q ∧
       a = arrivals p ++ e.bytes k)

/-- A push frame as captured passes CHECK (R112): the sum of all its bytes but the last two is the big-endian field at its
end. -/
def pushValid (w : List Byte) : Bool :=
  ((w.take (w.length - 2)).map BitVec.toNat).sum % 65536 ==
    (w.getD (w.length - 2) 0).toNat * 256 + (w.getD (w.length - 1) 0).toNat

/-- A query frame as captured passes CHECK (R114): bytes 1 to 8 sum to 0 modulo 256. -/
def queryValid (w : List Byte) : Bool := ((w.drop 1).map BitVec.toNat).sum % 256 == 0

/-- The big-endian field at an offset of a frame as captured (R57). -/
def fieldAt (w : List Byte) (o : Nat) : Half := be16 (w.getD o 0) (w.getD (o + 1) 0)

/-- Byte `a` of BUF after SWAP, for a frame `w` as captured (R100): the bytes of each 2-byte field from offset 2 on stand in
exchanged order; the marker, and in QueryMode the checksum byte, stay. -/
def afterSwap (m : Mode) (w : List Byte) (a : Nat) : Byte :=
  let last := match m with
    | .push => w.length
    | .query => 8
  if 2 ≤ a ∧ a < last then w.getD (if a % 2 = 0 then a + 1 else a - 1) 0 else w.getD a 0

/-- What RXQ holds from the first byte equal to the marker on (R83). -/
def fromMarker (b : Byte) (q : List Byte) : List Byte := q.dropWhile (· != b)

/-- BUF as it was, but for offsets 0 to `n` - 1, which read as given. -/
abbrev BufReads (s t : State) (n : Nat) (f : Nat → Byte) : Prop :=
  t.buf.wf = true ∧ ∀ a, t.buf.read a = if a < n then f a else s.buf.read a

/-- Every byte of BUF as it was. -/
abbrev SameBuffer (s t : State) : Prop := ∀ a, t.buf.read a = s.buf.read a

/-- The registers that no failure and no other operation may change (R16, R153): the measurement, MODE, FS, VARIANT. -/
abbrev SameRegisters (s t : State) : Prop :=
  t.pm1_0 = s.pm1_0 ∧ t.pm2_5 = s.pm2_5 ∧ t.pm10 = s.pm10 ∧ t.mode = s.mode ∧ t.fs = s.fs ∧ t.variant = s.variant

/-- `s` with the timeline, TXQ and TXLOG of `t`: what the environment's departures leave of an operation that writes nothing. -/
def State.lined (s t : State) : State := { s with inputs := t.inputs, txq := t.txq, txlog := t.txlog }

/-- Bytes that waited in TXQ may have departed, in order, and nothing was written (R35, R39). -/
abbrev Transmits (s t : State) : Prop := s.txlog <+: t.txlog ∧ t.txlog ++ t.txq = s.txlog ++ s.txq

/-- `s` with the operation `a` just issued: where SENDCMD of its command row starts (log entry 9). -/
def State.serving (s : State) (a : Activity) : State := { s with act := a, found := false, ackCount := 0 }

/-- Entries that the environment makes in one turn while the engine is in phase `p`, none of which is a pause. -/
def inOneTurn (p : Phase) (l : List Input) : Bool :=
  l.all fun i => match i with
    | .rx _ => true
    | .depart => true
    | .timeout => true
    | .waitFor q => q == p
    | .pass => false
    | .host _ => false
    | .endless _ => false

/-- The measurement registers alone. -/
abbrev SameMeasurement (s t : State) : Prop := t.pm1_0 = s.pm1_0 ∧ t.pm2_5 = s.pm2_5 ∧ t.pm10 = s.pm10

end Sys2Proof.Machine
end

