-- ==== Sys2Proof/Certificates/Slice0/Obligations.lean ====
section
/-! DEFINITION. The statements for the provers. Each docstring names the rules of spec/ that the statement comes from; where a
statement rests on a choice of the model's own, it names the log entry. -/

section

open Sys2Proof Sys2Proof.Machine

/-! ## Encodings -/

/-- R50 to R57, R59, R60, R64: in its own context, the bytes of a well-formed instruction decode to that instruction; the bytes
of the two pseudo-operations decode to the SETMODE they stand for. -/
def Obligations.EncodeDecodeRoundTrip : Prop :=
  ∀ i : Instr, i.wf = true → decode i.context (encode i) = .ok i.core

/-- R50 to R57, R59, R60: what the decoder reads is well-formed, belongs to the context asked for, and encodes to exactly the
bytes read: no bit of an encoding is dropped. -/
def Obligations.DecodedBytesAreTheEncoding : Prop :=
  ∀ (c : Context) (bs : List Byte) (i : Instr), decode c bs = .ok i → i.wf = true ∧ i.context = c ∧ encode i = bs

/-- R52 to R56, R60: words written out from the tables decode to the rows they stand for. -/
def Obligations.WrittenOutWordsDecode : Prop :=
  decode .hostOp [0x00] = .ok .getmode ∧
  decode .hostOp [0x11] = .ok (.setmode .query) ∧
  decode .hostOp [0x07] = .ok .wakeup ∧
  decode .outbound [0xFF, 0x01, 0x78, 0x41, 0x00, 0x00, 0x00, 0x00, 0x46] = .ok .cmdSetQuery ∧
  decode .query [0xFF, 0x86, 0x00, 0x23, 0x00, 0x28, 0x00, 0x0C, 0x23] =
    .ok (.frameQuery { marker1 := 0x86, pm2_5 := 35, pm10 := 40, pm1_0 := 12, checksum := 0x23 }) ∧
  decode .ackSleep [0xFF, 0xA7, 0x01, 0x00, 0x00, 0x00, 0x00, 0x00, 0x58] =
    .ok (.ackSleep { marker0 := 0xFF, fill := [0, 0, 0, 0, 0] })

/-- R61: an operation word with `op` from 8 to 15, with bits 7 to 5 not zero, or with `m` = 1 on an operation other than
SETMODE names no operation: the decoder refuses it, and the step refuses it by name, so that it changes no state. Every other
word names one. -/
def Obligations.WordsNamingNoOperationAreRefused : Prop :=
  ∀ (w : Byte) (s : State) (r : List Input), s.phase = .idle → s.inputs = .host w :: r →
    if 8 ≤ w.toNat % 16 ∨ 32 ≤ w.toNat ∨ (w.getLsbD 4 = true ∧ w.toNat % 16 ≠ 1) then
      decode .hostOp [w] = .error .noOperation ∧ step s = .refused (.noOperation w)
    else ∃ i, decode .hostOp [w] = .ok i

/-! ## The step -/

/-- R51, R59, R63, R156, with log entries 5, 9, 10 and 11: the step runs the instruction that stands next. In IDLE that is the
host's next operation word; at the start of SENDCMD the command frame about to be sent; while an operation waits for a frame
of a shape, the bytes that arrive next. -/
def Obligations.StepRunsTheDecodedInstruction : Prop :=
  (∀ (s : State) (w : Byte) (r : List Input) (i : Instr),
    s.phase = .idle → s.inputs = .host w :: r → decode .hostOp [w] = .ok i → step s = exec i { s with inputs := r }) ∧
  (∀ (s : State) (i : Instr),
    s.Sending → s.point = .flushBefore → decode .outbound (commandFrame s.cmd1 s.cmd2) = .ok i → step s = exec i s) ∧
  (∀ (s : State) (bs : List Byte) (r : List Input) (c : Context) (i : Instr),
    s.inputs = .rx bs :: r → inboundContext s = some c → decode c bs = .ok i → step s = exec i { s with inputs := r })

/-- R156, R176, U9: the host has no operation while PHASE is not IDLE; the model refuses one by name. -/
def Obligations.OperationsAreRefusedWhileBusy : Prop :=
  ∀ (i : Instr) (s : State), i.context = .hostOp → s.phase ≠ .idle → exec i s = .refused .engineBusy

/-- R39, R155: in IDLE, with no operation issued, a step changes nothing but the transport and the timeline: bytes received
accumulate behind those already there, and bytes written are transmitted in order. -/
def Obligations.IdleMovesTouchTheTransportOnly : Prop :=
  ∀ s : State, s.phase = .idle → (∀ w r, s.inputs ≠ .host w :: r) →
    ∃ t a, step s = .next t ∧ t = { s.lined t with rxq := s.rxq ++ a } ∧ Brought s.inputs a t.inputs ∧ Transmits s t

/-! ## Reset -/

/-- R171: RESET(v) sets VARIANT, RXTO, MODE, FS and PHASE, and leaves the transport's three sequences as they were. -/
def Obligations.ResetSetsTheControlRegisters : Prop :=
  ∀ (v : Variant) (s : State),
    (State.construct v s).variant = v ∧ (State.construct v s).mode = .push ∧ (State.construct v s).phase = .idle ∧
    (State.construct v s).rxto = 100 ∧
    (State.construct v s).fs = (match v with
      | .a => 24
      | .b => 32) ∧
    (State.construct v s).rxq = s.rxq ∧ (State.construct v s).txq = s.txq ∧ (State.construct v s).txlog = s.txlog

/-- R13, R23, R171: the invariant holds after RESET(v) on any transport, and of the state the host starts from. -/
def Obligations.ResetMeetsTheInvariant : Prop :=
  (∀ (v : Variant) (s : State), (State.construct v s).Inv) ∧ (∀ v : Variant, (State.resetWith v).Inv) ∧ State.reset.Inv

/-! ## What holds of every step -/

/-- R13, R17, R37, R81, R82, R85, R130, R143: every step keeps the invariant: FS fits MODE and VARIANT, BUF stays in canonical
form and inside its 32 bytes, RXTO stays as reset configured it, each phase serves an operation of its own, the query request
is sent in QueryMode only, CAPTURE finds a whole frame, ACKREAD counts at most nine bytes, and SENDCMD sends the command of its
operation. -/
def Obligations.StepKeepsTheInvariant : Prop :=
  ∀ s t : State, s.Inv → step s = .next t → t.Inv

/-- R32, R33, R61, R85, R152, U7, U17: from a state that meets the invariant a step never faults, and the only step without a
next state is the refusal of an operation word that names no operation. -/
def Obligations.OnlyUnknownWordsStopTheMachine : Prop :=
  ∀ s : State, s.Inv →
    (∃ t, step s = .next t) ∨
    (∃ w r, s.phase = .idle ∧ s.inputs = .host w :: r ∧ decode .hostOp [w] = .error .noOperation ∧
      step s = .refused (.noOperation w))

/-- R13, the spec's own inference there: `FS == (MODE == 0 ? PUSH_LEN(VARIANT) : 9)` holds after reset and after every
operation. -/
def Obligations.FrameSizeFitsModeAndVariant : Prop :=
  (∀ v s, (State.construct v s).Geometry) ∧
  ∀ (i : Instr) (s t : State), s.Geometry → exec i s = .next t →
    t.fs.toNat = (match t.mode, t.variant with
      | .push, .a => 24
      | .push, .b => 32
      | .query, _ => 9)

/-- R12, R37: no instruction and no step writes VARIANT or RXTO. -/
def Obligations.VariantAndTimeoutNeverChange : Prop :=
  (∀ (i : Instr) (s t : State), exec i s = .next t → t.variant = s.variant ∧ t.rxto = s.rxto) ∧
  ∀ s t : State, step s = .next t → t.variant = s.variant ∧ t.rxto = s.rxto

/-- R17, R42: every instruction keeps BUF in canonical form and inside its 32 bytes. -/
def Obligations.BufferStaysCanonical : Prop :=
  ∀ (i : Instr) (s t : State), s.buf.wf = true → s.buf.inRange = true → exec i s = .next t →
    t.buf.wf = true ∧ t.buf.inRange = true

/-- R35, R36, R38, R44: bytes are transmitted in the order they were written: whatever happens, what was transmitted or waited
to be transmitted stays in front, in order. -/
def Obligations.TransmissionIsFirstInFirstOut : Prop :=
  ∀ (i : Instr) (s t : State), exec i s = .next t →
    s.txlog <+: t.txlog ∧ (s.txlog ++ s.txq) <+: (t.txlog ++ t.txq)

/-- R31, R33, R39, R44: bytes are read in the order they arrived, none reordered, duplicated or left out: whatever happens, RXQ
is the end of what it held followed by what arrived, the bytes of an inbound row (log entry 10) before those that the timeline
brought. -/
def Obligations.ReceptionIsFirstInFirstOut : Prop :=
  (∀ (i : Instr) (s t : State), exec i s = .next t →
    ∃ a, Brought s.inputs a t.inputs ∧
      t.rxq <:+ s.rxq ++ (if i.context = .hostOp ∨ i.context = .outbound then [] else encode i) ++ a) ∧
  ∀ s t : State, step s = .next t →
    ∃ a, (Brought s.inputs a t.inputs ∨ ∃ w r, s.inputs = .host w :: r ∧ Brought r a t.inputs) ∧ t.rxq <:+ s.rxq ++ a

/-- R151: the five codes of ERRKIND; at the end of every operation ERRKIND is NONE exactly when STATUS is 1. R153: DATA is 0
on a failure. R150: SETMODE, GETMODE and the accessors always end with STATUS = 1, READDATA fails only with SYNC_MISS, SHORT_FRAME or CHECKSUM_MISMATCH,
SLEEP and WAKEUP only with CMD_NOT_CONFIRMED. -/
def Obligations.ResultsOfEveryOperation : Prop :=
  ([ErrKind.none, .syncMiss, .shortFrame, .checksumMismatch, .cmdNotConfirmed].map ErrKind.code = [0, 1, 2, 3, 4] ∧
    ∀ k : ErrKind, k.code.toNat ≤ 4) ∧
  ∀ (i : Instr) (s t : State), i.context = .hostOp → exec i s = .next t → t.phase = .idle →
    (t.errkind.code = 0 ↔ t.status = true) ∧ (t.errkind = .none ↔ t.status = true) ∧ (t.status = false → t.data = 0) ∧
    (match i with
      | .readdata => t.errkind = .none ∨ t.errkind = .syncMiss ∨ t.errkind = .shortFrame ∨ t.errkind = .checksumMismatch
      | .sleep => t.errkind = .none ∨ t.errkind = .cmdNotConfirmed
      | .wakeup => t.errkind = .none ∨ t.errkind = .cmdNotConfirmed
      | _ => t.errkind = .none)

/-- R16, R110, R153 (T4): an operation that ends with STATUS = 0 leaves the measurement, MODE, FS and VARIANT as they were. -/
def Obligations.FailureLeavesTheRegisters : Prop :=
  ∀ (i : Instr) (s t : State), i.context = .hostOp → exec i s = .next t → t.phase = .idle → t.status = false →
    SameRegisters s t ∧ t.lmWritten = s.lmWritten

/-- R16: the measurement registers are overwritten only when a READDATA succeeds; no other operation writes them, and no
READDATA that failed or is still held. -/
def Obligations.OnlyASuccessfulReadWritesTheMeasurement : Prop :=
  ∀ (i : Instr) (s t : State), i.context = .hostOp → exec i s = .next t →
    i ≠ .readdata ∨ t.phase ≠ .idle ∨ t.status = false → SameMeasurement s t ∧ t.lmWritten = s.lmWritten

/-- R18, the spec's own inference there: the contents BUF holds when PHASE is IDLE can affect no later result: whatever BUF
holds, an operation ends, or is held, in the same state but for BUF. -/
def Obligations.BufferContentsNeverMatter : Prop :=
  ∀ (i : Instr) (s t : State) (m : Memory), i.context = .hostOp → s.Geometry → s.buf.wf = true → m.wf = true →
    exec i s = .next t → ∃ n, exec i { s with buf := m } = .next { t with buf := n }

/-- R159, with the spec's own inference in R164 (T15): under TxProgress, FiniteArrivals and a fair Timeout every operation
ends: PHASE returns to IDLE. -/
def Obligations.EveryOperationEnds : Prop :=
  ∀ (i : Instr) (s : State), i.context = .hostOp → s.Inv → s.Fair → s.phase = .idle →
    ∃ t, exec i s = .next t ∧ t.phase = .idle ∧ t.Inv

/-! ## Mode control -/

/-- R73: GETMODE, whose word is 0x00, presents MODE in DATA and changes nothing but the result registers. -/
def Obligations.GetmodeReturnsTheMode : Prop :=
  decode .hostOp [0x00] = .ok .getmode ∧
  ∀ s : State, s.phase = .idle →
    exec .getmode s = .next (s.done (if s.mode = .query then 0x0001 else 0x0000))

/-- R71, R72: SETINITIATIVE is exactly SETMODE 0 and SETQANDA exactly SETMODE 1: the same word, the same effect in every
state. -/
def Obligations.PseudoOperationsAreSetmode : Prop :=
  encode .setinitiative = [0x01] ∧ encode (.setmode .push) = [0x01] ∧
  encode .setqanda = [0x11] ∧ encode (.setmode .query) = [0x11] ∧
  (∀ s : State, exec .setinitiative s = exec (.setmode .push) s) ∧
  ∀ s : State, exec .setqanda s = exec (.setmode .query) s

/-- R70, R71, R72, R75: in a quiescent operation whose transmission proceeds, SETMODE m (and the pseudo-operation for that m)
writes MODE and FS, transmits its nine bytes after whatever was waiting, empties RXQ, and succeeds; everything else stays. (The
last RXFLUSH returns 0.) -/
def Obligations.QuiescentModeSwitch : Prop :=
  ∀ s : State, s.phase = .idle → s.quiescent = true → s.line.txProgress = true →
    (∀ i ∈ [Instr.setmode .push, .setinitiative],
      ∃ t, exec i s = .next t ∧ Brought s.inputs [] t.inputs ∧ t = State.done { s with
        mode := .push
        fs := (match s.variant with
          | .a => 24
          | .b => 32)
        rxq := [], txq := [], flushCount := 0, inputs := t.inputs
        txlog := s.txlog ++ s.txq ++ [0xFF, 0x01, 0x78, 0x40, 0x00, 0x00, 0x00, 0x00, 0x47] } 0) ∧
    (∀ i ∈ [Instr.setmode .query, .setqanda],
      ∃ t, exec i s = .next t ∧ Brought s.inputs [] t.inputs ∧ t = State.done { s with
        mode := .query, fs := 9, rxq := [], txq := [], flushCount := 0, inputs := t.inputs
        txlog := s.txlog ++ s.txq ++ [0xFF, 0x01, 0x78, 0x41, 0x00, 0x00, 0x00, 0x00, 0x46] } 0)

/-- R16, R70 to R72, R141, R142: whatever the environment does, a mode switch leaves the measurement, VARIANT, RXTO and every byte
of BUF as they were and writes MODE and FS; when it is over it has succeeded, RXQ and TXQ are empty, and exactly its own nine
bytes have been transmitted after whatever was waiting. -/
def Obligations.ModeSwitchFrame : Prop :=
  ∀ (i : Instr) (m : Mode) (s t : State),
    (i = .setmode m ∨ (i = .setinitiative ∧ m = .push) ∨ (i = .setqanda ∧ m = .query)) → exec i s = .next t →
    t.mode = m ∧ t.Geometry ∧ SameMeasurement s t ∧ t.lmWritten = s.lmWritten ∧ t.variant = s.variant ∧
    t.rxto = s.rxto ∧ SameBuffer s t ∧
    (t.phase = .idle → t.status = true ∧ t.errkind = .none ∧ t.data = 0 ∧ t.rxq = [] ∧ t.txq = [] ∧
      t.txlog = s.txlog ++ s.txq ++ commandWire (modeCommand m))

/-- R70, R73, R75 (T7): after SETMODE m has returned, GETMODE gives m, whatever the environment did. -/
def Obligations.GetmodeAfterSetmode : Prop :=
  ∀ (m : Mode) (s t : State), exec (.setmode m) s = .next t → t.phase = .idle →
    ∃ u, exec .getmode t = .next u ∧ u.status = true ∧ u.data = (if m = .query then 0x0001 else 0x0000)

/-! ## READDATA -/

/-- R80, R83 to R88, R90, R100, R110, R120, R121 (T2, T10): the closed form of a quiescent READDATA in PushMode, the spec's own
inference in R88. `q` is RXQ from the first byte 0x42 on, `w` its first FS bytes. -/
def Obligations.QuiescentPushRead : Prop :=
  ∀ (s : State) (q w : List Byte), s.phase = .idle → s.quiescent = true → s.mode = .push → s.Geometry → s.buf.wf = true →
    q = fromMarker 0x42 s.rxq → w = q.take s.fs.toNat →
    ∃ t, exec .readdata s = .next t ∧ Brought s.inputs [] t.inputs ∧ Transmits s t ∧
      (if q = [] then t = State.fail { s.lined t with rxq := [] } .syncMiss
      else if q.length < s.fs.toNat then t = State.fail { s.lined t with rxq := q } .shortFrame
      else BufReads s t s.fs.toNat (afterSwap .push w) ∧
        (if pushValid w then
          t = State.done { s.lined t with
            rxq := q.drop s.fs.toNat, buf := t.buf, lmWritten := true
            pm1_0 := fieldAt w 10, pm2_5 := fieldAt w 12, pm10 := fieldAt w 14 } 0
        else t = State.fail { s.lined t with rxq := q.drop s.fs.toNat, buf := t.buf } .checksumMismatch))

/-- R82, and the spec's own inference in R89 (T9): a quiescent READDATA in QueryMode fails with SYNC_MISS and leaves RXQ empty,
whatever RXQ held; the query request has been transmitted, and nothing else has changed (the RXFLUSH returned the number of
bytes that RXQ held). -/
def Obligations.QuiescentQueryReadMisses : Prop :=
  ∀ s : State, s.phase = .idle → s.quiescent = true → s.line.txProgress = true → s.mode = .query → s.Geometry →
    ∃ t, exec .readdata s = .next t ∧ Brought s.inputs [] t.inputs ∧ t = State.fail { s with
      inputs := t.inputs, rxq := [], txq := [], flushCount := s.rxq.length
      txlog := s.txlog ++ s.txq ++ [0xFF, 0x01, 0x86, 0x00, 0x00, 0x00, 0x00, 0x00, 0x79] } .syncMiss

/-- R80, R82 to R88, R100, R104, R110, R120, R121 (T3): a READDATA in QueryMode during whose QWAIT the bytes `reply` arrive,
and nothing else does (ReplyInWait, TxProgress). `q` is the reply from the first byte 0xFF on, `w` its first nine bytes. -/
def Obligations.QueryReadOfAReply : Prop :=
  ∀ (s : State) (reply q w : List Byte) (r : List Input),
    s.phase = .idle → s.inputs = .waitFor .qwait :: .rx reply :: r → quietInputs r = true →
    s.line.txProgress = true → s.mode = .query → s.Geometry → s.buf.wf = true →
    q = fromMarker 0xFF reply → w = q.take 9 →
    ∃ t u, exec .readdata s = .next t ∧ Brought r [] t.inputs ∧
      u = { s with
        inputs := t.inputs, txq := [], flushCount := s.rxq.length
        txlog := s.txlog ++ s.txq ++ [0xFF, 0x01, 0x86, 0x00, 0x00, 0x00, 0x00, 0x00, 0x79] } ∧
      (if q = [] then t = State.fail { u with rxq := [] } .syncMiss
      else if q.length < 9 then t = State.fail { u with rxq := q } .shortFrame
      else BufReads s t 9 (afterSwap .query w) ∧
        (if queryValid w then
          t = State.done { u with
            rxq := q.drop 9, buf := t.buf, lmWritten := true
            pm2_5 := fieldAt w 2, pm10 := fieldAt w 4, pm1_0 := fieldAt w 6 } 0
        else t = State.fail { u with rxq := q.drop 9, buf := t.buf } .checksumMismatch))

/-- R80, R82 to R88, R100, R104, R110, R120, R121, R140 (T3), the spec's own inference in R88: a READDATA in QueryMode whose
reply has arrived, in any pieces, after the RXFLUSH inside QREQ and before the first step of SYNC. `u` is the state in which
SENDCMD returns to QWAIT (log entry 9); the bytes that arrived after its RXFLUSH stand in its RXQ; `p` is what the environment
does while QWAIT lasts, and nothing arrives after it. `q` is all these bytes from the first 0xFF on, `w` its first nine. -/
def Obligations.QueryReadOfAnyReply : Prop :=
  ∀ (s u : State) (p r : List Input) (q w : List Byte),
    s.phase = .idle → s.line.txProgress = true → s.mode = .query → s.Geometry → s.buf.wf = true →
    exec .cmdQuery (s.serving .readdata) = .next u → u.phase = .qwait →
    u.inputs = p ++ r → inOneTurn .qwait p = true → quietInputs r = true →
    q = fromMarker 0xFF (u.rxq ++ arrivals p) → w = q.take 9 →
    ∃ t, exec .readdata s = .next t ∧ Brought r [] t.inputs ∧
      (if q = [] then t = State.fail { u with inputs := t.inputs, rxq := [] } .syncMiss
      else if q.length < 9 then t = State.fail { u with inputs := t.inputs, rxq := q } .shortFrame
      else BufReads s t 9 (afterSwap .query w) ∧
        (if queryValid w then
          t = State.done { u with
            inputs := t.inputs, rxq := q.drop 9, buf := t.buf, lmWritten := true
            pm2_5 := fieldAt w 2, pm10 := fieldAt w 4, pm1_0 := fieldAt w 6 } 0
        else t = State.fail { u with inputs := t.inputs, rxq := q.drop 9, buf := t.buf } .checksumMismatch))

/-- R11, R16, R17, R80, R143, R153: whatever the environment does, READDATA leaves MODE, FS, VARIANT, RXTO and every byte of BUF
from offset FS on as they were, all of BUF when it ends with SYNC_MISS or SHORT_FRAME, and the measurement unless it ends with
STATUS = 1; in PushMode it writes nothing to the transport, and in QueryMode exactly the query request has been transmitted
when it is over. -/
def Obligations.ReadFrame : Prop :=
  ∀ s t : State, s.Geometry → s.buf.wf = true → exec .readdata s = .next t →
    t.mode = s.mode ∧ t.fs = s.fs ∧ t.variant = s.variant ∧ t.rxto = s.rxto ∧
    (∀ a, s.fs.toNat ≤ a → t.buf.read a = s.buf.read a) ∧
    (t.phase = .idle → t.errkind = .syncMiss ∨ t.errkind = .shortFrame → SameBuffer s t) ∧
    (t.phase ≠ .idle ∨ t.status = false → SameMeasurement s t ∧ t.lmWritten = s.lmWritten) ∧
    (s.mode = .push → t.txlog ++ t.txq = s.txlog ++ s.txq) ∧
    (s.mode = .query → t.phase = .idle → t.txq = [] ∧
      t.txlog = s.txlog ++ s.txq ++ commandWire params.cmdQuery)

/-- R44, R57, R83 to R85, R110 to R114, R120, R121, R125: whatever the environment does, a READDATA that ends with STATUS = 1
leaves in the measurement registers, together, the three fields of one run `w` of FS bytes that passes its checksum, and that
run, followed by what is left in RXQ, is the end of the stream received: of what RXQ held and what arrived during the operation
in PushMode, of what arrived during the operation in QueryMode. -/
def Obligations.AcceptedMeasurementIsOneValidFrame : Prop :=
  ∀ s t : State, s.Geometry → s.buf.wf = true → exec .readdata s = .next t → t.phase = .idle → t.status = true →
    ∃ a w, Brought s.inputs a t.inputs ∧ w.length = s.fs.toNat ∧ t.lmWritten = true ∧
      (match s.mode with
        | .push => w ++ t.rxq <:+ s.rxq ++ a ∧ pushValid w = true ∧
            t.pm1_0 = fieldAt w 10 ∧ t.pm2_5 = fieldAt w 12 ∧ t.pm10 = fieldAt w 14
        | .query => w ++ t.rxq <:+ a ∧ queryValid w = true ∧
            t.pm1_0 = fieldAt w 6 ∧ t.pm2_5 = fieldAt w 2 ∧ t.pm10 = fieldAt w 4)

/-- R157, under the premises TxProgress and a fair Timeout of R159, R164 and R184 (log entry 6): a silent stream gives SYNC_MISS
on every READDATA and CMD_NOT_CONFIRMED on every SLEEP or WAKEUP; RXQ stays empty and the operation's command, if it sends one,
has been written. -/
def Obligations.SilentStreamFailsEveryRead : Prop :=
  ∀ s : State, s.phase = .idle → s.quiescent = true → s.line.txProgress = true → s.line.timesOut = true → s.Geometry →
    s.rxq = [] →
    (∃ t, exec .readdata s = .next t ∧ t.phase = .idle ∧ t.status = false ∧ t.errkind = .syncMiss ∧ t.rxq = [] ∧
      t.txlog ++ t.txq = s.txlog ++ s.txq ++ (match s.mode with
        | .push => []
        | .query => [0xFF, 0x01, 0x86, 0x00, 0x00, 0x00, 0x00, 0x00, 0x79])) ∧
    (∃ t, exec .sleep s = .next t ∧ t.phase = .idle ∧ t.status = false ∧ t.errkind = .cmdNotConfirmed ∧ t.rxq = [] ∧
      t.txlog = s.txlog ++ s.txq ++ [0xFF, 0x01, 0xA7, 0x01, 0x00, 0x00, 0x00, 0x00, 0x57]) ∧
    (∃ t, exec .wakeup s = .next t ∧ t.phase = .idle ∧ t.status = false ∧ t.errkind = .cmdNotConfirmed ∧ t.rxq = [] ∧
      t.txlog = s.txlog ++ s.txq ++ [0xFF, 0x01, 0xA7, 0x00, 0x00, 0x00, 0x00, 0x00, 0x58])

/-- R118 (the spec's own inference), T13: with one frame in RXQ that a quiescent READDATA in PushMode accepts, or one reply in
QWAIT that a READDATA in QueryMode accepts, the same frame with any one byte changed makes it fail and leaves the measurement,
MODE, FS and VARIANT as they were. -/
def Obligations.MutatedFramesFailTheRead : Prop :=
  (∀ (s t : State) (w : List Byte) (i : Nat) (x : Byte),
    s.phase = .idle → s.quiescent = true → s.mode = .push → s.Geometry → s.buf.wf = true →
    s.rxq = w → w.length = s.fs.toNat → exec .readdata s = .next t → t.status = true →
    i < w.length → x ≠ w.getD i 0 →
    ∃ u, exec .readdata { s with rxq := w.set i x } = .next u ∧ u.phase = .idle ∧ u.status = false ∧ SameRegisters s u) ∧
  (∀ (s t : State) (w : List Byte) (r : List Input) (i : Nat) (x : Byte),
    s.phase = .idle → s.inputs = .waitFor .qwait :: .rx w :: r → quietInputs r = true →
    s.line.txProgress = true → s.mode = .query → s.Geometry → s.buf.wf = true →
    w.length = 9 → exec .readdata s = .next t → t.status = true → i < 9 → x ≠ w.getD i 0 →
    ∃ u, exec .readdata { s with inputs := .waitFor .qwait :: .rx (w.set i x) :: r } = .next u ∧ u.phase = .idle ∧
      u.status = false ∧ SameRegisters s u)

/-! ## The accessors -/

/-- R122, R123, R124, R127: once a READDATA has succeeded, each accessor presents its register in DATA, whatever MODE is, and
changes nothing but the result registers. -/
def Obligations.AccessorsReturnTheMeasurement : Prop :=
  ∀ s : State, s.phase = .idle → s.lmWritten = true →
    exec .getpm1_0 s = .next (s.done s.pm1_0) ∧
    exec .getpm2_5 s = .next (s.done s.pm2_5) ∧
    exec .getpm10_0 s = .next (s.done s.pm10)

/-- R23, R175, D9, U1, with log entry 3: before the first success an accessor still runs and succeeds; the value it presents
is free, and drawing it is all that happens beside the result. -/
def Obligations.UnwrittenAccessorsPresentAFreeValue : Prop :=
  ∀ (s : State) (i : Instr), i = .getpm1_0 ∨ i = .getpm2_5 ∨ i = .getpm10_0 → s.phase = .idle → s.lmWritten = false →
    exec i s = .next (State.done { s with draws := s.draws + 1 } (Config.unwrittenMeasurement s.draws))

/-! ## The power commands -/

/-- R34, R130, R131, R134, R140 (T14): a SLEEP in whose ACKWAIT the bytes `reply` arrive, and nothing else does. It succeeds
exactly when nine bytes came and bytes 1, 2 and 8 are 0xA7, 0x01 and 0x58; the bytes read are gone from RXQ and stand in BUF,
also when fewer than nine came. -/
def Obligations.SleepReadsTheAcknowledgment : Prop :=
  ∀ (s : State) (reply : List Byte) (r : List Input),
    s.phase = .idle → s.inputs = .waitFor .ackwait :: .rx reply :: r → quietInputs r = true →
    s.line.txProgress = true → s.line.timesOut = true → s.buf.wf = true →
    ∃ t u, exec .sleep s = .next t ∧ Brought r [] t.inputs ∧
      BufReads s t (min 9 reply.length) (fun a => reply.getD a 0) ∧
      u = { s with
        inputs := t.inputs, rxq := reply.drop 9, txq := [], buf := t.buf, flushCount := s.rxq.length
        txlog := s.txlog ++ s.txq ++ [0xFF, 0x01, 0xA7, 0x01, 0x00, 0x00, 0x00, 0x00, 0x57] } ∧
      (if 9 ≤ reply.length ∧ reply.getD 1 0 = 0xA7 ∧ reply.getD 2 0 = 0x01 ∧ reply.getD 8 0 = 0x58 then t = u.done 0
      else t = u.fail .cmdNotConfirmed)

/-- R34, R130, R132, R134, R140 (T14): as for SLEEP, with 0x00 expected at offset 2. -/
def Obligations.WakeupReadsTheAcknowledgment : Prop :=
  ∀ (s : State) (reply : List Byte) (r : List Input),
    s.phase = .idle → s.inputs = .waitFor .ackwait :: .rx reply :: r → quietInputs r = true →
    s.line.txProgress = true → s.line.timesOut = true → s.buf.wf = true →
    ∃ t u, exec .wakeup s = .next t ∧ Brought r [] t.inputs ∧
      BufReads s t (min 9 reply.length) (fun a => reply.getD a 0) ∧
      u = { s with
        inputs := t.inputs, rxq := reply.drop 9, txq := [], buf := t.buf, flushCount := s.rxq.length
        txlog := s.txlog ++ s.txq ++ [0xFF, 0x01, 0xA7, 0x00, 0x00, 0x00, 0x00, 0x00, 0x58] } ∧
      (if 9 ≤ reply.length ∧ reply.getD 1 0 = 0xA7 ∧ reply.getD 2 0 = 0x00 ∧ reply.getD 8 0 = 0x58 then t = u.done 0
      else t = u.fail .cmdNotConfirmed)

/-- R34, R130 to R132, R134, R140 (T14), whatever the environment does: a SLEEP or WAKEUP that has ended has read the first nine
of the bytes that arrived after the RXFLUSH of its SENDCMD, in whatever pieces and with whatever pauses, or all of them when a
Timeout came first. `u` is the state in which SENDCMD returns (log entry 9); `reply` is what stood in RXQ then followed by what
arrived after. -/
def Obligations.AcknowledgmentsAreReadInAnyPieces : Prop :=
  ∀ (i k : Instr) (a : Activity) (e : Byte × Byte × Byte) (s t : State),
    (i = .sleep ∧ k = .cmdSleep ∧ a = .sleep ∧ e = (0xA7, 0x01, 0x58)) ∨
      (i = .wakeup ∧ k = .cmdWake ∧ a = .wakeup ∧ e = (0xA7, 0x00, 0x58)) →
    s.buf.wf = true → exec i s = .next t → t.phase = .idle →
    ∃ (u v : State) (x reply : List Byte),
      exec k (s.serving a) = .next u ∧ u.phase = .ackwait ∧ Brought u.inputs x t.inputs ∧ reply = u.rxq ++ x ∧
      BufReads s t (min 9 reply.length) (fun o => reply.getD o 0) ∧
      v = { u with inputs := t.inputs, rxq := reply.drop 9, buf := t.buf } ∧
      (if 9 ≤ reply.length ∧ reply.getD 1 0 = e.1 ∧ reply.getD 2 0 = e.2.1 ∧ reply.getD 8 0 = e.2.2 then t = v.done 0
      else t = v.fail .cmdNotConfirmed)

/-- R16, R131, R133: whatever the environment does, SLEEP and WAKEUP leave MODE, FS, VARIANT, RXTO, the measurement and every
byte of BUF from offset 9 on as they were; when one is over, TXQ is empty and exactly its own command has been transmitted
after whatever was waiting. -/
def Obligations.PowerOperationsFrame : Prop :=
  ∀ (i : Instr) (c : CommandBytes) (s t : State),
    (i = .sleep ∧ c = params.cmdSleep) ∨ (i = .wakeup ∧ c = params.cmdWake) → s.buf.wf = true → exec i s = .next t →
    SameRegisters s t ∧ t.lmWritten = s.lmWritten ∧ t.rxto = s.rxto ∧ (∀ a, 9 ≤ a → t.buf.read a = s.buf.read a) ∧
    (t.phase = .idle → t.txq = [] ∧ t.txlog = s.txlog ++ s.txq ++ commandWire c)

/-- R130 to R132, R134 (T14): whatever the environment does, SLEEP and WAKEUP end with STATUS = 1 only when nine bytes have been
read, a run `w` of the bytes that arrived during the operation which, followed by what is left in RXQ, ends that stream; BUF
holds them at offsets 0 to 8, and at offsets 1, 2 and 8 they are the three expected. -/
def Obligations.ConfirmationNeedsTheThreeBytes : Prop :=
  ∀ (i : Instr) (b : Byte) (s t : State), (i = .sleep ∧ b = 0x01) ∨ (i = .wakeup ∧ b = 0x00) → s.buf.wf = true →
    exec i s = .next t → t.phase = .idle → t.status = true →
    ∃ a w, Brought s.inputs a t.inputs ∧ w.length = 9 ∧ w ++ t.rxq <:+ a ∧ (∀ o, o < 9 → t.buf.read o = w.getD o 0) ∧
      w.getD 1 0 = 0xA7 ∧ w.getD 2 0 = b ∧ w.getD 8 0 = 0x58

/-! ## The outbound commands -/

/-- R51, R52, R81, R140, R141, with log entry 9: with nothing arriving and transmission proceeding, each of the five commands is
transmitted as its nine bytes after whatever was waiting, RXQ is emptied first, the RXFLUSH returns the number of its bytes, and
the operation in progress goes on as R81's table says (with none in progress the engine is idle). Registers, results and BUF
stay. -/
def Obligations.CommandFramesAreTransmitted : Prop :=
  ∀ s : State, s.quiescent = true → s.line.txProgress = true →
    ∀ p ∈ [(Instr.cmdSetPush, ([0xFF, 0x01, 0x78, 0x40, 0x00, 0x00, 0x00, 0x00, 0x47] : List Byte)),
      (.cmdSetQuery, [0xFF, 0x01, 0x78, 0x41, 0x00, 0x00, 0x00, 0x00, 0x46]),
      (.cmdQuery, [0xFF, 0x01, 0x86, 0x00, 0x00, 0x00, 0x00, 0x00, 0x79]),
      (.cmdSleep, [0xFF, 0x01, 0xA7, 0x01, 0x00, 0x00, 0x00, 0x00, 0x57]),
      (.cmdWake, [0xFF, 0x01, 0xA7, 0x00, 0x00, 0x00, 0x00, 0x00, 0x58])],
      ∃ t, exec p.1 s = .next t ∧ t.txlog = s.txlog ++ s.txq ++ p.2 ∧ t.txq = [] ∧ t.rxq = [] ∧
        t.flushCount = s.rxq.length ∧
        t.phase = (match s.act with
          | .none => .idle
          | .readdata => .qwait
          | .setmode => .drain
          | .sleep => .ackwait
          | .wakeup => .ackwait) ∧
        SameRegisters s t ∧ t.lmWritten = s.lmWritten ∧ SameBuffer s t ∧ t.rxto = s.rxto ∧ Brought s.inputs [] t.inputs ∧
        t.status = s.status ∧ t.errkind = s.errkind ∧ t.data = s.data

/-- R36, R44, R45, R140, R141, with the spec's own inference in R142, for what a command row means by log entry 9: whatever the
environment does, when a command has been sent its nine bytes are the last nine of TXLOG, contiguous and in order, after every
byte written earlier, and TXQ is empty; the bytes `d` that RXFLUSH discarded are as many as it counted, and no byte that stood
in RXQ at the start is left: RXQ holds the rest of what arrived. Registers, results and BUF stay. -/
def Obligations.CommandsAreOrderedInTheLog : Prop :=
  ∀ (i : Instr) (s t : State), i.context = .outbound → exec i s = .next t →
    SameRegisters s t ∧ t.lmWritten = s.lmWritten ∧ SameBuffer s t ∧ t.rxto = s.rxto ∧
    t.status = s.status ∧ t.errkind = s.errkind ∧ t.data = s.data ∧
    (t.phase ≠ .cmdtx ∧ t.phase ≠ .qreq → t.txlog = s.txlog ++ s.txq ++ encode i ∧ t.txq = [] ∧
      ∃ a d, Brought s.inputs a t.inputs ∧ s.rxq ++ a = d ++ t.rxq ∧ d.length = t.flushCount ∧ s.rxq.length ≤ d.length)

/-- R140, with the spec's own inference in R116: the tail that SENDCMD computes for any `c1 c2` is CK8 of the frame it
writes, and for the five commands it is the tail of the table. -/
def Obligations.CommandTailsAreChecksums : Prop :=
  (∀ (c1 c2 : Byte) (m : Memory), m.wf = true →
    commandTail c1 c2 = ck8 (m.writeList 0 (commandFrame c1 c2)) 9 ∧
    (commandTail c1 c2).toNat = (256 - (0x01 + c1.toNat + c2.toNat) % 256) % 256) ∧
  ∀ c ∈ [params.cmdSetPush, params.cmdSetQuery, params.cmdQuery, params.cmdSleep, params.cmdWake],
    commandTail c.c1 c.c2 = c.tail ∧ commandFrame c.c1 c.c2 = commandWire c

/-! ## The inbound frames -/

/-- R53, R85, R100, R112, R120, R121, with log entry 10: the bytes of a variant A push frame arrive while READDATA scans an
empty RXQ in PushMode of variant A. They fill BUF[0..23]; if the frame's sum is right the registers take the three values that
the frame encodes; if not, the operation fails with CHECKSUM_MISMATCH. -/
def Obligations.PushFrameAIsReceived : Prop :=
  ∀ (f : PushFrame) (s : State), f.wfA = true → s.phase = .sync → s.act = .readdata → s.mode = .push → s.variant = .a →
    s.Geometry → s.rxq = [] → s.quiescent = true → s.buf.wf = true →
    ∃ t, exec (.framePushA f) s = .next t ∧ Brought s.inputs [] t.inputs ∧ Transmits s t ∧
      BufReads s t 24 (afterSwap .push (pushWire f)) ∧
      (if pushValid (pushWire f) then
        t = State.done { s.lined t with buf := t.buf, lmWritten := true, pm1_0 := f.pm1_0, pm2_5 := f.pm2_5, pm10 := f.pm10 } 0
      else t = State.fail { s.lined t with buf := t.buf } .checksumMismatch)

/-- R54, R85, R100, R112, R120, R121, with log entry 10: the same for variant B and 32 bytes. -/
def Obligations.PushFrameBIsReceived : Prop :=
  ∀ (f : PushFrame) (s : State), f.wfB = true → s.phase = .sync → s.act = .readdata → s.mode = .push → s.variant = .b →
    s.Geometry → s.rxq = [] → s.quiescent = true → s.buf.wf = true →
    ∃ t, exec (.framePushB f) s = .next t ∧ Brought s.inputs [] t.inputs ∧ Transmits s t ∧
      BufReads s t 32 (afterSwap .push (pushWire f)) ∧
      (if pushValid (pushWire f) then
        t = State.done { s.lined t with buf := t.buf, lmWritten := true, pm1_0 := f.pm1_0, pm2_5 := f.pm2_5, pm10 := f.pm10 } 0
      else t = State.fail { s.lined t with buf := t.buf } .checksumMismatch)

/-- R55, R85, R100, R104, R114, R120, R121, with log entry 10: the bytes of a query frame arrive while READDATA scans an empty
RXQ in QueryMode. -/
def Obligations.QueryFrameIsReceived : Prop :=
  ∀ (f : QueryFrame) (s : State), s.phase = .sync → s.act = .readdata → s.mode = .query → s.Geometry →
    s.rxq = [] → s.quiescent = true → s.buf.wf = true →
    ∃ t, exec (.frameQuery f) s = .next t ∧ Brought s.inputs [] t.inputs ∧ Transmits s t ∧
      BufReads s t 9 (afterSwap .query (queryWire f)) ∧
      (if queryValid (queryWire f) then
        t = State.done { s.lined t with buf := t.buf, lmWritten := true, pm1_0 := f.pm1_0, pm2_5 := f.pm2_5, pm10 := f.pm10 } 0
      else t = State.fail { s.lined t with buf := t.buf } .checksumMismatch)

/-- R56, R130 to R132, R134, with log entry 10: the bytes of an acknowledgment arrive while SLEEP or WAKEUP waits for one, with
none read yet. They fill BUF[0..8]; the operation succeeds exactly when the acknowledgment is its own. -/
def Obligations.AcknowledgmentsAreReceived : Prop :=
  ∀ (a : AckFrame) (s : State), a.wf = true → s.phase = .ackwait → s.act = .sleep ∨ s.act = .wakeup → s.ackCount = 0 →
    s.rxq = [] → s.quiescent = true → s.buf.wf = true →
    (∃ t, exec (.ackSleep a) s = .next t ∧ Brought s.inputs [] t.inputs ∧ Transmits s t ∧
      BufReads s t 9 (fun x => (ackWire params.ackSleep a).getD x 0) ∧
      (if s.act = .sleep then t = State.done { s.lined t with buf := t.buf } 0
      else t = State.fail { s.lined t with buf := t.buf } .cmdNotConfirmed)) ∧
    (∃ t, exec (.ackWake a) s = .next t ∧ Brought s.inputs [] t.inputs ∧ Transmits s t ∧
      BufReads s t 9 (fun x => (ackWire params.ackWake a).getD x 0) ∧
      (if s.act = .wakeup then t = State.done { s.lined t with buf := t.buf } 0
      else t = State.fail { s.lined t with buf := t.buf } .cmdNotConfirmed))

/-- R39, R155, with log entry 10: in IDLE the bytes of an inbound frame merely accumulate in RXQ. -/
def Obligations.InboundFramesAccumulateInIdle : Prop :=
  ∀ (i : Instr) (s : State), i.context ≠ .hostOp → i.context ≠ .outbound → s.phase = .idle →
    exec i s = .next { s with rxq := s.rxq ++ encode i }

/-! ## Holds (R164) -/

/-- R36, with the spec's own inference in R164 (a), U19: without TxProgress (log entry 6) a mode switch holds in SENDCMD and is
stuck: PHASE is not IDLE, and by log entry 7 the model still answers a state for it, whose next step leaves it as it is. -/
def Obligations.SendHoldsWithoutTxProgress : Prop :=
  ∀ (m : Mode) (s : State), s.phase = .idle → s.frozen = true → s.line.txProgress = false →
    ∃ t, exec (.setmode m) s = .next t ∧ t.phase = .cmdtx ∧ t.txq ≠ [] ∧ step t = .next t

/-- R83, with the spec's own inference in R164 (b), U19: while a burst of bytes other than 0x42 arrives before every primitive
call for ever (log entry 6), whatever the bursts are, a READDATA in PushMode scans for ever: neither it nor any number of
further steps, which the model answers by log entry 7, comes to IDLE. -/
def Obligations.EndlessArrivalsHoldTheScan : Prop :=
  ∀ (e : Endless) (r : List Input) (s : State) (n : Nat), s.phase = .idle → s.mode = .push → s.inputs = .endless e :: r →
    (∀ k, (e.after k).now ≠ [] ∧ ∀ x ∈ (e.after k).now, x ≠ 0x42) → (∀ x ∈ s.rxq, x ≠ 0x42) →
    ∃ t, exec .readdata s = .next t ∧ t.phase = .sync ∧
      ∃ u, Sys2Proof.core.run n t = .next u ∧ State.phase u = .sync

/-- R141, with the spec's own inference in R164 (c), U19: while a burst of bytes, whatever they are, arrives before every primitive
call for ever (log entry 6), every operation that sends a command stays in the RXFLUSH of its SENDCMD for ever, and so does any
number of further steps, which the model answers by log entry 7. -/
def Obligations.EndlessArrivalsHoldTheDrain : Prop :=
  ∀ (i : Instr) (e : Endless) (r : List Input) (s : State) (n : Nat),
    (i = .setmode .push ∨ i = .setmode .query ∨ i = .setinitiative ∨ i = .setqanda ∨ i = .sleep ∨ i = .wakeup ∨
      (i = .readdata ∧ s.mode = .query)) →
    s.phase = .idle → s.line.txProgress = true → s.inputs = .endless e :: r → (∀ k, (e.after k).now ≠ []) →
    ∃ t, exec i s = .next t ∧ t.Sending ∧ t.point = .drain ∧
      ∃ u, Sys2Proof.core.run n t = .next u ∧ State.Sending u ∧ State.point u = .drain

/-! ## SWAP and the checksums -/

/-- R100, corner case 2 (T8): applying SWAP twice restores BUF. -/
def Obligations.SwapTwiceRestoresTheBuffer : Prop :=
  ∀ (m : Mode) (n : Nat) (b : Memory), b.wf = true → swapBuf m n (swapBuf m n b) = b

/-- R100, R101, with the spec's own inference in R102: after SWAP the little-endian view of each field exchanged is the
field's big-endian value as captured; the marker, and in QueryMode the checksum byte, are not exchanged. -/
def Obligations.SwappedFieldsReadBigEndian : Prop :=
  ∀ b : Memory, b.wf = true →
    (∀ n ∈ [24, 32], (∀ o, o % 2 = 0 → 2 ≤ o → o < n →
        (swapBuf .push n b).read16 o = be16 (b.read o) (b.read (o + 1))) ∧
      ∀ a, a < 2 ∨ n ≤ a → (swapBuf .push n b).read a = b.read a) ∧
    (∀ o ∈ [2, 4, 6], (swapBuf .query 9 b).read16 o = be16 (b.read o) (b.read (o + 1))) ∧
    ∀ a, a < 2 ∨ 8 ≤ a → (swapBuf .query 9 b).read a = b.read a

/-- The spec's own inference in R115: `CK16(BUF after SWAP, FS) = CK16(w, FS)` and `CK8(BUF after SWAP, 9) = CK8(w, 9)`. -/
def Obligations.ChecksumsIgnoreTheSwap : Prop :=
  ∀ b : Memory, b.wf = true →
    ck16 (swapBuf .push 24 b) 24 = ck16 b 24 ∧ ck16 (swapBuf .push 32 b) 32 = ck16 b 32 ∧
    ck8 (swapBuf .query 9 b) 9 = ck8 b 9

/-- R110, R112, in the form that R112 infers: CHECK's test in PushMode, in terms of the frame as captured: the sum of all
bytes but the last two, modulo 65536, is the big-endian field at the end. -/
def Obligations.PushCheckInTermsOfTheFrame : Prop :=
  ∀ (b : Memory) (w : List Byte), b.wf = true → w.length = 24 ∨ w.length = 32 →
    (checksumOk .push w.length (swapBuf .push w.length (b.writeList 0 w)) = true ↔
      ((w.take (w.length - 2)).map BitVec.toNat).sum % 65536 =
        (w.getD (w.length - 2) 0).toNat * 256 + (w.getD (w.length - 1) 0).toNat)

/-- R110, R114, in the form that R114 infers: CHECK's test in QueryMode, in terms of the frame as captured: the negated sum
of bytes 1 to 7, modulo 256, is byte 8. -/
def Obligations.QueryCheckInTermsOfTheFrame : Prop :=
  ∀ (b : Memory) (w : List Byte), b.wf = true → w.length = 9 →
    (checksumOk .query 9 (swapBuf .query 9 (b.writeList 0 w)) = true ↔
      (256 - (((w.drop 1).take 7).map BitVec.toNat).sum % 256) % 256 = (w.getD 8 0).toNat)

/-- R111, R113, with the spec's own inference in R119: the 16-bit accumulator never wraps: CK16 is the plain sum, at most
5610 for a 24-byte frame and 7650 for a 32-byte frame, and both bounds are reached; so no frame whose checksum field exceeds
them is valid. The 8-bit accumulator does wrap: seven bytes can sum to 1785. -/
def Obligations.PushSumNeverWraps : Prop :=
  (∀ b : Memory,
    (ck16 b 24).toNat = ((List.range 22).map fun i => (b.read i).toNat).sum ∧ (ck16 b 24).toNat ≤ 5610 ∧
    (ck16 b 32).toNat = ((List.range 30).map fun i => (b.read i).toNat).sum ∧ (ck16 b 32).toNat ≤ 7650) ∧
  (ck16 (Memory.writeList [] 0 (List.replicate 22 0xFF)) 24).toNat = 5610 ∧
  (ck16 (Memory.writeList [] 0 (List.replicate 30 0xFF)) 32).toNat = 7650 ∧
  (∀ w : List Byte, pushValid w = true →
    (w.length = 24 → (fieldAt w 22).toNat ≤ 5610) ∧ (w.length = 32 → (fieldAt w 30).toNat ≤ 7650)) ∧
  ((List.range 7).map fun i => ((Memory.writeList [] 0 (List.replicate 8 0xFF)).read (i + 1)).toNat).sum = 1785 ∧
  ck8 (Memory.writeList [] 0 (List.replicate 8 0xFF)) 9 = neg8 (BitVec.ofNat 8 (1785 % 256))

/-- R110, R112, R114, with the spec's own inference in R118 (T13): when CHECK's test holds on BUF after CAPTURE and SWAP of a frame,
it fails for the same frame with one byte changed: any byte of a push frame, any byte but byte 0 of a query frame. -/
def Obligations.SingleByteErrorsAreDetected : Prop :=
  (∀ (b c : Memory) (w : List Byte) (i : Nat) (x : Byte), b.wf = true → c.wf = true → w.length = 24 ∨ w.length = 32 →
    checksumOk .push w.length (swapBuf .push w.length (b.writeList 0 w)) = true → i < w.length → x ≠ w.getD i 0 →
    checksumOk .push w.length (swapBuf .push w.length (c.writeList 0 (w.set i x))) = false) ∧
  (∀ (b c : Memory) (w : List Byte) (i : Nat) (x : Byte), b.wf = true → c.wf = true → w.length = 9 →
    checksumOk .query 9 (swapBuf .query 9 (b.writeList 0 w)) = true → 1 ≤ i → i < 9 → x ≠ w.getD i 0 →
    checksumOk .query 9 (swapBuf .query 9 (c.writeList 0 (w.set i x))) = false)

end
end

