-- ==== Sys2Proof/Laws/State.lean ====
section
/-! SUPPORT. For each update of the state, each field after it, true by definition: later proofs need unfold no update. -/

namespace Sys2Proof.Machine

/-! ## single updates -/

@[simp] theorem State.goto_variant (s : State) (p : Phase) : (s.goto p).variant = s.variant := rfl
@[simp] theorem State.goto_mode (s : State) (p : Phase) : (s.goto p).mode = s.mode := rfl
@[simp] theorem State.goto_fs (s : State) (p : Phase) : (s.goto p).fs = s.fs := rfl
@[simp] theorem State.goto_phase (s : State) (p : Phase) : (s.goto p).phase = p := rfl
@[simp] theorem State.goto_pm1_0 (s : State) (p : Phase) : (s.goto p).pm1_0 = s.pm1_0 := rfl
@[simp] theorem State.goto_pm2_5 (s : State) (p : Phase) : (s.goto p).pm2_5 = s.pm2_5 := rfl
@[simp] theorem State.goto_pm10 (s : State) (p : Phase) : (s.goto p).pm10 = s.pm10 := rfl
@[simp] theorem State.goto_buf (s : State) (p : Phase) : (s.goto p).buf = s.buf := rfl
@[simp] theorem State.goto_status (s : State) (p : Phase) : (s.goto p).status = s.status := rfl
@[simp] theorem State.goto_errkind (s : State) (p : Phase) : (s.goto p).errkind = s.errkind := rfl
@[simp] theorem State.goto_data (s : State) (p : Phase) : (s.goto p).data = s.data := rfl
@[simp] theorem State.goto_rxq (s : State) (p : Phase) : (s.goto p).rxq = s.rxq := rfl
@[simp] theorem State.goto_txq (s : State) (p : Phase) : (s.goto p).txq = s.txq := rfl
@[simp] theorem State.goto_txlog (s : State) (p : Phase) : (s.goto p).txlog = s.txlog := rfl
@[simp] theorem State.goto_rxto (s : State) (p : Phase) : (s.goto p).rxto = s.rxto := rfl
@[simp] theorem State.goto_act (s : State) (p : Phase) : (s.goto p).act = s.act := rfl
@[simp] theorem State.goto_point (s : State) (p : Phase) : (s.goto p).point = s.point := rfl
@[simp] theorem State.goto_found (s : State) (p : Phase) : (s.goto p).found = s.found := rfl
@[simp] theorem State.goto_ackCount (s : State) (p : Phase) : (s.goto p).ackCount = s.ackCount := rfl
@[simp] theorem State.goto_cmd1 (s : State) (p : Phase) : (s.goto p).cmd1 = s.cmd1 := rfl
@[simp] theorem State.goto_cmd2 (s : State) (p : Phase) : (s.goto p).cmd2 = s.cmd2 := rfl
@[simp] theorem State.goto_flushCount (s : State) (p : Phase) : (s.goto p).flushCount = s.flushCount := rfl
@[simp] theorem State.goto_lmWritten (s : State) (p : Phase) : (s.goto p).lmWritten = s.lmWritten := rfl
@[simp] theorem State.goto_draws (s : State) (p : Phase) : (s.goto p).draws = s.draws := rfl
@[simp] theorem State.goto_inputs (s : State) (p : Phase) : (s.goto p).inputs = s.inputs := rfl
@[simp] theorem State.goto_line (s : State) (p : Phase) : (s.goto p).line = s.line := rfl

/-! ## another place of the same phase -/

@[simp] theorem State.atPoint_variant (s : State) (p : Point) : (s.atPoint p).variant = s.variant := rfl
@[simp] theorem State.atPoint_mode (s : State) (p : Point) : (s.atPoint p).mode = s.mode := rfl
@[simp] theorem State.atPoint_fs (s : State) (p : Point) : (s.atPoint p).fs = s.fs := rfl
@[simp] theorem State.atPoint_phase (s : State) (p : Point) : (s.atPoint p).phase = s.phase := rfl
@[simp] theorem State.atPoint_pm1_0 (s : State) (p : Point) : (s.atPoint p).pm1_0 = s.pm1_0 := rfl
@[simp] theorem State.atPoint_pm2_5 (s : State) (p : Point) : (s.atPoint p).pm2_5 = s.pm2_5 := rfl
@[simp] theorem State.atPoint_pm10 (s : State) (p : Point) : (s.atPoint p).pm10 = s.pm10 := rfl
@[simp] theorem State.atPoint_buf (s : State) (p : Point) : (s.atPoint p).buf = s.buf := rfl
@[simp] theorem State.atPoint_status (s : State) (p : Point) : (s.atPoint p).status = s.status := rfl
@[simp] theorem State.atPoint_errkind (s : State) (p : Point) : (s.atPoint p).errkind = s.errkind := rfl
@[simp] theorem State.atPoint_data (s : State) (p : Point) : (s.atPoint p).data = s.data := rfl
@[simp] theorem State.atPoint_rxq (s : State) (p : Point) : (s.atPoint p).rxq = s.rxq := rfl
@[simp] theorem State.atPoint_txq (s : State) (p : Point) : (s.atPoint p).txq = s.txq := rfl
@[simp] theorem State.atPoint_txlog (s : State) (p : Point) : (s.atPoint p).txlog = s.txlog := rfl
@[simp] theorem State.atPoint_rxto (s : State) (p : Point) : (s.atPoint p).rxto = s.rxto := rfl
@[simp] theorem State.atPoint_act (s : State) (p : Point) : (s.atPoint p).act = s.act := rfl
@[simp] theorem State.atPoint_point (s : State) (p : Point) : (s.atPoint p).point = p := rfl
@[simp] theorem State.atPoint_found (s : State) (p : Point) : (s.atPoint p).found = s.found := rfl
@[simp] theorem State.atPoint_ackCount (s : State) (p : Point) : (s.atPoint p).ackCount = s.ackCount := rfl
@[simp] theorem State.atPoint_cmd1 (s : State) (p : Point) : (s.atPoint p).cmd1 = s.cmd1 := rfl
@[simp] theorem State.atPoint_cmd2 (s : State) (p : Point) : (s.atPoint p).cmd2 = s.cmd2 := rfl
@[simp] theorem State.atPoint_flushCount (s : State) (p : Point) : (s.atPoint p).flushCount = s.flushCount := rfl
@[simp] theorem State.atPoint_lmWritten (s : State) (p : Point) : (s.atPoint p).lmWritten = s.lmWritten := rfl
@[simp] theorem State.atPoint_draws (s : State) (p : Point) : (s.atPoint p).draws = s.draws := rfl
@[simp] theorem State.atPoint_inputs (s : State) (p : Point) : (s.atPoint p).inputs = s.inputs := rfl
@[simp] theorem State.atPoint_line (s : State) (p : Point) : (s.atPoint p).line = s.line := rfl

/-! ## RXQ replaced (R33) -/

@[simp] theorem State.withRxq_variant (s : State) (q : List Byte) : (s.withRxq q).variant = s.variant := rfl
@[simp] theorem State.withRxq_mode (s : State) (q : List Byte) : (s.withRxq q).mode = s.mode := rfl
@[simp] theorem State.withRxq_fs (s : State) (q : List Byte) : (s.withRxq q).fs = s.fs := rfl
@[simp] theorem State.withRxq_phase (s : State) (q : List Byte) : (s.withRxq q).phase = s.phase := rfl
@[simp] theorem State.withRxq_pm1_0 (s : State) (q : List Byte) : (s.withRxq q).pm1_0 = s.pm1_0 := rfl
@[simp] theorem State.withRxq_pm2_5 (s : State) (q : List Byte) : (s.withRxq q).pm2_5 = s.pm2_5 := rfl
@[simp] theorem State.withRxq_pm10 (s : State) (q : List Byte) : (s.withRxq q).pm10 = s.pm10 := rfl
@[simp] theorem State.withRxq_buf (s : State) (q : List Byte) : (s.withRxq q).buf = s.buf := rfl
@[simp] theorem State.withRxq_status (s : State) (q : List Byte) : (s.withRxq q).status = s.status := rfl
@[simp] theorem State.withRxq_errkind (s : State) (q : List Byte) : (s.withRxq q).errkind = s.errkind := rfl
@[simp] theorem State.withRxq_data (s : State) (q : List Byte) : (s.withRxq q).data = s.data := rfl
@[simp] theorem State.withRxq_rxq (s : State) (q : List Byte) : (s.withRxq q).rxq = q := rfl
@[simp] theorem State.withRxq_txq (s : State) (q : List Byte) : (s.withRxq q).txq = s.txq := rfl
@[simp] theorem State.withRxq_txlog (s : State) (q : List Byte) : (s.withRxq q).txlog = s.txlog := rfl
@[simp] theorem State.withRxq_rxto (s : State) (q : List Byte) : (s.withRxq q).rxto = s.rxto := rfl
@[simp] theorem State.withRxq_act (s : State) (q : List Byte) : (s.withRxq q).act = s.act := rfl
@[simp] theorem State.withRxq_point (s : State) (q : List Byte) : (s.withRxq q).point = s.point := rfl
@[simp] theorem State.withRxq_found (s : State) (q : List Byte) : (s.withRxq q).found = s.found := rfl
@[simp] theorem State.withRxq_ackCount (s : State) (q : List Byte) : (s.withRxq q).ackCount = s.ackCount := rfl
@[simp] theorem State.withRxq_cmd1 (s : State) (q : List Byte) : (s.withRxq q).cmd1 = s.cmd1 := rfl
@[simp] theorem State.withRxq_cmd2 (s : State) (q : List Byte) : (s.withRxq q).cmd2 = s.cmd2 := rfl
@[simp] theorem State.withRxq_flushCount (s : State) (q : List Byte) : (s.withRxq q).flushCount = s.flushCount := rfl
@[simp] theorem State.withRxq_lmWritten (s : State) (q : List Byte) : (s.withRxq q).lmWritten = s.lmWritten := rfl
@[simp] theorem State.withRxq_draws (s : State) (q : List Byte) : (s.withRxq q).draws = s.draws := rfl
@[simp] theorem State.withRxq_inputs (s : State) (q : List Byte) : (s.withRxq q).inputs = s.inputs := rfl
@[simp] theorem State.withRxq_line (s : State) (q : List Byte) : (s.withRxq q).line = s.line := rfl

/-! ## TXQ replaced (R35) -/

@[simp] theorem State.withTxq_variant (s : State) (q : List Byte) : (s.withTxq q).variant = s.variant := rfl
@[simp] theorem State.withTxq_mode (s : State) (q : List Byte) : (s.withTxq q).mode = s.mode := rfl
@[simp] theorem State.withTxq_fs (s : State) (q : List Byte) : (s.withTxq q).fs = s.fs := rfl
@[simp] theorem State.withTxq_phase (s : State) (q : List Byte) : (s.withTxq q).phase = s.phase := rfl
@[simp] theorem State.withTxq_pm1_0 (s : State) (q : List Byte) : (s.withTxq q).pm1_0 = s.pm1_0 := rfl
@[simp] theorem State.withTxq_pm2_5 (s : State) (q : List Byte) : (s.withTxq q).pm2_5 = s.pm2_5 := rfl
@[simp] theorem State.withTxq_pm10 (s : State) (q : List Byte) : (s.withTxq q).pm10 = s.pm10 := rfl
@[simp] theorem State.withTxq_buf (s : State) (q : List Byte) : (s.withTxq q).buf = s.buf := rfl
@[simp] theorem State.withTxq_status (s : State) (q : List Byte) : (s.withTxq q).status = s.status := rfl
@[simp] theorem State.withTxq_errkind (s : State) (q : List Byte) : (s.withTxq q).errkind = s.errkind := rfl
@[simp] theorem State.withTxq_data (s : State) (q : List Byte) : (s.withTxq q).data = s.data := rfl
@[simp] theorem State.withTxq_rxq (s : State) (q : List Byte) : (s.withTxq q).rxq = s.rxq := rfl
@[simp] theorem State.withTxq_txq (s : State) (q : List Byte) : (s.withTxq q).txq = q := rfl
@[simp] theorem State.withTxq_txlog (s : State) (q : List Byte) : (s.withTxq q).txlog = s.txlog := rfl
@[simp] theorem State.withTxq_rxto (s : State) (q : List Byte) : (s.withTxq q).rxto = s.rxto := rfl
@[simp] theorem State.withTxq_act (s : State) (q : List Byte) : (s.withTxq q).act = s.act := rfl
@[simp] theorem State.withTxq_point (s : State) (q : List Byte) : (s.withTxq q).point = s.point := rfl
@[simp] theorem State.withTxq_found (s : State) (q : List Byte) : (s.withTxq q).found = s.found := rfl
@[simp] theorem State.withTxq_ackCount (s : State) (q : List Byte) : (s.withTxq q).ackCount = s.ackCount := rfl
@[simp] theorem State.withTxq_cmd1 (s : State) (q : List Byte) : (s.withTxq q).cmd1 = s.cmd1 := rfl
@[simp] theorem State.withTxq_cmd2 (s : State) (q : List Byte) : (s.withTxq q).cmd2 = s.cmd2 := rfl
@[simp] theorem State.withTxq_flushCount (s : State) (q : List Byte) : (s.withTxq q).flushCount = s.flushCount := rfl
@[simp] theorem State.withTxq_lmWritten (s : State) (q : List Byte) : (s.withTxq q).lmWritten = s.lmWritten := rfl
@[simp] theorem State.withTxq_draws (s : State) (q : List Byte) : (s.withTxq q).draws = s.draws := rfl
@[simp] theorem State.withTxq_inputs (s : State) (q : List Byte) : (s.withTxq q).inputs = s.inputs := rfl
@[simp] theorem State.withTxq_line (s : State) (q : List Byte) : (s.withTxq q).line = s.line := rfl

/-! ## SYNC over (R83) -/

@[simp] theorem State.sought_variant (s : State) (f : Bool) : (s.sought f).variant = s.variant := rfl
@[simp] theorem State.sought_mode (s : State) (f : Bool) : (s.sought f).mode = s.mode := rfl
@[simp] theorem State.sought_fs (s : State) (f : Bool) : (s.sought f).fs = s.fs := rfl
@[simp] theorem State.sought_phase (s : State) (f : Bool) : (s.sought f).phase = .lenchk := rfl
@[simp] theorem State.sought_pm1_0 (s : State) (f : Bool) : (s.sought f).pm1_0 = s.pm1_0 := rfl
@[simp] theorem State.sought_pm2_5 (s : State) (f : Bool) : (s.sought f).pm2_5 = s.pm2_5 := rfl
@[simp] theorem State.sought_pm10 (s : State) (f : Bool) : (s.sought f).pm10 = s.pm10 := rfl
@[simp] theorem State.sought_buf (s : State) (f : Bool) : (s.sought f).buf = s.buf := rfl
@[simp] theorem State.sought_status (s : State) (f : Bool) : (s.sought f).status = s.status := rfl
@[simp] theorem State.sought_errkind (s : State) (f : Bool) : (s.sought f).errkind = s.errkind := rfl
@[simp] theorem State.sought_data (s : State) (f : Bool) : (s.sought f).data = s.data := rfl
@[simp] theorem State.sought_rxq (s : State) (f : Bool) : (s.sought f).rxq = s.rxq := rfl
@[simp] theorem State.sought_txq (s : State) (f : Bool) : (s.sought f).txq = s.txq := rfl
@[simp] theorem State.sought_txlog (s : State) (f : Bool) : (s.sought f).txlog = s.txlog := rfl
@[simp] theorem State.sought_rxto (s : State) (f : Bool) : (s.sought f).rxto = s.rxto := rfl
@[simp] theorem State.sought_act (s : State) (f : Bool) : (s.sought f).act = s.act := rfl
@[simp] theorem State.sought_point (s : State) (f : Bool) : (s.sought f).point = s.point := rfl
@[simp] theorem State.sought_found (s : State) (f : Bool) : (s.sought f).found = f := rfl
@[simp] theorem State.sought_ackCount (s : State) (f : Bool) : (s.sought f).ackCount = s.ackCount := rfl
@[simp] theorem State.sought_cmd1 (s : State) (f : Bool) : (s.sought f).cmd1 = s.cmd1 := rfl
@[simp] theorem State.sought_cmd2 (s : State) (f : Bool) : (s.sought f).cmd2 = s.cmd2 := rfl
@[simp] theorem State.sought_flushCount (s : State) (f : Bool) : (s.sought f).flushCount = s.flushCount := rfl
@[simp] theorem State.sought_lmWritten (s : State) (f : Bool) : (s.sought f).lmWritten = s.lmWritten := rfl
@[simp] theorem State.sought_draws (s : State) (f : Bool) : (s.sought f).draws = s.draws := rfl
@[simp] theorem State.sought_inputs (s : State) (f : Bool) : (s.sought f).inputs = s.inputs := rfl
@[simp] theorem State.sought_line (s : State) (f : Bool) : (s.sought f).line = s.line := rfl

/-! ## RxArrive (R39) -/

@[simp] theorem State.arrive_variant (s : State) (bs : List Byte) : (s.arrive bs).variant = s.variant := rfl
@[simp] theorem State.arrive_mode (s : State) (bs : List Byte) : (s.arrive bs).mode = s.mode := rfl
@[simp] theorem State.arrive_fs (s : State) (bs : List Byte) : (s.arrive bs).fs = s.fs := rfl
@[simp] theorem State.arrive_phase (s : State) (bs : List Byte) : (s.arrive bs).phase = s.phase := rfl
@[simp] theorem State.arrive_pm1_0 (s : State) (bs : List Byte) : (s.arrive bs).pm1_0 = s.pm1_0 := rfl
@[simp] theorem State.arrive_pm2_5 (s : State) (bs : List Byte) : (s.arrive bs).pm2_5 = s.pm2_5 := rfl
@[simp] theorem State.arrive_pm10 (s : State) (bs : List Byte) : (s.arrive bs).pm10 = s.pm10 := rfl
@[simp] theorem State.arrive_buf (s : State) (bs : List Byte) : (s.arrive bs).buf = s.buf := rfl
@[simp] theorem State.arrive_status (s : State) (bs : List Byte) : (s.arrive bs).status = s.status := rfl
@[simp] theorem State.arrive_errkind (s : State) (bs : List Byte) : (s.arrive bs).errkind = s.errkind := rfl
@[simp] theorem State.arrive_data (s : State) (bs : List Byte) : (s.arrive bs).data = s.data := rfl
@[simp] theorem State.arrive_rxq (s : State) (bs : List Byte) : (s.arrive bs).rxq = s.rxq ++ bs := rfl
@[simp] theorem State.arrive_txq (s : State) (bs : List Byte) : (s.arrive bs).txq = s.txq := rfl
@[simp] theorem State.arrive_txlog (s : State) (bs : List Byte) : (s.arrive bs).txlog = s.txlog := rfl
@[simp] theorem State.arrive_rxto (s : State) (bs : List Byte) : (s.arrive bs).rxto = s.rxto := rfl
@[simp] theorem State.arrive_act (s : State) (bs : List Byte) : (s.arrive bs).act = s.act := rfl
@[simp] theorem State.arrive_point (s : State) (bs : List Byte) : (s.arrive bs).point = s.point := rfl
@[simp] theorem State.arrive_found (s : State) (bs : List Byte) : (s.arrive bs).found = s.found := rfl
@[simp] theorem State.arrive_ackCount (s : State) (bs : List Byte) : (s.arrive bs).ackCount = s.ackCount := rfl
@[simp] theorem State.arrive_cmd1 (s : State) (bs : List Byte) : (s.arrive bs).cmd1 = s.cmd1 := rfl
@[simp] theorem State.arrive_cmd2 (s : State) (bs : List Byte) : (s.arrive bs).cmd2 = s.cmd2 := rfl
@[simp] theorem State.arrive_flushCount (s : State) (bs : List Byte) : (s.arrive bs).flushCount = s.flushCount := rfl
@[simp] theorem State.arrive_lmWritten (s : State) (bs : List Byte) : (s.arrive bs).lmWritten = s.lmWritten := rfl
@[simp] theorem State.arrive_draws (s : State) (bs : List Byte) : (s.arrive bs).draws = s.draws := rfl
@[simp] theorem State.arrive_inputs (s : State) (bs : List Byte) : (s.arrive bs).inputs = s.inputs := rfl
@[simp] theorem State.arrive_line (s : State) (bs : List Byte) : (s.arrive bs).line = s.line := rfl

/-! ## any moves of the environment (R39) -/

@[simp] theorem State.moved_variant (s : State) (a : List Byte) (k : Nat) (r : List Input) : (s.moved a k r).variant = s.variant := rfl
@[simp] theorem State.moved_mode (s : State) (a : List Byte) (k : Nat) (r : List Input) : (s.moved a k r).mode = s.mode := rfl
@[simp] theorem State.moved_fs (s : State) (a : List Byte) (k : Nat) (r : List Input) : (s.moved a k r).fs = s.fs := rfl
@[simp] theorem State.moved_phase (s : State) (a : List Byte) (k : Nat) (r : List Input) : (s.moved a k r).phase = s.phase := rfl
@[simp] theorem State.moved_pm1_0 (s : State) (a : List Byte) (k : Nat) (r : List Input) : (s.moved a k r).pm1_0 = s.pm1_0 := rfl
@[simp] theorem State.moved_pm2_5 (s : State) (a : List Byte) (k : Nat) (r : List Input) : (s.moved a k r).pm2_5 = s.pm2_5 := rfl
@[simp] theorem State.moved_pm10 (s : State) (a : List Byte) (k : Nat) (r : List Input) : (s.moved a k r).pm10 = s.pm10 := rfl
@[simp] theorem State.moved_buf (s : State) (a : List Byte) (k : Nat) (r : List Input) : (s.moved a k r).buf = s.buf := rfl
@[simp] theorem State.moved_status (s : State) (a : List Byte) (k : Nat) (r : List Input) : (s.moved a k r).status = s.status := rfl
@[simp] theorem State.moved_errkind (s : State) (a : List Byte) (k : Nat) (r : List Input) : (s.moved a k r).errkind = s.errkind := rfl
@[simp] theorem State.moved_data (s : State) (a : List Byte) (k : Nat) (r : List Input) : (s.moved a k r).data = s.data := rfl
@[simp] theorem State.moved_rxq (s : State) (a : List Byte) (k : Nat) (r : List Input) : (s.moved a k r).rxq = s.rxq ++ a := rfl
@[simp] theorem State.moved_txq (s : State) (a : List Byte) (k : Nat) (r : List Input) : (s.moved a k r).txq = s.txq.drop k := rfl
@[simp] theorem State.moved_txlog (s : State) (a : List Byte) (k : Nat) (r : List Input) : (s.moved a k r).txlog = s.txlog ++ s.txq.take k := rfl
@[simp] theorem State.moved_rxto (s : State) (a : List Byte) (k : Nat) (r : List Input) : (s.moved a k r).rxto = s.rxto := rfl
@[simp] theorem State.moved_act (s : State) (a : List Byte) (k : Nat) (r : List Input) : (s.moved a k r).act = s.act := rfl
@[simp] theorem State.moved_point (s : State) (a : List Byte) (k : Nat) (r : List Input) : (s.moved a k r).point = s.point := rfl
@[simp] theorem State.moved_found (s : State) (a : List Byte) (k : Nat) (r : List Input) : (s.moved a k r).found = s.found := rfl
@[simp] theorem State.moved_ackCount (s : State) (a : List Byte) (k : Nat) (r : List Input) : (s.moved a k r).ackCount = s.ackCount := rfl
@[simp] theorem State.moved_cmd1 (s : State) (a : List Byte) (k : Nat) (r : List Input) : (s.moved a k r).cmd1 = s.cmd1 := rfl
@[simp] theorem State.moved_cmd2 (s : State) (a : List Byte) (k : Nat) (r : List Input) : (s.moved a k r).cmd2 = s.cmd2 := rfl
@[simp] theorem State.moved_flushCount (s : State) (a : List Byte) (k : Nat) (r : List Input) : (s.moved a k r).flushCount = s.flushCount := rfl
@[simp] theorem State.moved_lmWritten (s : State) (a : List Byte) (k : Nat) (r : List Input) : (s.moved a k r).lmWritten = s.lmWritten := rfl
@[simp] theorem State.moved_draws (s : State) (a : List Byte) (k : Nat) (r : List Input) : (s.moved a k r).draws = s.draws := rfl
@[simp] theorem State.moved_inputs (s : State) (a : List Byte) (k : Nat) (r : List Input) : (s.moved a k r).inputs = r := rfl
@[simp] theorem State.moved_line (s : State) (a : List Byte) (k : Nat) (r : List Input) : (s.moved a k r).line = s.line := rfl

/-! ## the end of an operation (R156) -/

@[simp] theorem State.leave_variant (s : State) : (s.leave).variant = s.variant := rfl
@[simp] theorem State.leave_mode (s : State) : (s.leave).mode = s.mode := rfl
@[simp] theorem State.leave_fs (s : State) : (s.leave).fs = s.fs := rfl
@[simp] theorem State.leave_phase (s : State) : (s.leave).phase = .idle := rfl
@[simp] theorem State.leave_pm1_0 (s : State) : (s.leave).pm1_0 = s.pm1_0 := rfl
@[simp] theorem State.leave_pm2_5 (s : State) : (s.leave).pm2_5 = s.pm2_5 := rfl
@[simp] theorem State.leave_pm10 (s : State) : (s.leave).pm10 = s.pm10 := rfl
@[simp] theorem State.leave_buf (s : State) : (s.leave).buf = s.buf := rfl
@[simp] theorem State.leave_status (s : State) : (s.leave).status = s.status := rfl
@[simp] theorem State.leave_errkind (s : State) : (s.leave).errkind = s.errkind := rfl
@[simp] theorem State.leave_data (s : State) : (s.leave).data = s.data := rfl
@[simp] theorem State.leave_rxq (s : State) : (s.leave).rxq = s.rxq := rfl
@[simp] theorem State.leave_txq (s : State) : (s.leave).txq = s.txq := rfl
@[simp] theorem State.leave_txlog (s : State) : (s.leave).txlog = s.txlog := rfl
@[simp] theorem State.leave_rxto (s : State) : (s.leave).rxto = s.rxto := rfl
@[simp] theorem State.leave_act (s : State) : (s.leave).act = .none := rfl
@[simp] theorem State.leave_point (s : State) : (s.leave).point = .start := rfl
@[simp] theorem State.leave_found (s : State) : (s.leave).found = false := rfl
@[simp] theorem State.leave_ackCount (s : State) : (s.leave).ackCount = 0 := rfl
@[simp] theorem State.leave_cmd1 (s : State) : (s.leave).cmd1 = 0 := rfl
@[simp] theorem State.leave_cmd2 (s : State) : (s.leave).cmd2 = 0 := rfl
@[simp] theorem State.leave_flushCount (s : State) : (s.leave).flushCount = s.flushCount := rfl
@[simp] theorem State.leave_lmWritten (s : State) : (s.leave).lmWritten = s.lmWritten := rfl
@[simp] theorem State.leave_draws (s : State) : (s.leave).draws = s.draws := rfl
@[simp] theorem State.leave_inputs (s : State) : (s.leave).inputs = s.inputs := rfl
@[simp] theorem State.leave_line (s : State) : (s.leave).line = s.line := rfl

/-! ## return ok (R19) -/

@[simp] theorem State.done_variant (s : State) (d : Half) : (s.done d).variant = s.variant := rfl
@[simp] theorem State.done_mode (s : State) (d : Half) : (s.done d).mode = s.mode := rfl
@[simp] theorem State.done_fs (s : State) (d : Half) : (s.done d).fs = s.fs := rfl
@[simp] theorem State.done_phase (s : State) (d : Half) : (s.done d).phase = .idle := rfl
@[simp] theorem State.done_pm1_0 (s : State) (d : Half) : (s.done d).pm1_0 = s.pm1_0 := rfl
@[simp] theorem State.done_pm2_5 (s : State) (d : Half) : (s.done d).pm2_5 = s.pm2_5 := rfl
@[simp] theorem State.done_pm10 (s : State) (d : Half) : (s.done d).pm10 = s.pm10 := rfl
@[simp] theorem State.done_buf (s : State) (d : Half) : (s.done d).buf = s.buf := rfl
@[simp] theorem State.done_status (s : State) (d : Half) : (s.done d).status = true := rfl
@[simp] theorem State.done_errkind (s : State) (d : Half) : (s.done d).errkind = .none := rfl
@[simp] theorem State.done_data (s : State) (d : Half) : (s.done d).data = d := rfl
@[simp] theorem State.done_rxq (s : State) (d : Half) : (s.done d).rxq = s.rxq := rfl
@[simp] theorem State.done_txq (s : State) (d : Half) : (s.done d).txq = s.txq := rfl
@[simp] theorem State.done_txlog (s : State) (d : Half) : (s.done d).txlog = s.txlog := rfl
@[simp] theorem State.done_rxto (s : State) (d : Half) : (s.done d).rxto = s.rxto := rfl
@[simp] theorem State.done_act (s : State) (d : Half) : (s.done d).act = .none := rfl
@[simp] theorem State.done_point (s : State) (d : Half) : (s.done d).point = .start := rfl
@[simp] theorem State.done_found (s : State) (d : Half) : (s.done d).found = false := rfl
@[simp] theorem State.done_ackCount (s : State) (d : Half) : (s.done d).ackCount = 0 := rfl
@[simp] theorem State.done_cmd1 (s : State) (d : Half) : (s.done d).cmd1 = 0 := rfl
@[simp] theorem State.done_cmd2 (s : State) (d : Half) : (s.done d).cmd2 = 0 := rfl
@[simp] theorem State.done_flushCount (s : State) (d : Half) : (s.done d).flushCount = s.flushCount := rfl
@[simp] theorem State.done_lmWritten (s : State) (d : Half) : (s.done d).lmWritten = s.lmWritten := rfl
@[simp] theorem State.done_draws (s : State) (d : Half) : (s.done d).draws = s.draws := rfl
@[simp] theorem State.done_inputs (s : State) (d : Half) : (s.done d).inputs = s.inputs := rfl
@[simp] theorem State.done_line (s : State) (d : Half) : (s.done d).line = s.line := rfl

/-! ## raise Fail (R153) -/

@[simp] theorem State.fail_variant (s : State) (k : ErrKind) : (s.fail k).variant = s.variant := rfl
@[simp] theorem State.fail_mode (s : State) (k : ErrKind) : (s.fail k).mode = s.mode := rfl
@[simp] theorem State.fail_fs (s : State) (k : ErrKind) : (s.fail k).fs = s.fs := rfl
@[simp] theorem State.fail_phase (s : State) (k : ErrKind) : (s.fail k).phase = .idle := rfl
@[simp] theorem State.fail_pm1_0 (s : State) (k : ErrKind) : (s.fail k).pm1_0 = s.pm1_0 := rfl
@[simp] theorem State.fail_pm2_5 (s : State) (k : ErrKind) : (s.fail k).pm2_5 = s.pm2_5 := rfl
@[simp] theorem State.fail_pm10 (s : State) (k : ErrKind) : (s.fail k).pm10 = s.pm10 := rfl
@[simp] theorem State.fail_buf (s : State) (k : ErrKind) : (s.fail k).buf = s.buf := rfl
@[simp] theorem State.fail_status (s : State) (k : ErrKind) : (s.fail k).status = false := rfl
@[simp] theorem State.fail_errkind (s : State) (k : ErrKind) : (s.fail k).errkind = k := rfl
@[simp] theorem State.fail_data (s : State) (k : ErrKind) : (s.fail k).data = 0 := rfl
@[simp] theorem State.fail_rxq (s : State) (k : ErrKind) : (s.fail k).rxq = s.rxq := rfl
@[simp] theorem State.fail_txq (s : State) (k : ErrKind) : (s.fail k).txq = s.txq := rfl
@[simp] theorem State.fail_txlog (s : State) (k : ErrKind) : (s.fail k).txlog = s.txlog := rfl
@[simp] theorem State.fail_rxto (s : State) (k : ErrKind) : (s.fail k).rxto = s.rxto := rfl
@[simp] theorem State.fail_act (s : State) (k : ErrKind) : (s.fail k).act = .none := rfl
@[simp] theorem State.fail_point (s : State) (k : ErrKind) : (s.fail k).point = .start := rfl
@[simp] theorem State.fail_found (s : State) (k : ErrKind) : (s.fail k).found = false := rfl
@[simp] theorem State.fail_ackCount (s : State) (k : ErrKind) : (s.fail k).ackCount = 0 := rfl
@[simp] theorem State.fail_cmd1 (s : State) (k : ErrKind) : (s.fail k).cmd1 = 0 := rfl
@[simp] theorem State.fail_cmd2 (s : State) (k : ErrKind) : (s.fail k).cmd2 = 0 := rfl
@[simp] theorem State.fail_flushCount (s : State) (k : ErrKind) : (s.fail k).flushCount = s.flushCount := rfl
@[simp] theorem State.fail_lmWritten (s : State) (k : ErrKind) : (s.fail k).lmWritten = s.lmWritten := rfl
@[simp] theorem State.fail_draws (s : State) (k : ErrKind) : (s.fail k).draws = s.draws := rfl
@[simp] theorem State.fail_inputs (s : State) (k : ErrKind) : (s.fail k).inputs = s.inputs := rfl
@[simp] theorem State.fail_line (s : State) (k : ErrKind) : (s.fail k).line = s.line := rfl

/-! ## entering SENDCMD (R140) -/

@[simp] theorem State.beginSend_variant (s : State) (a : Activity) (c : CommandBytes) : (s.beginSend a c).variant = s.variant := rfl
@[simp] theorem State.beginSend_mode (s : State) (a : Activity) (c : CommandBytes) : (s.beginSend a c).mode = s.mode := rfl
@[simp] theorem State.beginSend_fs (s : State) (a : Activity) (c : CommandBytes) : (s.beginSend a c).fs = s.fs := rfl
@[simp] theorem State.beginSend_phase (s : State) (a : Activity) (c : CommandBytes) : (s.beginSend a c).phase = (if a = .readdata then .qreq else .cmdtx) := rfl
@[simp] theorem State.beginSend_pm1_0 (s : State) (a : Activity) (c : CommandBytes) : (s.beginSend a c).pm1_0 = s.pm1_0 := rfl
@[simp] theorem State.beginSend_pm2_5 (s : State) (a : Activity) (c : CommandBytes) : (s.beginSend a c).pm2_5 = s.pm2_5 := rfl
@[simp] theorem State.beginSend_pm10 (s : State) (a : Activity) (c : CommandBytes) : (s.beginSend a c).pm10 = s.pm10 := rfl
@[simp] theorem State.beginSend_buf (s : State) (a : Activity) (c : CommandBytes) : (s.beginSend a c).buf = s.buf := rfl
@[simp] theorem State.beginSend_status (s : State) (a : Activity) (c : CommandBytes) : (s.beginSend a c).status = s.status := rfl
@[simp] theorem State.beginSend_errkind (s : State) (a : Activity) (c : CommandBytes) : (s.beginSend a c).errkind = s.errkind := rfl
@[simp] theorem State.beginSend_data (s : State) (a : Activity) (c : CommandBytes) : (s.beginSend a c).data = s.data := rfl
@[simp] theorem State.beginSend_rxq (s : State) (a : Activity) (c : CommandBytes) : (s.beginSend a c).rxq = s.rxq := rfl
@[simp] theorem State.beginSend_txq (s : State) (a : Activity) (c : CommandBytes) : (s.beginSend a c).txq = s.txq := rfl
@[simp] theorem State.beginSend_txlog (s : State) (a : Activity) (c : CommandBytes) : (s.beginSend a c).txlog = s.txlog := rfl
@[simp] theorem State.beginSend_rxto (s : State) (a : Activity) (c : CommandBytes) : (s.beginSend a c).rxto = s.rxto := rfl
@[simp] theorem State.beginSend_act (s : State) (a : Activity) (c : CommandBytes) : (s.beginSend a c).act = a := rfl
@[simp] theorem State.beginSend_point (s : State) (a : Activity) (c : CommandBytes) : (s.beginSend a c).point = .flushBefore := rfl
@[simp] theorem State.beginSend_found (s : State) (a : Activity) (c : CommandBytes) : (s.beginSend a c).found = false := rfl
@[simp] theorem State.beginSend_ackCount (s : State) (a : Activity) (c : CommandBytes) : (s.beginSend a c).ackCount = 0 := rfl
@[simp] theorem State.beginSend_cmd1 (s : State) (a : Activity) (c : CommandBytes) : (s.beginSend a c).cmd1 = c.c1 := rfl
@[simp] theorem State.beginSend_cmd2 (s : State) (a : Activity) (c : CommandBytes) : (s.beginSend a c).cmd2 = c.c2 := rfl
@[simp] theorem State.beginSend_flushCount (s : State) (a : Activity) (c : CommandBytes) : (s.beginSend a c).flushCount = s.flushCount := rfl
@[simp] theorem State.beginSend_lmWritten (s : State) (a : Activity) (c : CommandBytes) : (s.beginSend a c).lmWritten = s.lmWritten := rfl
@[simp] theorem State.beginSend_draws (s : State) (a : Activity) (c : CommandBytes) : (s.beginSend a c).draws = s.draws := rfl
@[simp] theorem State.beginSend_inputs (s : State) (a : Activity) (c : CommandBytes) : (s.beginSend a c).inputs = s.inputs := rfl
@[simp] theorem State.beginSend_line (s : State) (a : Activity) (c : CommandBytes) : (s.beginSend a c).line = s.line := rfl

/-! ## RXFLUSH's loop begins (R141) -/

@[simp] theorem State.startDrain_variant (s : State) : (s.startDrain).variant = s.variant := rfl
@[simp] theorem State.startDrain_mode (s : State) : (s.startDrain).mode = s.mode := rfl
@[simp] theorem State.startDrain_fs (s : State) : (s.startDrain).fs = s.fs := rfl
@[simp] theorem State.startDrain_phase (s : State) : (s.startDrain).phase = s.phase := rfl
@[simp] theorem State.startDrain_pm1_0 (s : State) : (s.startDrain).pm1_0 = s.pm1_0 := rfl
@[simp] theorem State.startDrain_pm2_5 (s : State) : (s.startDrain).pm2_5 = s.pm2_5 := rfl
@[simp] theorem State.startDrain_pm10 (s : State) : (s.startDrain).pm10 = s.pm10 := rfl
@[simp] theorem State.startDrain_buf (s : State) : (s.startDrain).buf = s.buf := rfl
@[simp] theorem State.startDrain_status (s : State) : (s.startDrain).status = s.status := rfl
@[simp] theorem State.startDrain_errkind (s : State) : (s.startDrain).errkind = s.errkind := rfl
@[simp] theorem State.startDrain_data (s : State) : (s.startDrain).data = s.data := rfl
@[simp] theorem State.startDrain_rxq (s : State) : (s.startDrain).rxq = s.rxq := rfl
@[simp] theorem State.startDrain_txq (s : State) : (s.startDrain).txq = s.txq := rfl
@[simp] theorem State.startDrain_txlog (s : State) : (s.startDrain).txlog = s.txlog := rfl
@[simp] theorem State.startDrain_rxto (s : State) : (s.startDrain).rxto = s.rxto := rfl
@[simp] theorem State.startDrain_act (s : State) : (s.startDrain).act = s.act := rfl
@[simp] theorem State.startDrain_point (s : State) : (s.startDrain).point = .drain := rfl
@[simp] theorem State.startDrain_found (s : State) : (s.startDrain).found = s.found := rfl
@[simp] theorem State.startDrain_ackCount (s : State) : (s.startDrain).ackCount = s.ackCount := rfl
@[simp] theorem State.startDrain_cmd1 (s : State) : (s.startDrain).cmd1 = s.cmd1 := rfl
@[simp] theorem State.startDrain_cmd2 (s : State) : (s.startDrain).cmd2 = s.cmd2 := rfl
@[simp] theorem State.startDrain_flushCount (s : State) : (s.startDrain).flushCount = 0 := rfl
@[simp] theorem State.startDrain_lmWritten (s : State) : (s.startDrain).lmWritten = s.lmWritten := rfl
@[simp] theorem State.startDrain_draws (s : State) : (s.startDrain).draws = s.draws := rfl
@[simp] theorem State.startDrain_inputs (s : State) : (s.startDrain).inputs = s.inputs := rfl
@[simp] theorem State.startDrain_line (s : State) : (s.startDrain).line = s.line := rfl

/-! ## RXFLUSH counts one byte (R141) -/

@[simp] theorem State.counted_variant (s : State) : (s.counted).variant = s.variant := rfl
@[simp] theorem State.counted_mode (s : State) : (s.counted).mode = s.mode := rfl
@[simp] theorem State.counted_fs (s : State) : (s.counted).fs = s.fs := rfl
@[simp] theorem State.counted_phase (s : State) : (s.counted).phase = s.phase := rfl
@[simp] theorem State.counted_pm1_0 (s : State) : (s.counted).pm1_0 = s.pm1_0 := rfl
@[simp] theorem State.counted_pm2_5 (s : State) : (s.counted).pm2_5 = s.pm2_5 := rfl
@[simp] theorem State.counted_pm10 (s : State) : (s.counted).pm10 = s.pm10 := rfl
@[simp] theorem State.counted_buf (s : State) : (s.counted).buf = s.buf := rfl
@[simp] theorem State.counted_status (s : State) : (s.counted).status = s.status := rfl
@[simp] theorem State.counted_errkind (s : State) : (s.counted).errkind = s.errkind := rfl
@[simp] theorem State.counted_data (s : State) : (s.counted).data = s.data := rfl
@[simp] theorem State.counted_rxq (s : State) : (s.counted).rxq = s.rxq := rfl
@[simp] theorem State.counted_txq (s : State) : (s.counted).txq = s.txq := rfl
@[simp] theorem State.counted_txlog (s : State) : (s.counted).txlog = s.txlog := rfl
@[simp] theorem State.counted_rxto (s : State) : (s.counted).rxto = s.rxto := rfl
@[simp] theorem State.counted_act (s : State) : (s.counted).act = s.act := rfl
@[simp] theorem State.counted_point (s : State) : (s.counted).point = s.point := rfl
@[simp] theorem State.counted_found (s : State) : (s.counted).found = s.found := rfl
@[simp] theorem State.counted_ackCount (s : State) : (s.counted).ackCount = s.ackCount := rfl
@[simp] theorem State.counted_cmd1 (s : State) : (s.counted).cmd1 = s.cmd1 := rfl
@[simp] theorem State.counted_cmd2 (s : State) : (s.counted).cmd2 = s.cmd2 := rfl
@[simp] theorem State.counted_flushCount (s : State) : (s.counted).flushCount = s.flushCount + 1 := rfl
@[simp] theorem State.counted_lmWritten (s : State) : (s.counted).lmWritten = s.lmWritten := rfl
@[simp] theorem State.counted_draws (s : State) : (s.counted).draws = s.draws := rfl
@[simp] theorem State.counted_inputs (s : State) : (s.counted).inputs = s.inputs := rfl
@[simp] theorem State.counted_line (s : State) : (s.counted).line = s.line := rfl

/-! ## reset (R23, R171) -/

@[simp] theorem State.resetWith_mode (v : Variant) : (State.resetWith v).mode = .push := rfl
@[simp] theorem State.resetWith_phase (v : Variant) : (State.resetWith v).phase = .idle := rfl
@[simp] theorem State.resetWith_rxto (v : Variant) : (State.resetWith v).rxto = 100 := rfl
@[simp] theorem State.resetWith_rxq (v : Variant) : (State.resetWith v).rxq = [] := rfl
@[simp] theorem State.resetWith_txq (v : Variant) : (State.resetWith v).txq = [] := rfl
@[simp] theorem State.resetWith_txlog (v : Variant) : (State.resetWith v).txlog = [] := rfl
@[simp] theorem State.resetWith_buf (v : Variant) : (State.resetWith v).buf = [] := rfl
@[simp] theorem State.resetWith_act (v : Variant) : (State.resetWith v).act = .none := rfl
@[simp] theorem State.resetWith_inputs (v : Variant) : (State.resetWith v).inputs = [] := rfl
@[simp] theorem State.resetWith_lmWritten (v : Variant) : (State.resetWith v).lmWritten = false := rfl
@[simp] theorem State.resetWith_variant (v : Variant) : (State.resetWith v).variant = v := rfl

/-- RESET(v) on a transport that holds nothing is the state after reset. -/
theorem State.construct_resetWith (v w : Variant) : State.construct v (State.resetWith w) = State.resetWith v := rfl

end Sys2Proof.Machine
end

