-- ==== Sys2Proof/Laws/Memory.lean ====
section
/-! SUPPORT. BUF's operations (spec/00_scope.md rule R6): what a byte reads as after a write, after a list of writes and after
SWAP's exchanges, and that every operation keeps the canonical form and stays inside the buffer. -/

namespace Sys2Proof.Machine

theorem Memory.wfFrom_mono {lo lo' : Nat} {m : Memory} (h : lo' ≤ lo) (hm : Memory.wfFrom lo m = true) :
    Memory.wfFrom lo' m = true := by
  cases m with
  | nil => rfl
  | cons c r =>
    obtain ⟨k, b⟩ := c
    simp only [Memory.wfFrom, Bool.and_eq_true, decide_eq_true_eq] at hm ⊢
    exact ⟨⟨by omega, hm.1.2⟩, hm.2⟩

/-- Below the first listed offset everything is blank. -/
theorem Memory.read_below {lo a : Nat} {m : Memory} (hm : Memory.wfFrom lo m = true) (h : a < lo) :
    Memory.read m a = bufBlank := by
  induction m generalizing lo with
  | nil => rfl
  | cons c r ih =>
    obtain ⟨k, b⟩ := c
    simp only [Memory.wfFrom, Bool.and_eq_true, decide_eq_true_eq] at hm
    have hk : k ≠ a := by omega
    simp only [Memory.read, hk, if_false]
    exact ih hm.2 (by omega)

theorem Memory.wfFrom_write {lo a : Nat} {m : Memory} (v : Byte) (hm : Memory.wfFrom lo m = true) (h : lo ≤ a) :
    Memory.wfFrom lo (Memory.write m a v) = true := by
  induction m generalizing lo with
  | nil => by_cases hv : v = bufBlank <;> simp [Memory.write, Memory.wfFrom, hv, h]
  | cons c r ih =>
    obtain ⟨k, b⟩ := c
    have hm' := hm
    simp only [Memory.wfFrom, Bool.and_eq_true, decide_eq_true_eq] at hm
    unfold Memory.write
    split
    · split
      · exact hm'
      · rename_i h1 h2
        simp only [Memory.wfFrom, Bool.and_eq_true, decide_eq_true_eq, bne_iff_ne, ne_eq]
        exact ⟨⟨h, h2⟩, ⟨by omega, by simpa using hm.1.2⟩, hm.2⟩
    · split
      · split
        · exact Memory.wfFrom_mono (by omega) hm.2
        · rename_i h1 h2 h3
          simp only [Memory.wfFrom, Bool.and_eq_true, decide_eq_true_eq, bne_iff_ne, ne_eq]
          exact ⟨⟨h, h3⟩, by rw [h2]; exact hm.2⟩
      · rename_i h1 h2
        simp only [Memory.wfFrom, Bool.and_eq_true, decide_eq_true_eq]
        exact ⟨hm.1, ih hm.2 (by omega)⟩

/-- A write keeps the canonical form. -/
theorem Memory.wf_write {m : Memory} (a : Nat) (v : Byte) (hm : m.wf = true) : (Memory.write m a v).wf = true :=
  Memory.wfFrom_write v hm (Nat.zero_le a)

theorem Memory.read_write_from {lo a x : Nat} {m : Memory} {v : Byte} (hm : Memory.wfFrom lo m = true) :
    Memory.read (Memory.write m a v) x = if x = a then v else Memory.read m x := by
  induction m generalizing lo with
  | nil =>
    by_cases hv : v = bufBlank <;> by_cases hx : x = a <;> simp [Memory.write, Memory.read, hv, hx, eq_comm]
    intro h; exact absurd h.symm hx
  | cons c r ih =>
    obtain ⟨k, b⟩ := c
    have hm' := hm
    simp only [Memory.wfFrom, Bool.and_eq_true, decide_eq_true_eq] at hm
    unfold Memory.write
    split
    · rename_i h1
      split
      · rename_i hv
        by_cases hx : x = a
        · subst hx
          have : k ≠ x := by omega
          simp [Memory.read, this, hv, Memory.read_below hm.2 (show x < k + 1 by omega)]
        · simp [hx]
      · by_cases hx : x = a
        · simp [Memory.read, hx]
        · simp [Memory.read, hx, Ne.symm hx]
    · split
      · rename_i h1 h2
        subst h2
        split
        · rename_i hv
          by_cases hx : x = a
          · subst hx; simp [hv, Memory.read_below hm.2 (Nat.lt_succ_self x)]
          · simp [Memory.read, hx, Ne.symm hx]
        · by_cases hx : x = a
          · simp [Memory.read, hx]
          · simp [Memory.read, hx, Ne.symm hx]
      · rename_i h1 h2
        by_cases hk : k = x
        · subst hk
          have : k ≠ a := fun h => h2 h.symm
          simp [Memory.read, this]
        · simp only [Memory.read, hk, if_false]; exact ih hm.2

/-- What a byte reads as after a write: the value written at the offset written, and the old byte everywhere else. -/
theorem Memory.read_write {m : Memory} (a x : Nat) (v : Byte) (hm : m.wf = true) :
    Memory.read (Memory.write m a v) x = if x = a then v else Memory.read m x :=
  Memory.read_write_from hm

@[simp] theorem Memory.read_nil (a : Nat) : Memory.read [] a = bufBlank := rfl
@[simp] theorem Memory.wf_nil : Memory.wf [] = true := rfl
@[simp] theorem Memory.inRange_nil : Memory.inRange [] = true := rfl

theorem Memory.inRange_write {m : Memory} {a : Nat} (v : Byte) (h : m.inRange = true) (ha : a < params.bufSize) :
    (Memory.write m a v).inRange = true := by
  induction m with
  | nil => by_cases hv : v = bufBlank <;> simp [Memory.write, Memory.inRange, hv, ha]
  | cons c r ih =>
    obtain ⟨k, b⟩ := c
    have hc : k < params.bufSize ∧ Memory.inRange r = true := by
      simpa only [Memory.inRange, List.all_cons, Bool.and_eq_true, decide_eq_true_eq] using h
    have cons : ∀ (j : Nat) (e : Byte) (q : Memory), j < params.bufSize → Memory.inRange q = true →
        Memory.inRange ((j, e) :: q) = true := by
      intro j e q hj hq
      simpa only [Memory.inRange, List.all_cons, Bool.and_eq_true, decide_eq_true_eq] using And.intro hj hq
    unfold Memory.write
    split
    · split
      · exact h
      · exact cons _ _ _ ha h
    · split
      · split
        · exact hc.2
        · exact cons _ _ _ ha hc.2
      · exact cons _ _ _ hc.1 (ih hc.2)

theorem Memory.wf_writeList {m : Memory} (a : Nat) (vs : List Byte) (hm : m.wf = true) :
    (Memory.writeList m a vs).wf = true := by
  induction vs generalizing m a with
  | nil => exact hm
  | cons v r ih => exact ih _ (Memory.wf_write a v hm)

theorem Memory.inRange_writeList {m : Memory} {a : Nat} (vs : List Byte) (h : m.inRange = true)
    (ha : a + vs.length ≤ params.bufSize) : (Memory.writeList m a vs).inRange = true := by
  induction vs generalizing m a with
  | nil => exact h
  | cons v r ih =>
    rw [List.length_cons] at ha
    exact ih (Memory.inRange_write v h (by omega)) (by omega)

/-- What a byte reads as after bytes were written at rising offsets from `a`. -/
theorem Memory.read_writeList {m : Memory} (a x : Nat) (vs : List Byte) (hm : m.wf = true) :
    Memory.read (Memory.writeList m a vs) x =
      if a ≤ x ∧ x < a + vs.length then vs.getD (x - a) 0 else Memory.read m x := by
  induction vs generalizing m a with
  | nil =>
    simp [Memory.writeList]
  | cons v r ih =>
    rw [Memory.writeList, ih _ (Memory.wf_write a v hm), Memory.read_write a x v hm]
    by_cases h1 : x = a
    · subst h1
      simp
    · by_cases h2 : a + 1 ≤ x ∧ x < a + 1 + r.length
      · have h3 : a ≤ x ∧ x < a + (v :: r).length := by simp only [List.length_cons]; omega
        rw [if_pos h2, if_pos h3]
        obtain ⟨n, hn⟩ : ∃ n, x - a = n + 1 := ⟨x - a - 1, by omega⟩
        rw [hn, List.getD_cons_succ]; congr 1; omega
      · have h3 : ¬ (a ≤ x ∧ x < a + (v :: r).length) := by simp only [List.length_cons]; omega
        rw [if_neg h2, if_neg h3, if_neg h1]

theorem Memory.wf_exchange {m : Memory} (o : Nat) (hm : m.wf = true) : (exchange m o).wf = true :=
  Memory.wf_write _ _ (Memory.wf_write _ _ hm)

theorem Memory.inRange_exchange {m : Memory} {o : Nat} (h : m.inRange = true) (ho : o + 1 < params.bufSize) :
    (exchange m o).inRange = true :=
  Memory.inRange_write _ (Memory.inRange_write _ h (by omega)) ho

/-- One exchange of SWAP (R100). -/
theorem Memory.read_exchange {m : Memory} (o x : Nat) (hm : m.wf = true) :
    Memory.read (exchange m o) x =
      if x = o then Memory.read m (o + 1) else if x = o + 1 then Memory.read m o else Memory.read m x := by
  rw [exchange, Memory.read_write _ _ _ (Memory.wf_write _ _ hm), Memory.read_write _ _ _ hm]
  by_cases h1 : x = o <;> by_cases h2 : x = o + 1 <;> simp_all

theorem Memory.wf_swapFold {m : Memory} (os : List Nat) (hm : m.wf = true) : (os.foldl exchange m).wf = true := by
  induction os generalizing m with
  | nil => exact hm
  | cons o r ih => exact ih (Memory.wf_exchange o hm)

theorem Memory.inRange_swapFold {m : Memory} (os : List Nat) (h : m.inRange = true)
    (ho : ∀ o ∈ os, o + 1 < params.bufSize) : (os.foldl exchange m).inRange = true := by
  induction os generalizing m with
  | nil => exact h
  | cons o r ih =>
    exact ih (Memory.inRange_exchange h (ho o (by simp))) fun p hp => ho p (by simp [hp])

/-- Two canonical memories that read alike are equal. -/
theorem Memory.ext_from {lo : Nat} {m n : Memory} (hm : Memory.wfFrom lo m = true) (hn : Memory.wfFrom lo n = true)
    (h : ∀ a, Memory.read m a = Memory.read n a) : m = n := by
  induction m generalizing lo n with
  | nil =>
    cases n with
    | nil => rfl
    | cons c r =>
      obtain ⟨k, b⟩ := c
      simp only [Memory.wfFrom, Bool.and_eq_true, bne_iff_ne, ne_eq] at hn
      have := h k
      simp only [Memory.read, if_true] at this
      exact absurd this.symm hn.1.2
  | cons c r ih =>
    obtain ⟨k, b⟩ := c
    have hm' := hm
    simp only [Memory.wfFrom, Bool.and_eq_true, bne_iff_ne, ne_eq, decide_eq_true_eq] at hm
    cases n with
    | nil =>
      have := h k
      simp only [Memory.read, if_true] at this
      exact absurd this hm.1.2
    | cons d q =>
      obtain ⟨l, e⟩ := d
      have hn' := hn
      simp only [Memory.wfFrom, Bool.and_eq_true, bne_iff_ne, ne_eq, decide_eq_true_eq] at hn
      have hk : k = l := by
        by_contra hne
        rcases Nat.lt_or_gt_of_ne hne with hlt | hgt
        · have := h k
          simp only [Memory.read, if_true, if_neg (Ne.symm hne)] at this
          rw [Memory.read_below hn.2 (by omega)] at this
          exact hm.1.2 this
        · have := h l
          simp only [Memory.read, if_true, if_neg hne] at this
          rw [Memory.read_below hm.2 (by omega)] at this
          exact hn.1.2 this.symm
      subst hk
      have hb : b = e := by simpa [Memory.read] using h k
      subst hb
      have : r = q := by
        refine ih hm.2 hn.2 fun a => ?_
        by_cases ha : k = a
        · subst ha
          rw [Memory.read_below hm.2 (Nat.lt_succ_self _), Memory.read_below hn.2 (Nat.lt_succ_self _)]
        · simpa [Memory.read, ha] using h a
      rw [this]

end Sys2Proof.Machine
end

