-- ==== Sys2Proof/Laws/Environment.lean ====
section
/-! SUPPORT. What the environment's moves and the transport's primitives can do (spec/20_memory.md rules R31 to R39), said
once: everything outside RXQ, TXQ, TXLOG and the timeline stays as it is. -/

namespace Sys2Proof.Machine

theorem State.moved_nothing (s : State) : s.moved [] 0 s.inputs = s := by
  cases s; simp [State.moved]

theorem State.moved_moved (s : State) (a b : List Byte) (k l : Nat) (q r : List Input) :
    (s.moved a k q).moved b l r = s.moved (a ++ b) (k + l) r := by
  simp [State.moved, List.take_add]

theorem State.arrive_eq_moved (s : State) (bs : List Byte) : s.arrive bs = s.moved bs 0 s.inputs := by
  cases s; simp [State.moved, State.arrive]

theorem State.depart_eq_moved (s : State) : s.depart = s.moved [] (min 1 s.txq.length) s.inputs := by
  unfold State.depart
  split <;> rename_i h
  · cases s; simp_all [State.moved]
  · simp [State.moved, h]

/-! ## What the timeline brings -/

theorem arrivals_append (p q : List Input) : arrivals (p ++ q) = arrivals p ++ arrivals q := by
  induction p with
  | nil => rfl
  | cons i p ih => cases i <;> simp [arrivals, ih]

theorem Endless.after_add (k l : Nat) (e : Endless) : e.after (k + l) = (e.after k).after l := by
  induction k generalizing e with
  | zero => rw [Nat.zero_add]; rfl
  | succ k ih => rw [Nat.succ_add]; exact ih e.next

theorem Endless.bytes_add (k l : Nat) (e : Endless) : e.bytes (k + l) = e.bytes k ++ (e.after k).bytes l := by
  induction k generalizing e with
  | zero => rw [Nat.zero_add]; rfl
  | succ k ih =>
    rw [Nat.succ_add]
    simp only [Endless.bytes, Endless.after]
    rw [ih e.next, List.append_assoc]

theorem Brought.refl (l : List Input) : Brought l [] l := ⟨[], by simp, .inl ⟨rfl, rfl⟩⟩

theorem Brought.cons {i : Input} {l r : List Input} {a : List Byte} (hi : i.passes = true) (h : Brought l a r) :
    Brought (i :: l) (arrivals [i] ++ a) r := by
  obtain ⟨p, hp, h⟩ := h
  have e : ∀ q, arrivals [i] ++ arrivals q = arrivals (i :: q) := fun q => (arrivals_append [i] q).symm
  refine ⟨i :: p, by simpa [hi] using hp, ?_⟩
  rcases h with ⟨rfl, rfl⟩ | ⟨f, k, q, rfl, rfl, rfl⟩
  · exact .inl ⟨rfl, e p⟩
  · exact .inr ⟨f, k, q, rfl, rfl, by rw [← List.append_assoc, e]⟩

theorem Brought.endless (e : Endless) (q : List Input) : Brought (.endless e :: q) e.now (.endless e.next :: q) :=
  ⟨[], by simp, .inr ⟨e, 1, q, rfl, rfl, by simp [arrivals, Endless.bytes]⟩⟩

/-- From an endless source only the source itself, some bursts later, is left. -/
theorem Brought.of_endless {e : Endless} {q r : List Input} {a : List Byte} (h : Brought (.endless e :: q) a r) :
    ∃ k, r = .endless (e.after k) :: q ∧ a = e.bytes k := by
  obtain ⟨p, hp, h⟩ := h
  cases p with
  | nil =>
    rcases h with ⟨h, rfl⟩ | ⟨f, k, q', h, rfl, rfl⟩
    · exact ⟨0, h.symm, rfl⟩
    · injection h with h1 h2
      injection h1 with h1
      subst h1 h2
      exact ⟨k, rfl, rfl⟩
  | cons i p =>
    have hi := hp i (by simp)
    rcases h with ⟨h, -⟩ | ⟨f, k, q', h, -⟩ <;> injection h with h1 <;> subst h1 <;> simp [Input.passes] at hi

theorem Brought.trans {l m r : List Input} {a b : List Byte} (h : Brought l a m) (h' : Brought m b r) :
    Brought l (a ++ b) r := by
  obtain ⟨p, hp, ⟨rfl, rfl⟩ | ⟨e, k, q, rfl, rfl, rfl⟩⟩ := h
  · obtain ⟨p', hp', h'⟩ := h'
    refine ⟨p ++ p', fun i hi => (List.mem_append.1 hi).elim (hp i) (hp' i), ?_⟩
    rcases h' with ⟨rfl, rfl⟩ | ⟨f, k, q, rfl, rfl, rfl⟩
    · exact .inl ⟨by rw [List.append_assoc], (arrivals_append p p').symm⟩
    · exact .inr ⟨f, k, q, by rw [List.append_assoc], rfl, by rw [arrivals_append, List.append_assoc]⟩
  · obtain ⟨l, rfl, rfl⟩ := h'.of_endless
    exact ⟨p, hp, .inr ⟨e, k + l, q, rfl, by rw [Endless.after_add], by rw [Endless.bytes_add, List.append_assoc]⟩⟩

theorem Brought.length_le {l r : List Input} {a : List Byte} (h : Brought l a r) : r.length ≤ l.length := by
  obtain ⟨p, -, ⟨rfl, -⟩ | ⟨e, k, q, rfl, rfl, -⟩⟩ := h <;> simp

/-- Where nothing is to arrive, no endless source is reached. -/
theorem finiteInputs_of_quiet {l : List Input} (h : quietInputs l = true) : finiteInputs l = true := by
  induction l with
  | nil => rfl
  | cons i l ih =>
    cases i with
    | waitFor p =>
      simp only [quietInputs, finiteInputs, Bool.or_eq_true] at h ⊢
      exact h.imp id ih
    | host w => rfl
    | depart => exact ih h
    | timeout => exact ih h
    | pass => exact ih h
    | rx bs => simp [quietInputs] at h
    | endless e => simp [quietInputs] at h

/-- What any number of turns of the environment, in a phase `p`, can do to the timeline: bytes `a` arrive, as `Brought` says;
while an operation runs, none where nothing is to arrive, and, where no endless source is reached, those that arrived and those
still to arrive are together those that were to arrive. -/
def Turns (p : Phase) (l : List Input) (a : List Byte) (r : List Input) : Prop :=
  Brought l a r ∧ (p ≠ .idle → (quietInputs l = true → a = [] ∧ quietInputs r = true) ∧
    (finiteInputs l = true → a ++ arrivals r = arrivals l ∧ finiteInputs r = true))

theorem Turns.quiet {p : Phase} {l r : List Input} {a : List Byte} (h : Turns p l a r) (hp : p ≠ .idle)
    (hq : quietInputs l = true) : a = [] ∧ quietInputs r = true := (h.2 hp).1 hq

theorem Turns.finite {p : Phase} {l r : List Input} {a : List Byte} (h : Turns p l a r) (hp : p ≠ .idle)
    (hf : finiteInputs l = true) : a ++ arrivals r = arrivals l ∧ finiteInputs r = true := (h.2 hp).2 hf

theorem Turns.brought {p : Phase} {l r : List Input} {a : List Byte} (h : Turns p l a r) : Brought l a r := h.1

theorem Turns.length_le {p : Phase} {l r : List Input} {a : List Byte} (h : Turns p l a r) : r.length ≤ l.length :=
  h.1.length_le

theorem Turns.refl (p : Phase) (l : List Input) : Turns p l [] l := 
  ⟨Brought.refl l, fun _ => ⟨fun h => ⟨rfl, h⟩, fun h => ⟨rfl, h⟩⟩⟩

theorem Turns.trans {p : Phase} {l m r : List Input} {a b : List Byte} (h : Turns p l a m) (h' : Turns p m b r) :
    Turns p l (a ++ b) r := by
  refine ⟨h.1.trans h'.1, fun hp => ⟨fun hq => ?_, fun hf => ?_⟩⟩
  · obtain ⟨rfl, hm⟩ := h.quiet hp hq
    obtain ⟨rfl, hr⟩ := h'.quiet hp hm
    exact ⟨rfl, hr⟩
  · obtain ⟨e, hm⟩ := h.finite hp hf
    obtain ⟨e', hr⟩ := h'.finite hp hm
    exact ⟨by rw [List.append_assoc, e', e], hr⟩

/-- An entry that is no arrival is left behind. -/
theorem Turns.skip {p : Phase} {i : Input} {l r : List Input} {a : List Byte} (hi : i.passes = true) (ha : arrivals [i] = [])
    (hq : p ≠ .idle → (quietInputs (i :: l) = true → quietInputs l = true) ∧ (finiteInputs (i :: l) = true → finiteInputs l = true))
    (h : Turns p l a r) : Turns p (i :: l) a r := by
  refine ⟨by simpa [ha] using Brought.cons hi h.1, fun hp => ⟨fun hl => h.quiet hp ((hq hp).1 hl), fun hl => ?_⟩⟩
  obtain ⟨e, hr⟩ := h.finite hp ((hq hp).2 hl)
  exact ⟨by rw [e]; simpa [ha] using (arrivals_append [i] l).symm, hr⟩

/-! ## What the environment's moves do -/

/-- Everything the environment's moves can do before a primitive call; a Timeout ends a wait only with RXQ empty. -/
theorem envMoves_effect (w : Bool) (ins : List Input) (s : State) :
    ∃ a k r, (envMoves w ins s).2 = s.moved a k r ∧ k ≤ s.txq.length ∧ Turns s.phase ins a r ∧
      ((envMoves w ins s).1 = true → s.rxq ++ a = []) := by
  induction ins generalizing s with
  | nil => exact ⟨[], 0, [], by simp [envMoves, State.moved], Nat.zero_le _, Turns.refl _ _, by simp [envMoves]⟩
  | cons i q ih =>
    cases i with
    | host x =>
      exact ⟨[], 0, .host x :: q, by simp [envMoves, State.moved], Nat.zero_le _, Turns.refl _ _, by simp [envMoves]⟩
    | pass =>
      exact ⟨[], 0, q, by simp [envMoves, State.moved], Nat.zero_le _,
        (Turns.refl _ q).skip rfl rfl (fun _ => ⟨id, id⟩), by simp [envMoves]⟩
    | endless e =>
      refine ⟨e.now, 0, .endless e.next :: q, by simp [envMoves, State.arrive, State.moved], Nat.zero_le _,
        ⟨Brought.endless e q, fun _ => ⟨fun h => by simp [quietInputs] at h, fun h => by simp [finiteInputs] at h⟩⟩,
        by simp [envMoves]⟩
    | rx bs =>
      obtain ⟨a, k, r, h, hk, hr, ht⟩ := ih (s.arrive bs)
      refine ⟨bs ++ a, k, r, ?_, hk, ⟨?_, fun hp => ⟨fun h => by simp [quietInputs] at h, fun hf => ?_⟩⟩, fun h1 => ?_⟩
      · rw [envMoves, h, State.arrive_eq_moved, State.moved_moved, Nat.zero_add]
      · simpa [arrivals] using Brought.cons (i := .rx bs) rfl hr.1
      · obtain ⟨e, hf⟩ := hr.finite hp hf
        exact ⟨by rw [List.append_assoc, e]; rfl, hf⟩
      · have := ht (by simpa [envMoves] using h1)
        simpa [State.arrive] using this
    | depart =>
      obtain ⟨a, k, r, h, hk, hr, ht⟩ := ih s.depart
      rw [State.depart_eq_moved] at hk hr ht
      refine ⟨a, min 1 s.txq.length + k, r, ?_, ?_, hr.skip rfl rfl (fun _ => ⟨id, id⟩), fun h1 => ?_⟩
      · rw [envMoves, h, State.depart_eq_moved, State.moved_moved, List.nil_append]
      · simp only [State.moved_txq, List.length_drop] at hk; omega
      · have := ht (by simpa [envMoves, State.depart_eq_moved] using h1)
        simpa using this
    | timeout =>
      by_cases hw : (w && s.rxq.isEmpty) = true
      · refine ⟨[], 0, q, by simp [envMoves, hw, State.moved], Nat.zero_le _, (Turns.refl _ q).skip rfl rfl (fun _ => ⟨id, id⟩), ?_⟩
        intro _
        have := (Bool.and_eq_true _ _ ▸ hw).2
        simpa using this
      · obtain ⟨a, k, r, h, hk, hr, ht⟩ := ih s
        refine ⟨a, k, r, ?_, hk, hr.skip rfl rfl (fun _ => ⟨id, id⟩), fun h1 => ht (by rwa [envMoves, if_neg hw] at h1)⟩
        rw [envMoves, if_neg hw, h]
    | waitFor p =>
      by_cases hp : s.phase = p
      · obtain ⟨a, k, r, h, hk, hr, ht⟩ := ih s
        refine ⟨a, k, r, ?_, hk, hr.skip rfl rfl (fun hi => ⟨fun h => ?_, fun h => ?_⟩), fun h1 => ht (by rwa [envMoves, if_pos hp] at h1)⟩
        · rw [envMoves, if_pos hp, h]
        all_goals
          simp only [quietInputs, finiteInputs, Bool.or_eq_true, beq_iff_eq] at h
          exact h.resolve_left fun h => hi (hp.trans h)
      · exact ⟨[], 0, .waitFor p :: q, by simp [envMoves, hp, State.moved], Nat.zero_le _, Turns.refl _ _, by simp [envMoves, hp]⟩

/-- Everything the environment's turn before a primitive call can do. -/
theorem State.turn_effect (s : State) :
    ∃ a k r, s.turn = s.moved a k r ∧ k ≤ s.txq.length ∧ Turns s.phase s.inputs a r := by
  obtain ⟨a, k, r, h, hk, hr, -⟩ := envMoves_effect false s.inputs s
  exact ⟨a, k, r, h, hk, hr⟩

end Sys2Proof.Machine
end

