-- ==== Sys2Proof/Laws/Engine.lean ====
section
/-! SUPPORT. What one tick of the state machine can do (spec/41_readdata_sync.md rule R81), and what follows for a run of
ticks: the invariant is kept, nothing faults, and every tick of an engine that is not held uses something up. -/

namespace Sys2Proof.Machine

/-! ## The transport's loops -/

/-- TxFlush's look: the environment moved, perhaps by one departure more; it is over exactly when TXQ is empty; otherwise,
under TxProgress, the timeline or TXQ got shorter. -/
theorem txFlush_effect (s : State) :
    ∃ a k r, (txFlush s).2 = s.moved a k r ∧ k ≤ s.txq.length ∧ Turns s.phase s.inputs a r ∧
      ((txFlush s).1 = true → k = s.txq.length) ∧
      ((txFlush s).1 = false → s.line.txProgress = true →
        r.length + (s.txq.drop k).length < s.inputs.length + s.txq.length) := by
  obtain ⟨a, k, r, h, hk, he⟩ := s.turn_effect
  have hr := he.length_le
  unfold txFlush
  rw [h]
  by_cases h1 : (s.moved a k r).txq = []
  · rw [if_pos h1]
    have : k = s.txq.length := by
      rw [State.moved_txq, List.drop_eq_nil_iff] at h1; omega
    exact ⟨a, k, r, rfl, hk, he, fun _ => this, by simp⟩
  · rw [if_neg h1]
    have hpos : 0 < (s.txq.drop k).length := List.length_pos_of_ne_nil h1
    rw [List.length_drop] at hpos
    split
    · refine ⟨a, k + 1, r, ?_, by omega, he, by simp, fun _ _ => ?_⟩
      · rw [State.depart_eq_moved, State.moved_moved, List.append_nil, State.moved_txq, List.length_drop,
          Nat.min_eq_left (by omega)]; rfl
      · simp only [List.length_drop]; omega
    · rename_i h2
      refine ⟨a, k, r, rfl, hk, he, by simp, fun _ hp => ?_⟩
      have hne : r.length ≠ s.inputs.length := fun hl => h2 ⟨hl, hp⟩
      simp only [List.length_drop]; omega

/-- One look of RXFLUSH's loop: it finds nothing and the loop is over, or it discards the oldest byte
and counts it. -/
theorem drainTick_effect (finish : State → State) (s : State) :
    ∃ a k r, k ≤ s.txq.length ∧ Turns s.phase s.inputs a r ∧
      ((drainTick finish s = .next (finish (s.moved a k r)) ∧ s.rxq ++ a = []) ∨
       ∃ b q, drainTick finish s = .next (((s.withRxq q).moved [] k r).counted) ∧ s.rxq ++ a = b :: q) := by
  obtain ⟨a, k, r, h, hk, he⟩ := s.turn_effect
  unfold drainTick rxAvail
  simp only [h]
  by_cases h0 : s.rxq ++ a = []
  · refine ⟨a, k, r, hk, he, .inl ⟨?_, h0⟩⟩
    rw [if_pos (by simpa using h0)]
  · rw [if_neg (by simpa using h0)]
    obtain ⟨b, q, hbq⟩ := List.exists_cons_of_ne_nil h0
    obtain ⟨a', k', r', h', hk', he'⟩ := (s.moved a k r).turn_effect
    simp only [State.moved_txq, List.length_drop] at hk'
    refine ⟨a ++ a', k + k', r', by omega, he.trans he', .inr ⟨b, q ++ a', ?_, ?_⟩⟩
    · have hrx : ((s.moved a k r).moved a' k' r').rxq = b :: (q ++ a') := by
        simp [hbq]
      unfold rxRead
      rw [h', hrx, State.moved_moved]
      simp [State.moved, State.withRxq]
    · rw [← List.append_assoc, hbq]; rfl

/-- The writes of a command: the bytes stand behind what was in TXQ, in order, with the environment's moves between
them. -/
theorem foldl_txWrite_effect (bs : List Byte) (s : State) :
    ∃ a k r, k ≤ (s.txq ++ bs).length ∧ Turns s.phase s.inputs a r ∧
      bs.foldl txWrite s = (s.withTxq (s.txq ++ bs)).moved a k r := by
  induction bs generalizing s with
  | nil => exact ⟨[], 0, s.inputs, Nat.zero_le _, Turns.refl _ _, by cases s; simp [State.moved, State.withTxq]⟩
  | cons b q ih =>
    obtain ⟨a, k, r, h, hk, he⟩ := s.turn_effect
    obtain ⟨a', k', r', hk', he', h'⟩ := ih (txWrite s b)
    have hw : txWrite s b = (s.withTxq (s.txq ++ [b])).moved a k r := by
      rw [txWrite, h]
      simp [State.moved, State.withTxq, List.drop_append_of_le_length hk, List.take_append_of_le_length hk]
    rw [hw] at hk' he' h'
    simp only [State.moved_txq, State.withTxq_txq] at hk'
    refine ⟨a ++ a', k + k', r', ?_, he.trans he', ?_⟩
    · simp only [List.length_append, List.length_drop, List.length_cons, List.length_nil] at hk' ⊢; omega
    · rw [List.foldl_cons, hw, h']
      have hk2 : k ≤ (s.txq ++ [b]).length := by simp; omega
      simp only [State.moved, State.withTxq, State.mk.injEq, true_and, and_true, List.append_assoc]
      rw [← List.drop_append_of_le_length hk2, List.drop_drop,
        ← List.take_append_of_le_length (l₂ := q) hk2, ← List.take_add]
      simp

/-- One round of RxReadN's loop: a Timeout with RXQ empty, the oldest byte, or more waiting with RXQ empty. -/
theorem rxReadRound_effect (s : State) :
    ∃ a k r, k ≤ s.txq.length ∧ Turns s.phase s.inputs a r ∧
      ((rxReadRound s = (.timedOut, s.moved a k r) ∧ s.rxq ++ a = []) ∨
       (∃ b q, s.rxq ++ a = b :: q ∧ rxReadRound s = (.byte b, (s.withRxq q).moved [] k r)) ∨
       (rxReadRound s = (.waiting, s.moved a k r) ∧ s.rxq ++ a = [] ∧
         (s.line.timesOut = true → r.length < s.inputs.length))) := by
  obtain ⟨a, k, r, h, hk, he, ht⟩ := envMoves_effect true s.inputs s
  refine ⟨a, k, r, hk, he, ?_⟩
  unfold rxReadRound
  simp only [h]
  split
  · rename_i h1
    exact .inl ⟨rfl, ht h1⟩
  · split
    · rename_i b q hq
      exact .inr (.inl ⟨b, q, hq, by simp [State.moved, State.withRxq]⟩)
    · rename_i hq
      split
      · exact .inl ⟨rfl, hq⟩
      · rename_i hn
        refine .inr (.inr ⟨rfl, hq, fun ht => ?_⟩)
        have hr := he.length_le
        have : r.length ≠ s.inputs.length := fun hl => hn ⟨hl, ht⟩
        omega

/-! ## What every tick keeps, and what it uses up -/

/-- What is in the transport and on the timeline. -/
def State.work (s : State) : Nat := s.inputs.length + (arrivals s.inputs).length + s.rxq.length + s.txq.length

/-- How far a place of the state machine is from IDLE, counting the nine bytes that SENDCMD still has to write. -/
def State.rank (s : State) : Nat :=
  match s.phase with
  | .idle => 0
  | .qreq => sendRank s.point
  | .cmdtx => sendRank s.point
  | .qwait => 9
  | .sync => 8
  | .lenchk => 7
  | .capture => 6
  | .swap => 5
  | .check => 4
  | .commit => 3
  | .drain => if s.point = .settle then 4 else 3
  | .ackwait => 3
  | .ackchk => 2
where
  /-- the part inside SENDCMD -/
  sendRank : Point → Nat
  | .start => 33
  | .flushBefore => 33
  | .settle => 32
  | .drain => 31
  | .write => 30
  | .flushAfter => 20

/-- What the environment's moves leave of the work is no more than there was, unless bytes arrive without end. -/
theorem State.work_moved {s : State} {a : List Byte} {k : Nat} {r : List Input} (he : Turns s.phase s.inputs a r)
    (hp : s.phase ≠ .idle) (hf : finiteInputs s.inputs = true) : (s.moved a k r).work ≤ s.work := by
  have := congrArg List.length (he.finite hp hf).1
  have := he.length_le
  simp only [State.work, State.moved_inputs, State.moved_rxq, State.moved_txq, List.length_append, List.length_drop] at *
  omega

end Sys2Proof.Machine
end

