-- ==== Sys2Proof/Laws/Invariant.lean ====
section
/-! SUPPORT. The invariant of every state that a run from reset reaches (spec/10_state.md rule R13, spec/41_readdata_sync.md
rules R81 and R85) is kept by one tick of the state machine, and no tick of such a state faults; what one round of SYNC can do
is said once. -/

namespace Sys2Proof.Machine

/-- The control part of the invariant for the place a tick leads to. -/
theorem State.inv_moved {s : State} (a : List Byte) (k : Nat) (r : List Input) (h : s.Inv) : (s.moved a k r).Inv := by
  obtain ⟨h1, h2, h3, h4, h5, h6, h7, h8, h9⟩ := h
  refine ⟨h1, h2, h3, h4, h5, h6, fun hp => ?_, h8, h9⟩
  have := h7 hp
  simp only [State.moved_fs, State.moved_rxq, List.length_append]; omega

theorem State.inv_leave {s : State} (hg : s.Geometry) (hw : s.buf.wf = true) (hr : s.buf.inRange = true)
    (ht : s.rxto = params.rxTimeoutMs) : s.leave.Inv :=
  ⟨hg, hw, hr, ht, rfl, by simp, by simp, Nat.zero_le _, by simp⟩

theorem State.inv_done {s : State} (d : Half) (hg : s.Geometry) (hw : s.buf.wf = true) (hr : s.buf.inRange = true)
    (ht : s.rxto = params.rxTimeoutMs) : (s.done d).Inv :=
  ⟨hg, hw, hr, ht, rfl, by simp, by simp, Nat.zero_le _, by simp⟩

theorem State.inv_fail {s : State} (k : ErrKind) (hg : s.Geometry) (hw : s.buf.wf = true) (hr : s.buf.inRange = true)
    (ht : s.rxto = params.rxTimeoutMs) : (s.fail k).Inv :=
  ⟨hg, hw, hr, ht, rfl, by simp, by simp, Nat.zero_le _, by simp⟩

theorem frameSize_le (m : Mode) (v : Variant) : 9 ≤ frameSize m v ∧ frameSize m v ≤ params.bufSize := by
  cases m <;> cases v <;> decide

theorem swapOffsets_lt {m : Mode} {fs : Nat} (h : fs ≤ params.bufSize) : ∀ o ∈ swapOffsets m fs, o + 1 < params.bufSize := by
  intro o ho
  have hb : params.bufSize = 32 := rfl
  simp only [hb] at h ⊢
  cases m with
  | push =>
    simp only [swapOffsets, List.mem_map, List.mem_range] at ho
    obtain ⟨i, hi, rfl⟩ := ho
    omega
  | query =>
    have : swapOffsets .query fs = [2, 4, 6] := rfl
    rw [this] at ho
    simp only [List.mem_cons, List.not_mem_nil, or_false] at ho
    omega

theorem afterSend_inv {s : State} (h : s.Inv) (hs : s.Sending) : (afterSend s).Inv := by
  obtain ⟨h1, h2, h3, h4, h5, h6, h7, h8, h9⟩ := h
  rcases hs with hp | hp
  · rw [hp] at h5
    have hact : s.act = .setmode ∨ s.act = .sleep ∨ s.act = .wakeup := by
      cases ha : s.act <;> simp [ha, Phase.serves] at h5 ⊢
    rcases hact with ha | ha | ha <;> simp only [afterSend, hp, ha] <;>
      exact ⟨h1, h2, h3, h4, by simp only [ha]; rfl, by simp, by simp, by first | exact h8 | exact Nat.zero_le _, by simp⟩
  · simp only [afterSend, hp]
    rw [hp] at h5
    exact ⟨h1, h2, h3, h4, by simpa [Phase.serves] using h5, fun _ => h6 (.inl hp), by simp, h8, by simp⟩

theorem sendTick_inv {s : State} (h : s.Inv) (hs : s.Sending) : ∃ t, sendTick s = .next t ∧ t.Inv := by
  have keep : ∀ (t : State) (p : Point), t.Inv → (t.atPoint p).Inv := fun t p ht => ht
  have counts : ∀ (t : State) (p : Point) (n : Nat), t.Inv → State.Inv { t with point := p, flushCount := n } := fun t p n ht => ht
  have flush : ∀ p : Point, (if (txFlush s).1 then (txFlush s).2.atPoint p else (txFlush s).2).Inv := by
    intro p
    obtain ⟨a, k, r, e, -⟩ := txFlush_effect s
    rw [e]
    split
    · exact keep _ _ (State.inv_moved a k r h)
    · exact State.inv_moved a k r h
  unfold sendTick
  split
  · obtain ⟨a, k, r, e, -⟩ := s.turn_effect
    exact ⟨_, rfl, by rw [delay, e]; exact counts _ .drain 0 (State.inv_moved a k r h)⟩
  · obtain ⟨a, k, r, -, -, ⟨e, -⟩ | ⟨b, q, e, hq⟩⟩ := drainTick_effect (fun t => t.atPoint .write) s
    · exact ⟨_, e, keep _ _ (State.inv_moved a k r h)⟩
    · refine ⟨_, e, show State.Inv ((s.withRxq q).moved [] k r) from State.inv_moved _ _ _ ?_⟩
      obtain ⟨h1, h2, h3, h4, h5, h6, h7, h8, h9⟩ := h
      refine ⟨h1, h2, h3, h4, h5, h6, fun hp => ?_, h8, h9⟩
      rw [State.withRxq_phase] at hp; rcases hs with hs | hs <;> rw [hs] at hp <;> cases hp
  · refine ⟨_, rfl, ?_⟩
    obtain ⟨a, k, r, -, -, e⟩ := foldl_txWrite_effect (commandFrame s.cmd1 s.cmd2) s
    rw [e]
    exact keep _ _ (State.inv_moved a k r (show State.Inv { s with txq := _ } from h))
  · refine ⟨_, rfl, ?_⟩
    obtain ⟨a, k, r, e, -⟩ := txFlush_effect s
    rw [e]
    split
    · exact afterSend_inv (State.inv_moved a k r h) hs
    · exact State.inv_moved a k r h
  · exact ⟨_, rfl, flush _⟩
  · exact ⟨_, rfl, flush _⟩

/-- One round of SYNC: exhausted, or on the marker, or one byte other than the marker discarded. -/
theorem syncTick_effect (s : State) :
    ∃ a k r, k ≤ s.txq.length ∧ Turns s.phase s.inputs a r ∧
      ((s.rxq ++ a = [] ∧ syncTick s = .next ((s.moved a k r).sought false)) ∨
       (∃ q, s.rxq ++ a = marker s.mode :: q ∧
          syncTick s = .next ((s.moved a k r).sought true)) ∨
       (∃ b q, s.rxq ++ a = b :: q ∧ b ≠ marker s.mode ∧
          syncTick s = .next ((s.withRxq q).moved [] k r))) := by
  obtain ⟨a, k, r, h, hk, he⟩ := s.turn_effect
  unfold syncTick rxAvail
  simp only [h]
  by_cases h0 : s.rxq ++ a = []
  · exact ⟨a, k, r, hk, he, .inl ⟨h0, by rw [if_pos (by simpa using h0)]⟩⟩
  · rw [if_neg (by simpa using h0)]
    obtain ⟨b, q, hbq⟩ := List.exists_cons_of_ne_nil h0
    obtain ⟨a', k', r', h', hk', he'⟩ := (s.moved a k r).turn_effect
    have hrx : ((s.moved a k r).moved a' k' r').rxq = b :: (q ++ a') := by simp [hbq]
    have hpeek : rxPeek (s.moved a k r) = some (b, (s.moved a k r).moved a' k' r') := by
      unfold rxPeek; rw [h', hrx]
    simp only [State.moved_txq, List.length_drop] at hk'
    rw [hpeek]
    dsimp only
    by_cases hm : b = marker s.mode
    · refine ⟨a ++ a', k + k', r', by omega, he.trans he', .inr (.inl ⟨q ++ a', ?_, ?_⟩)⟩
      · rw [← List.append_assoc, hbq, hm]; rfl
      · rw [if_pos (show b = marker ((s.moved a k r).moved a' k' r').mode from hm), State.moved_moved]
    · obtain ⟨a2, k2, r2, h2, hk2, he2⟩ := ((s.moved a k r).moved a' k' r').turn_effect
      simp only [State.moved_txq, List.length_drop] at hk2
      have hrx2 : (((s.moved a k r).moved a' k' r').moved a2 k2 r2).rxq = b :: (q ++ a' ++ a2) := by simp [hbq]
      refine ⟨a ++ a' ++ a2, k + k' + k2, r2, by omega, (he.trans he').trans he2, .inr (.inr ⟨b, q ++ a' ++ a2, ?_, hm, ?_⟩)⟩
      · rw [← List.append_assoc, ← List.append_assoc, hbq]; rfl
      · unfold rxRead
        rw [if_neg (show ¬ b = marker ((s.moved a k r).moved a' k' r').mode from hm), h2, hrx2, State.moved_moved, State.moved_moved]
        simp [State.moved, State.withRxq, Nat.add_assoc]

/-- SYNC keeps the invariant. -/
theorem syncTick_inv {s : State} (h : s.Inv) (hp : s.phase = .sync) : ∃ t, syncTick s = .next t ∧ t.Inv := by
  obtain ⟨a, k, r, -, -, he⟩ := syncTick_effect s
  have hm := State.inv_moved a k r h
  have toLen : ∀ f : Bool, ((s.moved a k r).sought f).Inv := by
    intro f
    obtain ⟨h1, h2, h3, h4, h5, h6, h7, h8, h9⟩ := hm
    rw [State.moved_phase, hp] at h5
    exact ⟨h1, h2, h3, h4, h5, by simp, by simp, h8, by simp⟩
  rcases he with ⟨-, e⟩ | ⟨q, -, e⟩ | ⟨b, q, -, -, e⟩
  · exact ⟨_, e, toLen _⟩
  · exact ⟨_, e, toLen _⟩
  · refine ⟨_, e, State.inv_moved _ _ _ ?_⟩
    obtain ⟨h1, h2, h3, h4, h5, h6, h7, h8, h9⟩ := h
    exact ⟨h1, h2, h3, h4, h5, h6, fun hc => by simp [hp] at hc, h8, h9⟩

theorem lenchkTick_inv {s : State} (h : s.Inv) (hp : s.phase = .lenchk) : ∃ t, lenchkTick s = .next t ∧ t.Inv := by
  obtain ⟨a, k, r, e, -⟩ := s.turn_effect
  have hm := State.inv_moved a k r h
  obtain ⟨h1, h2, h3, h4, h5, h6, h7, h8, h9⟩ := hm
  unfold lenchkTick rxAvail
  simp only [e]
  split
  · exact ⟨_, rfl, State.inv_fail _ h1 h2 h3 h4⟩
  · rename_i hl
    rw [State.moved_phase, hp] at h5
    exact ⟨_, rfl, h1, h2, h3, h4, h5, by simp, fun _ => Nat.le_of_not_lt hl, h8, by simp⟩

theorem captureTick_inv {s : State} (h : s.Inv) (hp : s.phase = .capture) : ∃ t, captureTick s = .next t ∧ t.Inv := by
  obtain ⟨a, k, r, e, -⟩ := s.turn_effect
  have hm := State.inv_moved a k r h
  obtain ⟨h1, h2, h3, h4, h5, h6, h7, h8, h9⟩ := hm
  have hlen := h7 hp
  have hsz := (frameSize_le s.mode s.variant).2
  have h1' : (s.moved a k r).fs.toNat ≤ params.bufSize := by rw [h1]; exact hsz
  rw [State.moved_phase, hp] at h5
  unfold captureTick
  simp only [e]
  rw [if_neg (by omega), if_neg (by omega)]
  refine ⟨_, rfl, h1, Memory.wf_writeList _ _ h2, Memory.inRange_writeList _ h3 ?_, h4, h5, by simp, by simp, h8, by simp⟩
  rw [List.length_take]; omega

theorem swapTick_inv {s : State} (h : s.Inv) (hp : s.phase = .swap) : ∃ t, swapTick s = .next t ∧ t.Inv := by
  obtain ⟨h1, h2, h3, h4, h5, h6, h7, h8, h9⟩ := h
  have h1' : s.fs.toNat ≤ params.bufSize := by rw [h1]; exact (frameSize_le s.mode s.variant).2
  rw [hp] at h5
  unfold swapTick
  rw [if_neg (by omega)]
  exact ⟨_, rfl, h1, Memory.wf_swapFold _ h2, Memory.inRange_swapFold _ h3 (swapOffsets_lt h1'), h4, h5, by simp, by simp,
    h8, by simp⟩

theorem checkTick_inv {s : State} (h : s.Inv) (hp : s.phase = .check) : ∃ t, checkTick s = .next t ∧ t.Inv := by
  obtain ⟨h1, h2, h3, h4, h5, h6, h7, h8, h9⟩ := h
  have hr : checkInRange s.mode s.fs.toNat = true := by
    rw [h1]; cases s.mode <;> cases s.variant <;> decide
  rw [hp] at h5
  unfold checkTick
  rw [if_pos hr]
  refine ⟨_, rfl, ?_⟩
  split
  · exact ⟨h1, h2, h3, h4, h5, by simp, by simp, h8, by simp⟩
  · exact State.inv_fail _ h1 h2 h3 h4

theorem ackwaitTick_inv {s : State} (h : s.Inv) (hp : s.phase = .ackwait) : ∃ t, ackwaitTick s = .next t ∧ t.Inv := by
  have h' := h
  obtain ⟨h1, h2, h3, h4, h5, h6, h7, h8, h9⟩ := h'
  unfold ackwaitTick
  split
  · rw [hp] at h5
    exact ⟨_, rfl, h1, h2, h3, h4, h5, by simp, by simp, h8, by simp⟩
  · rename_i hc
    obtain ⟨a, k, r, -, -, ⟨e, -⟩ | ⟨b, q, -, e⟩ | ⟨e, -⟩⟩ := rxReadRound_effect s <;> rw [e]
    · exact ⟨_, rfl, State.inv_fail _ h1 h2 h3 h4⟩
    · have ha : s.ackCount < params.bufSize := by
        have : params.ackLen = 9 := rfl
        have : params.bufSize = 32 := rfl
        omega
      refine ⟨_, rfl, h1, Memory.wf_write _ _ h2, Memory.inRange_write _ h3 ha, h4, h5, h6, fun hq => ?_, ?_, h9⟩
      · simp [hp] at hq
      · simp only [State.moved_ackCount, State.withRxq_ackCount]; omega
    · exact ⟨_, rfl, State.inv_moved _ _ _ h⟩

/-- Every tick of a state that meets the invariant gives a next state, never a fault, and keeps the invariant. -/
theorem tick_inv {s : State} (h : s.Inv) : ∃ t, tick s = .next t ∧ t.Inv := by
  have h' := h
  obtain ⟨h1, h2, h3, h4, h5, h6, h7, h8, h9⟩ := h'
  unfold tick
  split <;> rename_i hp
  · exact ⟨_, rfl, h⟩
  · exact sendTick_inv h (.inr hp)
  · exact sendTick_inv h (.inl hp)
  · obtain ⟨a, k, r, e, -⟩ := s.turn_effect
    rw [delay, e]
    rw [hp] at h5
    exact ⟨_, rfl, h1, h2, h3, h4, h5, by simp, by simp, h8, by simp⟩
  · exact syncTick_inv h hp
  · exact lenchkTick_inv h hp
  · exact captureTick_inv h hp
  · exact swapTick_inv h hp
  · exact checkTick_inv h hp
  · exact ⟨_, rfl, State.inv_done _ h1 h2 h3 h4⟩
  · have fin : ∃ t, drainTick (fun t => t.done 0) s = .next t ∧ t.Inv := by
      obtain ⟨a, k, r, -, -, ⟨e, -⟩ | ⟨b, q, e, -⟩⟩ := drainTick_effect (fun t => t.done 0) s
      · exact ⟨_, e, State.inv_done _ h1 h2 h3 h4⟩
      · refine ⟨_, e, show State.Inv ((s.withRxq q).moved [] k r) from State.inv_moved _ _ _ ⟨h1, h2, h3, h4, h5, h6, fun hc => by simp [hp] at hc, h8, h9⟩⟩
    split
    · obtain ⟨a, k, r, e, -⟩ := s.turn_effect
      rw [delay, e]
      exact ⟨_, rfl, show State.Inv (s.moved a k r) from State.inv_moved a k r h⟩
    all_goals exact fin
  · exact ackwaitTick_inv h hp
  · refine ⟨_, rfl, ?_⟩
    split
    · exact State.inv_done _ h1 h2 h3 h4
    · exact State.inv_fail _ h1 h2 h3 h4

end Sys2Proof.Machine
end

