-- ==== Sys2Proof/Laws/Tick.lean ====
section
/-! SUPPORT. Everything one tick of the state machine can do (spec/41_readdata_sync.md rule R81's table, with the holds inside
SENDCMD, RXFLUSH, SYNC and ACKREAD), said once as a relation, so that later proofs take cases on it and unfold no tick. -/

namespace Sys2Proof.Machine

/-- Moves the environment can have made (R39): `a` arrived, `k` bytes departed, `r` is left of the timeline. -/
abbrev State.Allows (s : State) (a : List Byte) (k : Nat) (r : List Input) : Prop :=
  k ≤ s.txq.length ∧ Turns s.phase s.inputs a r

/-- The transitions. Each name says what happened. -/
inductive TickTo (s : State) : State → Prop where
  | idle (hp : s.phase = .idle) : TickTo s s
  | flushHeld (a k r) (hp : s.Sending) (hq : s.point = .start ∨ s.point = .flushBefore ∨ s.point = .flushAfter)
      (ha : s.Allows a k r) : TickTo s (s.moved a k r)
  | flushedBefore (a r) (hp : s.Sending) (hq : s.point = .start ∨ s.point = .flushBefore)
      (ha : s.Allows a s.txq.length r) : TickTo s ((s.moved a s.txq.length r).atPoint .settle)
  | settled (a k r) (hp : s.Sending) (hq : s.point = .settle) (ha : s.Allows a k r) :
      TickTo s (s.moved a k r).startDrain
  | sendDiscarded (a k r b q) (hp : s.Sending) (hq : s.point = .drain) (ha : s.Allows a k r) (hx : s.rxq ++ a = b :: q) :
      TickTo s ((s.withRxq q).moved [] k r).counted
  | sendDrained (a k r) (hp : s.Sending) (hq : s.point = .drain) (ha : s.Allows a k r) (hx : s.rxq ++ a = []) :
      TickTo s ((s.moved a k r).atPoint .write)
  | written (a k r) (hp : s.Sending) (hq : s.point = .write) (hk : k ≤ (s.txq ++ commandFrame s.cmd1 s.cmd2).length)
      (he : Turns s.phase s.inputs a r) :
      TickTo s (((s.withTxq (s.txq ++ commandFrame s.cmd1 s.cmd2)).moved a k r).atPoint .flushAfter)
  | sent (a r) (hp : s.Sending) (hq : s.point = .flushAfter) (ha : s.Allows a s.txq.length r) :
      TickTo s (afterSend (s.moved a s.txq.length r))
  | queryWaited (a k r) (hp : s.phase = .qwait) (ha : s.Allows a k r) : TickTo s ((s.moved a k r).goto .sync)
  | syncExhausted (a k r) (hp : s.phase = .sync) (ha : s.Allows a k r) (hx : s.rxq ++ a = []) :
      TickTo s ((s.moved a k r).sought false)
  | syncFound (a k r q) (hp : s.phase = .sync) (ha : s.Allows a k r) (hx : s.rxq ++ a = marker s.mode :: q) :
      TickTo s ((s.moved a k r).sought true)
  | syncDiscarded (a k r b q) (hp : s.phase = .sync) (ha : s.Allows a k r) (hx : s.rxq ++ a = b :: q)
      (hb : b ≠ marker s.mode) : TickTo s ((s.withRxq q).moved [] k r)
  | tooShort (a k r) (hp : s.phase = .lenchk) (ha : s.Allows a k r) (hx : (s.rxq ++ a).length < s.fs.toNat) :
      TickTo s ((s.moved a k r).fail (if s.found then .shortFrame else .syncMiss))
  | longEnough (a k r) (hp : s.phase = .lenchk) (ha : s.Allows a k r) (hx : s.fs.toNat ≤ (s.rxq ++ a).length) :
      TickTo s ((s.moved a k r).goto .capture)
  | captured (a k r) (t : State) (hp : s.phase = .capture) (ha : s.Allows a k r) (hf : s.fs.toNat ≤ params.bufSize)
      (hx : s.fs.toNat ≤ (s.rxq ++ a).length)
      (ht : t = { s.moved a k r with
        buf := s.buf.writeList 0 ((s.rxq ++ a).take s.fs.toNat), rxq := (s.rxq ++ a).drop s.fs.toNat, phase := .swap }) :
      TickTo s t
  | swapped (hp : s.phase = .swap) (hf : s.fs.toNat ≤ params.bufSize) :
      TickTo s { s with buf := swapBuf s.mode s.fs.toNat s.buf, phase := .check }
  | checkPassed (hp : s.phase = .check) (hc : checksumOk s.mode s.fs.toNat s.buf = true) : TickTo s (s.goto .commit)
  | checkFailed (hp : s.phase = .check) (hc : checksumOk s.mode s.fs.toNat s.buf = false) :
      TickTo s (s.fail .checksumMismatch)
  | committed (t : State) (hp : s.phase = .commit)
      (ht : t = State.done { s with
        pm1_0 := s.buf.read16 (route s.mode).pm1_0, pm2_5 := s.buf.read16 (route s.mode).pm2_5,
        pm10 := s.buf.read16 (route s.mode).pm10, lmWritten := true } 0) : TickTo s t
  | drainSettled (a k r) (hp : s.phase = .drain) (hq : s.point = .settle) (ha : s.Allows a k r) :
      TickTo s (s.moved a k r).startDrain
  | drainDiscarded (a k r b q) (hp : s.phase = .drain) (hq : s.point ≠ .settle) (ha : s.Allows a k r)
      (hx : s.rxq ++ a = b :: q) : TickTo s ((s.withRxq q).moved [] k r).counted
  | drainFinished (a k r) (hp : s.phase = .drain) (hq : s.point ≠ .settle) (ha : s.Allows a k r) (hx : s.rxq ++ a = []) :
      TickTo s ((s.moved a k r).done 0)
  | ackComplete (hp : s.phase = .ackwait) (hc : params.ackLen ≤ s.ackCount) : TickTo s (s.goto .ackchk)
  | ackTimedOut (a k r) (hp : s.phase = .ackwait) (hc : s.ackCount < params.ackLen) (ha : s.Allows a k r)
      (hx : s.rxq ++ a = []) : TickTo s ((s.moved a k r).fail .cmdNotConfirmed)
  | ackByte (a k r b q) (t : State) (hp : s.phase = .ackwait) (hc : s.ackCount < params.ackLen) (ha : s.Allows a k r)
      (hx : s.rxq ++ a = b :: q)
      (ht : t = { (s.withRxq q).moved [] k r with buf := s.buf.write s.ackCount b, ackCount := s.ackCount + 1 }) : TickTo s t
  | ackHeld (a k r) (hp : s.phase = .ackwait) (hc : s.ackCount < params.ackLen) (ha : s.Allows a k r) (hx : s.rxq ++ a = []) :
      TickTo s (s.moved a k r)
  | confirmed (hp : s.phase = .ackchk) (hc : ackOk (ackExpect s.act) s.buf = true) : TickTo s (s.done 0)
  | unconfirmed (hp : s.phase = .ackchk) (hc : ackOk (ackExpect s.act) s.buf = false) : TickTo s (s.fail .cmdNotConfirmed)

/-- A tick that answers a next state made one of these transitions. -/
theorem tick_cases {s t : State} (h : tick s = .next t) : TickTo s t := by
  have drain : ∀ finish : State → State, drainTick finish s = .next t →
      ∃ a k r, s.Allows a k r ∧ ((t = finish (s.moved a k r) ∧ s.rxq ++ a = []) ∨
        ∃ b q, t = ((s.withRxq q).moved [] k r).counted ∧ s.rxq ++ a = b :: q) := by
    intro finish e
    obtain ⟨a, k, r, hk, he, ⟨e', hx⟩ | ⟨b, q, e', hq⟩⟩ := drainTick_effect finish s <;> rw [e'] at e <;>
      injection e with e <;> subst e
    · exact ⟨a, k, r, ⟨hk, he⟩, .inl ⟨rfl, hx⟩⟩
    · exact ⟨a, k, r, ⟨hk, he⟩, .inr ⟨b, q, rfl, hq⟩⟩
  have send : s.Sending → sendTick s = .next t → TickTo s t := by
    intro hp h
    have flush : ∀ f : State → State,
        Host.Outcome.next (if (txFlush s).1 then f (txFlush s).2 else (txFlush s).2) = (.next t : Result) →
        ∃ a k r, s.Allows a k r ∧ ((t = f (s.moved a k r) ∧ k = s.txq.length) ∨ t = s.moved a k r) := by
      intro f e
      obtain ⟨a, k, r, e', hk, he, hx, -⟩ := txFlush_effect s
      rw [e'] at e
      injection e with e
      cases h1 : (txFlush s).1 <;> rw [h1] at e
      · exact ⟨a, k, r, ⟨hk, he⟩, .inr e.symm⟩
      · exact ⟨a, k, r, ⟨hk, he⟩, .inl ⟨e.symm, hx h1⟩⟩
    unfold sendTick at h
    split at h <;> rename_i hq
    · obtain ⟨a, k, r, e, hk, he⟩ := s.turn_effect
      rw [delay, e] at h
      injection h with h; subst h
      exact .settled a k r hp hq ⟨hk, he⟩
    · obtain ⟨a, k, r, ha, ⟨rfl, hx⟩ | ⟨b, q, rfl, hx⟩⟩ := drain _ h
      · exact .sendDrained a k r hp hq ha hx
      · exact .sendDiscarded a k r b q hp hq ha hx
    · obtain ⟨a, k, r, hk, he, e⟩ := foldl_txWrite_effect (commandFrame s.cmd1 s.cmd2) s
      rw [e] at h
      injection h with h; subst h
      exact .written a k r hp hq hk he
    · obtain ⟨a, k, r, ha, ⟨rfl, rfl⟩ | rfl⟩ := flush afterSend h
      · exact .sent a r hp hq ha
      · exact .flushHeld a k r hp (.inr (.inr hq)) ha
    · obtain ⟨a, k, r, ha, ⟨rfl, rfl⟩ | rfl⟩ := flush (fun u => u.atPoint .settle) h
      · exact .flushedBefore a r hp (.inl hq) ha
      · exact .flushHeld a k r hp (.inl hq) ha
    · obtain ⟨a, k, r, ha, ⟨rfl, rfl⟩ | rfl⟩ := flush (fun u => u.atPoint .settle) h
      · exact .flushedBefore a r hp (.inr hq) ha
      · exact .flushHeld a k r hp (.inr (.inl hq)) ha
  unfold tick at h
  split at h <;> rename_i hp
  · injection h with h; subst h
    exact .idle hp
  · exact send (.inr hp) h
  · exact send (.inl hp) h
  · obtain ⟨a, k, r, e, hk, he⟩ := s.turn_effect
    rw [delay, e] at h
    injection h with h; subst h
    exact .queryWaited a k r hp ⟨hk, he⟩
  · obtain ⟨a, k, r, hk, he, ⟨hx, e⟩ | ⟨q, hx, e⟩ | ⟨b, q, hx, hne, e⟩⟩ := syncTick_effect s <;> rw [e] at h <;>
      injection h with h <;> subst h
    · exact .syncExhausted a k r hp ⟨hk, he⟩ hx
    · exact .syncFound a k r q hp ⟨hk, he⟩ hx
    · exact .syncDiscarded a k r b q hp ⟨hk, he⟩ hx hne
  · obtain ⟨a, k, r, e, hk, he⟩ := s.turn_effect
    unfold lenchkTick rxAvail at h
    simp only [e] at h
    split at h <;> rename_i hl <;> injection h with h <;> subst h
    · exact .tooShort a k r hp ⟨hk, he⟩ hl
    · exact .longEnough a k r hp ⟨hk, he⟩ (Nat.le_of_not_lt hl)
  · obtain ⟨a, k, r, e, hk, he⟩ := s.turn_effect
    unfold captureTick at h
    simp only [e] at h
    split at h
    · cases h
    · rename_i hf
      split at h
      · cases h
      · rename_i hl
        injection h with h; subst h
        exact .captured a k r _ hp ⟨hk, he⟩ (Nat.le_of_not_lt hf) (Nat.le_of_not_lt hl) rfl
  · unfold swapTick at h
    split at h
    · cases h
    · rename_i hf
      injection h with h; subst h
      exact .swapped hp (Nat.le_of_not_lt hf)
  · unfold checkTick at h
    split at h
    · injection h with h; subst h
      cases hc : checksumOk s.mode s.fs.toNat s.buf
      · exact .checkFailed hp hc
      · exact .checkPassed hp hc
    · cases h
  · unfold commitTick at h
    injection h with h; subst h
    exact .committed _ hp rfl
  · split at h <;> rename_i hq
    · obtain ⟨a, k, r, e, hk, he⟩ := s.turn_effect
      rw [delay, e] at h
      injection h with h; subst h
      exact .drainSettled a k r hp hq ⟨hk, he⟩
    all_goals
      obtain ⟨a, k, r, ha, ⟨rfl, hx⟩ | ⟨b, q, rfl, hx⟩⟩ := drain _ h
      · exact .drainFinished a k r hp (by simp [hq]) ha hx
      · exact .drainDiscarded a k r b q hp (by simp [hq]) ha hx
  · unfold ackwaitTick at h
    split at h
    · rename_i hc
      injection h with h; subst h
      exact .ackComplete hp hc
    · rename_i hc
      obtain ⟨a, k, r, hk, he, ⟨e, hx⟩ | ⟨b, q, hx, e⟩ | ⟨e, hx, -⟩⟩ := rxReadRound_effect s <;> rw [e] at h <;>
        injection h with h <;> subst h
      · exact .ackTimedOut a k r hp (Nat.lt_of_not_le hc) ⟨hk, he⟩ hx
      · exact .ackByte a k r b q _ hp (Nat.lt_of_not_le hc) ⟨hk, he⟩ hx rfl
      · exact .ackHeld a k r hp (Nat.lt_of_not_le hc) ⟨hk, he⟩ hx
  · unfold ackchkTick at h
    injection h with h; subst h
    cases hc : ackOk (ackExpect s.act) s.buf
    · exact .unconfirmed hp hc
    · exact .confirmed hp hc

/-- What no tick changes: VARIANT, MODE, FS (R12, R13), RXTO (R37), and the model's count of draws and line. -/
theorem tick_same {s t : State} (h : tick s = .next t) :
    t.variant = s.variant ∧ t.mode = s.mode ∧ t.fs = s.fs ∧ t.rxto = s.rxto ∧ t.draws = s.draws ∧ t.line = s.line := by
  cases tick_cases h with
  | sent => unfold afterSend; split <;> exact ⟨rfl, rfl, rfl, rfl, rfl, rfl⟩
  | captured _ _ _ _ _ _ _ _ ht => subst ht; exact ⟨rfl, rfl, rfl, rfl, rfl, rfl⟩
  | committed _ _ ht => subst ht; exact ⟨rfl, rfl, rfl, rfl, rfl, rfl⟩
  | ackByte _ _ _ _ _ _ _ _ _ _ ht => subst ht; exact ⟨rfl, rfl, rfl, rfl, rfl, rfl⟩
  | _ => exact ⟨rfl, rfl, rfl, rfl, rfl, rfl⟩

/-- Only COMMIT writes the measurement registers (R16). -/
theorem tick_measurement {s t : State} (h : tick s = .next t) (hp : s.phase ≠ .commit) :
    SameMeasurement s t ∧ t.lmWritten = s.lmWritten := by
  cases tick_cases h with
  | sent => unfold afterSend; split <;> exact ⟨⟨rfl, rfl, rfl⟩, rfl⟩
  | captured _ _ _ _ _ _ _ _ ht => subst ht; exact ⟨⟨rfl, rfl, rfl⟩, rfl⟩
  | committed _ hc _ => exact absurd hc hp
  | ackByte _ _ _ _ _ _ _ _ _ _ ht => subst ht; exact ⟨⟨rfl, rfl, rfl⟩, rfl⟩
  | _ => exact ⟨⟨rfl, rfl, rfl⟩, rfl⟩

/-- Only CAPTURE, SWAP and ACKREAD write BUF (R10, R43). -/
theorem tick_buffer {s t : State} (h : tick s = .next t) (h1 : s.phase ≠ .capture) (h2 : s.phase ≠ .swap)
    (h3 : s.phase ≠ .ackwait) : t.buf = s.buf := by
  cases tick_cases h with
  | sent => unfold afterSend; split <;> rfl
  | captured _ _ _ _ hc => exact absurd hc h1
  | swapped hc => exact absurd hc h2
  | committed _ _ ht => subst ht; rfl
  | ackByte _ _ _ _ _ _ hc => exact absurd hc h3
  | _ => rfl

/-- The result registers are written at the end of an operation only (R19), and never inside SENDCMD. -/
theorem tick_results {s t : State} (h : tick s = .next t) (hp : t.phase ≠ .idle ∨ s.Sending) :
    t.status = s.status ∧ t.errkind = s.errkind ∧ t.data = s.data := by
  have no : ∀ p u, s.phase = p → p ≠ .cmdtx → p ≠ .qreq → t = u → u.phase = .idle → False := by
    rintro p u rfl h1 h2 rfl h3
    rcases hp with hp | hp | hp
    · exact hp h3
    · exact h1 hp
    · exact h2 hp
  cases tick_cases h with
  | sent => unfold afterSend; split <;> exact ⟨rfl, rfl, rfl⟩
  | captured _ _ _ _ _ _ _ _ ht => subst ht; exact ⟨rfl, rfl, rfl⟩
  | committed _ e ht => subst ht; exact (no _ _ e (by simp) (by simp) rfl rfl).elim
  | ackByte _ _ _ _ _ _ _ _ _ _ ht => subst ht; exact ⟨rfl, rfl, rfl⟩
  | tooShort _ _ _ e => exact (no _ _ e (by simp) (by simp) rfl rfl).elim
  | checkFailed e => exact (no _ _ e (by simp) (by simp) rfl rfl).elim
  | drainFinished _ _ _ e => exact (no _ _ e (by simp) (by simp) rfl rfl).elim
  | ackTimedOut _ _ _ e => exact (no _ _ e (by simp) (by simp) rfl rfl).elim
  | confirmed e => exact (no _ _ e (by simp) (by simp) rfl rfl).elim
  | unconfirmed e => exact (no _ _ e (by simp) (by simp) rfl rfl).elim
  | _ => exact ⟨rfl, rfl, rfl⟩

/-- Outside SENDCMD nothing is written to the transport: what was transmitted and what waits to be stay, in order (R35). -/
theorem tick_transmits {s t : State} (h : tick s = .next t) (hp : ¬ s.Sending) : t.txlog ++ t.txq = s.txlog ++ s.txq := by
  have mv : ∀ (u : State) a k r, u.txlog = s.txlog → u.txq = s.txq →
      (u.moved a k r).txlog ++ (u.moved a k r).txq = s.txlog ++ s.txq := by
    intro u a k r h1 h2; simp [h1, h2]
  cases tick_cases h with
  | flushHeld _ _ _ hs => exact absurd hs hp
  | flushedBefore _ _ hs => exact absurd hs hp
  | settled _ _ _ hs => exact absurd hs hp
  | sendDiscarded _ _ _ _ _ hs => exact absurd hs hp
  | sendDrained _ _ _ hs => exact absurd hs hp
  | written _ _ _ hs => exact absurd hs hp
  | sent _ _ hs => exact absurd hs hp
  | idle => rfl
  | queryWaited a k r => exact mv s a k r rfl rfl
  | syncExhausted a k r => exact mv s a k r rfl rfl
  | syncFound a k r => exact mv s a k r rfl rfl
  | syncDiscarded a k r b q => exact mv (s.withRxq q) [] k r rfl rfl
  | tooShort a k r => exact mv s a k r rfl rfl
  | longEnough a k r => exact mv s a k r rfl rfl
  | captured a k r _ _ _ _ _ ht => subst ht; exact mv s a k r rfl rfl
  | swapped => rfl
  | checkPassed => rfl
  | checkFailed => rfl
  | committed _ _ ht => subst ht; rfl
  | drainSettled a k r => exact mv s a k r rfl rfl
  | drainDiscarded a k r b q => exact mv (s.withRxq q) [] k r rfl rfl
  | drainFinished a k r => exact mv s a k r rfl rfl
  | ackComplete => rfl
  | ackTimedOut a k r => exact mv s a k r rfl rfl
  | ackByte a k r b q _ _ _ _ _ ht => subst ht; exact mv (s.withRxq q) [] k r rfl rfl
  | ackHeld a k r => exact mv s a k r rfl rfl
  | confirmed => rfl
  | unconfirmed => rfl

/-- What a tick does to RXQ and the timeline: bytes arrive as `Turns` says, and RXQ is the end of what it held followed by
them (R33, R39). -/
theorem tick_receives {s t : State} (h : tick s = .next t) :
    ∃ a, Turns s.phase s.inputs a t.inputs ∧ t.rxq <:+ s.rxq ++ a := by
  have drop : ∀ {a : List Byte} {b : Byte} {q : List Byte}, s.rxq ++ a = b :: q → q ++ [] <:+ s.rxq ++ a := by
    intro a b q e; rw [e, List.append_nil]; exact List.suffix_cons b q
  cases tick_cases h with
  | idle => exact ⟨[], Turns.refl _ _, by simp⟩
  | swapped => exact ⟨[], Turns.refl _ _, by simp⟩
  | checkPassed => exact ⟨[], Turns.refl _ _, by simp⟩
  | checkFailed => exact ⟨[], Turns.refl _ _, by simp⟩
  | committed _ _ ht => subst ht; exact ⟨[], Turns.refl _ _, by simp⟩
  | ackComplete => exact ⟨[], Turns.refl _ _, by simp⟩
  | confirmed => exact ⟨[], Turns.refl _ _, by simp⟩
  | unconfirmed => exact ⟨[], Turns.refl _ _, by simp⟩
  | flushHeld a k r _ _ ha => exact ⟨a, ha.2, by simp⟩
  | flushedBefore a r _ _ ha => exact ⟨a, ha.2, by simp⟩
  | settled a k r _ _ ha => exact ⟨a, ha.2, by simp⟩
  | sendDiscarded a k r b q _ _ ha hx => exact ⟨a, ha.2, drop hx⟩
  | sendDrained a k r _ _ ha hx => exact ⟨a, ha.2, by simp⟩
  | written a k r _ _ _ he => exact ⟨a, he, by simp⟩
  | sent a r _ _ ha =>
    refine ⟨a, ?_, ?_⟩
    · have : ∀ u, (afterSend u).inputs = u.inputs := by intro u; unfold afterSend; split <;> rfl
      rw [this]; exact ha.2
    · have : ∀ u, (afterSend u).rxq = u.rxq := by intro u; unfold afterSend; split <;> rfl
      rw [this]; simp
  | queryWaited a k r _ ha => exact ⟨a, ha.2, by simp⟩
  | syncExhausted a k r _ ha => exact ⟨a, ha.2, by simp [State.sought]⟩
  | syncFound a k r _ _ ha => exact ⟨a, ha.2, by simp [State.sought]⟩
  | syncDiscarded a k r b q _ ha hx => exact ⟨a, ha.2, drop hx⟩
  | tooShort a k r _ ha => exact ⟨a, ha.2, by simp⟩
  | longEnough a k r _ ha => exact ⟨a, ha.2, by simp⟩
  | captured a k r _ _ ha _ _ ht => subst ht; exact ⟨a, ha.2, List.drop_suffix _ _⟩
  | drainSettled a k r _ _ ha => exact ⟨a, ha.2, by simp⟩
  | drainDiscarded a k r b q _ _ ha hx => exact ⟨a, ha.2, drop hx⟩
  | drainFinished a k r _ _ ha => exact ⟨a, ha.2, by simp⟩
  | ackTimedOut a k r _ _ ha => exact ⟨a, ha.2, by simp⟩
  | ackByte a k r b q _ _ _ ha hx ht => subst ht; exact ⟨a, ha.2, drop hx⟩
  | ackHeld a k r _ _ ha => exact ⟨a, ha.2, by simp⟩

/-- Every tick keeps what was transmitted in front (R35, R39). -/
theorem tick_prefix {s t : State} (h : tick s = .next t) : s.txlog <+: t.txlog := by
  have : ∀ u, (afterSend u).txlog = u.txlog := by intro u; unfold afterSend; split <;> rfl
  cases tick_cases h with
  | captured _ _ _ _ _ _ _ _ ht => subst ht; simp
  | committed _ _ ht => subst ht; simp
  | ackByte _ _ _ _ _ _ _ _ _ _ ht => subst ht; simp
  | sent a r => rw [this]; simp
  | _ => simp

/-- Where SENDCMD stands in the transport (R140): `base` is what was written before it, `bytes` its command. -/
def SendLog (base bytes : List Byte) (s : State) : Prop :=
  s.Sending ∧ commandFrame s.cmd1 s.cmd2 = bytes ∧
    s.txlog ++ s.txq = if s.point = .flushAfter then base ++ bytes else base

/-- A tick inside SENDCMD stays inside it, in the same phase for the same operation, or leads out of it with TXQ empty and the
command transmitted after what was written before (R142). -/
theorem tick_sendLog {base bytes : List Byte} {s t : State} (h : tick s = .next t) (hs : SendLog base bytes s) :
    (SendLog base bytes t ∧ t.phase = s.phase ∧ t.act = s.act) ∨
    ∃ u, t = afterSend u ∧ u.phase = s.phase ∧ u.act = s.act ∧ u.txq = [] ∧ u.txlog = base ++ bytes := by
  obtain ⟨hp, hc, hl⟩ := hs
  have no : ∀ p, s.phase = p → p ≠ .cmdtx → p ≠ .qreq → False := by
    intro p h1 h2 h3; subst h1; rcases hp with hp | hp
    · exact h2 hp
    · exact h3 hp
  have stay : ∀ (u : State), u.phase = s.phase → u.act = s.act → u.cmd1 = s.cmd1 → u.cmd2 = s.cmd2 →
      u.txlog ++ u.txq = s.txlog ++ s.txq → (u.point = .flushAfter ↔ s.point = .flushAfter) →
      SendLog base bytes u ∧ u.phase = s.phase ∧ u.act = s.act := by
    intro u h1 h2 h3 h4 h5 h6
    refine ⟨⟨by rw [State.Sending, h1]; exact hp, by rw [h3, h4]; exact hc, ?_⟩, h1, h2⟩
    rw [h5, hl]; simp [h6]
  cases tick_cases h with
  | flushHeld a k r => exact .inl (stay _ rfl rfl rfl rfl (by simp) Iff.rfl)
  | flushedBefore a r _ hq => exact .inl (stay _ rfl rfl rfl rfl (by simp) (by rcases hq with hq | hq <;> simp [hq]))
  | settled a k r _ hq => exact .inl (stay _ rfl rfl rfl rfl (by simp) (by simp [hq]))
  | sendDiscarded a k r b q _ hq => exact .inl (stay _ rfl rfl rfl rfl (by simp) (by simp))
  | sendDrained a k r _ hq => exact .inl (stay _ rfl rfl rfl rfl (by simp) (by simp [hq]))
  | written a k r _ hq =>
    refine .inl ⟨⟨hp, hc, ?_⟩, rfl, rfl⟩
    simp only [State.atPoint_point, if_true, State.atPoint_txlog, State.atPoint_txq, State.moved_txlog, State.moved_txq,
      State.withTxq_txq, State.withTxq_txlog, List.append_assoc, List.take_append_drop]
    rw [← List.append_assoc, hl, hc, hq]
    simp
  | sent a r _ hq =>
    refine .inr ⟨_, rfl, rfl, rfl, by simp, ?_⟩
    rw [if_pos hq] at hl
    simpa using hl
  | idle e => exact (no _ e (by simp) (by simp)).elim
  | queryWaited _ _ _ e => exact (no _ e (by simp) (by simp)).elim
  | syncExhausted _ _ _ e => exact (no _ e (by simp) (by simp)).elim
  | syncFound _ _ _ _ e => exact (no _ e (by simp) (by simp)).elim
  | syncDiscarded _ _ _ _ _ e => exact (no _ e (by simp) (by simp)).elim
  | tooShort _ _ _ e => exact (no _ e (by simp) (by simp)).elim
  | longEnough _ _ _ e => exact (no _ e (by simp) (by simp)).elim
  | captured _ _ _ _ e => exact (no _ e (by simp) (by simp)).elim
  | swapped e => exact (no _ e (by simp) (by simp)).elim
  | checkPassed e => exact (no _ e (by simp) (by simp)).elim
  | checkFailed e => exact (no _ e (by simp) (by simp)).elim
  | committed _ e => exact (no _ e (by simp) (by simp)).elim
  | drainSettled _ _ _ e => exact (no _ e (by simp) (by simp)).elim
  | drainDiscarded _ _ _ _ _ e => exact (no _ e (by simp) (by simp)).elim
  | drainFinished _ _ _ e => exact (no _ e (by simp) (by simp)).elim
  | ackComplete e => exact (no _ e (by simp) (by simp)).elim
  | ackTimedOut _ _ _ e => exact (no _ e (by simp) (by simp)).elim
  | ackByte _ _ _ _ _ _ e => exact (no _ e (by simp) (by simp)).elim
  | ackHeld _ _ _ e => exact (no _ e (by simp) (by simp)).elim
  | confirmed e => exact (no _ e (by simp) (by simp)).elim
  | unconfirmed e => exact (no _ e (by simp) (by simp)).elim

end Sys2Proof.Machine
end

