-- ==== Sys2Proof/Laws/Ack.lean ====
section
/-! SUPPORT. Everything ACKREAD can do while the environment does what it likes (spec/45_power.md rule R130): one relation that
every tick in ACKWAIT keeps, and the three ways out of it. -/

namespace Sys2Proof.Machine

/-- A run of bytes written and one more behind it. -/
theorem Memory.writeList_append (m : Memory) (o : Nat) (g : List Byte) (b : Byte) :
    m.writeList o (g ++ [b]) = (m.writeList o g).write (o + g.length) b := by
  induction g generalizing m o with
  | nil => rfl
  | cons a g ih => simp only [List.cons_append, Memory.writeList, ih, List.length_cons]; congr 1; omega

/-- Where ACKREAD, entered at `y` with TXQ empty, has come to at `z`: the bytes `x` arrived, and the bytes `g` were read and
stand in BUF from offset 0. -/
structure AckAt (y z : State) (x g : List Byte) : Prop where
  rest : z = { y with inputs := z.inputs, rxq := z.rxq, buf := y.buf.writeList 0 g, ackCount := g.length }
  phase : y.phase = .ackwait
  txq : y.txq = []
  turns : Turns .ackwait y.inputs x z.inputs
  read : y.rxq ++ x = g ++ z.rxq
  le : g.length ≤ params.ackLen

/-- ACKREAD's start. -/
theorem AckAt.start {y : State} (hp : y.phase = .ackwait) (hx : y.txq = []) (hc : y.ackCount = 0) : AckAt y y [] [] where
  rest := by cases y; simp only at hc; subst hc; rfl
  phase := hp
  txq := hx
  turns := Turns.refl _ _
  read := by simp
  le := Nat.zero_le _

/-- A tick in ACKWAIT goes on reading, or finds nine bytes read, or, with nothing left to read, ends in a Timeout. -/
theorem tick_ackAt {y z t : State} {x g : List Byte} (h : AckAt y z x g) (ht : tick z = .next t) :
    (∃ a f, AckAt y t (x ++ a) f ∧ Turns .ackwait z.inputs a t.inputs) ∨ (t = z.goto .ackchk ∧ g.length = params.ackLen) ∨
    ∃ a r, t = State.fail { z with rxq := [], inputs := r } .cmdNotConfirmed ∧ Turns .ackwait z.inputs a r ∧
      y.rxq ++ (x ++ a) = g ∧ g.length < params.ackLen := by
  have zp : z.phase = .ackwait := by rw [h.rest]; exact h.phase
  have zx : z.txq = [] := by rw [h.rest]; exact h.txq
  have zc : z.ackCount = g.length := by rw [h.rest]
  have no : ∀ {p}, z.phase = p → p ≠ .ackwait → False := by rintro p rfl h2; exact h2 zp
  have sn : ¬ z.Sending := by simp [State.Sending, zp]
  have mv : ∀ a k r, z.moved a k r = { z with rxq := z.rxq ++ a, inputs := r } := by
    intro a k r; cases z; simp only at zx; subst zx; simp [State.moved]
  have tr : ∀ {a k r}, z.Allows a k r → Turns .ackwait z.inputs a r := by
    intro a k r ha; rw [← zp]; exact ha.2
  have rd : ∀ a, y.rxq ++ (x ++ a) = g ++ (z.rxq ++ a) := by
    intro a; rw [← List.append_assoc, h.read, List.append_assoc]
  cases tick_cases ht with
  | flushHeld _ _ _ hs => exact absurd hs sn
  | flushedBefore _ _ hs => exact absurd hs sn
  | settled _ _ _ hs => exact absurd hs sn
  | sendDiscarded _ _ _ _ _ hs => exact absurd hs sn
  | sendDrained _ _ _ hs => exact absurd hs sn
  | written _ _ _ hs => exact absurd hs sn
  | sent _ _ hs => exact absurd hs sn
  | idle e => exact (no e (by simp)).elim
  | queryWaited _ _ _ e => exact (no e (by simp)).elim
  | syncExhausted _ _ _ e => exact (no e (by simp)).elim
  | syncFound _ _ _ _ e => exact (no e (by simp)).elim
  | syncDiscarded _ _ _ _ _ e => exact (no e (by simp)).elim
  | tooShort _ _ _ e => exact (no e (by simp)).elim
  | longEnough _ _ _ e => exact (no e (by simp)).elim
  | captured _ _ _ _ e => exact (no e (by simp)).elim
  | swapped e => exact (no e (by simp)).elim
  | checkPassed e => exact (no e (by simp)).elim
  | checkFailed e => exact (no e (by simp)).elim
  | committed _ e => exact (no e (by simp)).elim
  | drainSettled _ _ _ e => exact (no e (by simp)).elim
  | drainDiscarded _ _ _ _ _ e => exact (no e (by simp)).elim
  | drainFinished _ _ _ e => exact (no e (by simp)).elim
  | confirmed e => exact (no e (by simp)).elim
  | unconfirmed e => exact (no e (by simp)).elim
  | ackComplete e hc => exact .inr (.inl ⟨rfl, Nat.le_antisymm h.le (zc ▸ hc)⟩)
  | ackTimedOut a k r e hc ha hx =>
    refine .inr (.inr ⟨a, r, by rw [mv, hx], tr ha, ?_, zc ▸ hc⟩)
    rw [rd, hx, List.append_nil]
  | ackByte a k r b q _ e hc ha hx hteq =>
    refine .inl ⟨a, g ++ [b], ⟨?_, h.phase, h.txq, ?_, ?_, ?_⟩, by rw [hteq]; exact tr ha⟩
    · have : (z.withRxq q).moved [] k r = { z with rxq := q, inputs := r } := by
        cases z; simp only at zx; subst zx; simp [State.moved, State.withRxq]
      rw [hteq, this, h.rest, Memory.writeList_append, List.length_append]
      simp
    · rw [hteq]; exact h.turns.trans (tr ha)
    · rw [rd, hx, hteq]; simp
    · rw [List.length_append, ← zc]; exact hc
  | ackHeld a k r e hc ha hx =>
    refine .inl ⟨a, g, ⟨?_, h.phase, h.txq, h.turns.trans (tr ha), rd a, h.le⟩, tr ha⟩
    rw [mv, h.rest]

end Sys2Proof.Machine
end

