-- ==== Sys2Proof/Laws/Buffer.lean ====
section
/-! SUPPORT. Which work of the engine leaves BUF alone and does not look at it (spec/10_state.md rule R18): everything but CAPTURE,
SWAP, CHECK, COMMIT, ACKREAD and the test of its bytes. Said by commuting with a change of BUF's contents. -/

namespace Sys2Proof.Machine

/-- The state with other contents of BUF. -/
def State.withBuf (s : State) (m : Memory) : State := { s with buf := m }

@[simp] theorem State.withBuf_mode (s : State) (m : Memory) : (s.withBuf m).mode = s.mode := rfl
@[simp] theorem State.withBuf_fs (s : State) (m : Memory) : (s.withBuf m).fs = s.fs := rfl
@[simp] theorem State.withBuf_phase (s : State) (m : Memory) : (s.withBuf m).phase = s.phase := rfl
@[simp] theorem State.withBuf_buf (s : State) (m : Memory) : (s.withBuf m).buf = m := rfl
@[simp] theorem State.withBuf_rxq (s : State) (m : Memory) : (s.withBuf m).rxq = s.rxq := rfl
@[simp] theorem State.withBuf_txq (s : State) (m : Memory) : (s.withBuf m).txq = s.txq := rfl
@[simp] theorem State.withBuf_act (s : State) (m : Memory) : (s.withBuf m).act = s.act := rfl
@[simp] theorem State.withBuf_point (s : State) (m : Memory) : (s.withBuf m).point = s.point := rfl
@[simp] theorem State.withBuf_found (s : State) (m : Memory) : (s.withBuf m).found = s.found := rfl
@[simp] theorem State.withBuf_cmd1 (s : State) (m : Memory) : (s.withBuf m).cmd1 = s.cmd1 := rfl
@[simp] theorem State.withBuf_cmd2 (s : State) (m : Memory) : (s.withBuf m).cmd2 = s.cmd2 := rfl
@[simp] theorem State.withBuf_flushCount (s : State) (m : Memory) : (s.withBuf m).flushCount = s.flushCount := rfl
@[simp] theorem State.withBuf_inputs (s : State) (m : Memory) : (s.withBuf m).inputs = s.inputs := rfl
@[simp] theorem State.withBuf_line (s : State) (m : Memory) : (s.withBuf m).line = s.line := rfl

/-- An outcome with other contents of BUF. -/
def Result.withBuf (r : Result) (m : Memory) : Result :=
  match r with
  | .next t => .next (t.withBuf m)
  | .fault f => .fault f
  | .refused x => .refused x

theorem depart_withBuf (s : State) (m : Memory) : (s.withBuf m).depart = s.depart.withBuf m := by
  cases h : s.txq <;> simp [State.depart, h, State.withBuf]

theorem envMoves_withBuf (w : Bool) (ins : List Input) (s : State) (m : Memory) :
    envMoves w ins (s.withBuf m) = ((envMoves w ins s).1, (envMoves w ins s).2.withBuf m) := by
  induction ins generalizing s with
  | nil => rfl
  | cons i r ih =>
    cases i with
    | host x => rfl
    | pass => rfl
    | endless e => rfl
    | rx bs => exact ih (s.arrive bs)
    | depart => simp only [envMoves, depart_withBuf]; exact ih _
    | timeout =>
      cases h : w && s.rxq.isEmpty
      · simpa [envMoves, h] using ih s
      · simp only [envMoves, State.withBuf_rxq, h, if_true]; rfl
    | waitFor p =>
      by_cases h : s.phase = p
      · simpa [envMoves, h] using ih s
      · simp only [envMoves, State.withBuf_phase, h, if_false]; rfl

@[simp] theorem turn_withBuf (s : State) (m : Memory) : (s.withBuf m).turn = s.turn.withBuf m := by
  rw [State.turn, State.withBuf_inputs, envMoves_withBuf]; rfl

theorem rxAvail_withBuf (s : State) (m : Memory) : rxAvail (s.withBuf m) = ((rxAvail s).1, (rxAvail s).2.withBuf m) := by
  simp only [rxAvail, turn_withBuf, State.withBuf_rxq]

theorem rxPeek_withBuf (s : State) (m : Memory) : rxPeek (s.withBuf m) = (rxPeek s).map fun p => (p.1, p.2.withBuf m) := by
  cases h : s.turn.rxq <;> simp [rxPeek, h]

theorem rxRead_withBuf (s : State) (m : Memory) : rxRead (s.withBuf m) = (rxRead s).map fun p => (p.1, p.2.withBuf m) := by
  cases h : s.turn.rxq <;> simp [rxRead, h] <;> rfl

theorem txFlush_withBuf (s : State) (m : Memory) : txFlush (s.withBuf m) = ((txFlush s).1, (txFlush s).2.withBuf m) := by
  simp only [txFlush, turn_withBuf, State.withBuf_txq, State.withBuf_inputs, State.withBuf_line, depart_withBuf]
  by_cases h : s.turn.txq = []
  · simp [h]
  · simp only [h, if_false]
    split <;> rfl

theorem foldl_txWrite_withBuf (bs : List Byte) (s : State) (m : Memory) :
    bs.foldl txWrite (s.withBuf m) = (bs.foldl txWrite s).withBuf m := by
  induction bs generalizing s with
  | nil => rfl
  | cons b r ih =>
    rw [List.foldl_cons, List.foldl_cons, ← ih]
    simp only [txWrite, turn_withBuf]
    rfl

theorem rxReadRound_withBuf (s : State) (m : Memory) :
    rxReadRound (s.withBuf m) = ((rxReadRound s).1, (rxReadRound s).2.withBuf m) := by
  unfold rxReadRound
  simp only [State.withBuf_inputs, envMoves_withBuf]
  cases h1 : (envMoves true s.inputs s).1
  · simp only [Bool.false_eq_true, if_false, State.withBuf_rxq]
    cases h2 : (envMoves true s.inputs s).2.rxq with
    | cons b q => rfl
    | nil =>
      simp only
      by_cases h3 : (envMoves true s.inputs s).2.inputs.length = s.inputs.length ∧
          (envMoves true s.inputs s).2.line.timesOut = true
      · rw [if_pos (by exact h3), if_pos h3]
      · rw [if_neg (by exact h3), if_neg h3]
  · rfl

theorem drainTick_withBuf {f : State → State} (s : State) (m : Memory) (hf : ∀ u : State, f (u.withBuf m) = (f u).withBuf m) :
    drainTick f (s.withBuf m) = (drainTick f s).withBuf m := by
  unfold drainTick
  simp only [rxAvail_withBuf, rxRead_withBuf]
  by_cases h : (rxAvail s).1 = 0
  · simp only [h, if_true, hf]; rfl
  · simp only [h, if_false]
    cases rxRead (rxAvail s).2 <;> rfl

theorem afterSend_withBuf (s : State) (m : Memory) : afterSend (s.withBuf m) = (afterSend s).withBuf m := by
  cases hp : s.phase <;> cases ha : s.act <;> simp only [afterSend, State.withBuf_phase, State.withBuf_act, hp, ha] <;> rfl

theorem sendTick_withBuf (s : State) (m : Memory) : sendTick (s.withBuf m) = (sendTick s).withBuf m := by
  cases hq : s.point <;> simp only [sendTick, State.withBuf_point, hq]
  case start => simp only [txFlush_withBuf]; split <;> rfl
  case flushBefore => simp only [txFlush_withBuf]; split <;> rfl
  case settle => simp only [delay, turn_withBuf]; rfl
  case drain => exact drainTick_withBuf s m fun _ => rfl
  case write => simp only [State.withBuf_cmd1, State.withBuf_cmd2, foldl_txWrite_withBuf]; rfl
  case flushAfter =>
    simp only [txFlush_withBuf]
    split
    · rw [afterSend_withBuf]; rfl
    · rfl

theorem syncTick_withBuf (s : State) (m : Memory) : syncTick (s.withBuf m) = (syncTick s).withBuf m := by
  unfold syncTick
  simp only [rxAvail_withBuf, rxPeek_withBuf]
  by_cases h : (rxAvail s).1 = 0
  · simp only [h, if_true]; rfl
  · simp only [h, if_false]
    cases rxPeek (rxAvail s).2 with
    | none => rfl
    | some p =>
      simp only [Option.map_some, State.withBuf_mode]
      by_cases hb : p.1 = marker p.2.mode
      · simp only [hb, if_true]; rfl
      · simp only [hb, if_false, rxRead_withBuf]
        cases rxRead p.2 <;> rfl

theorem lenchkTick_withBuf (s : State) (m : Memory) : lenchkTick (s.withBuf m) = (lenchkTick s).withBuf m := by
  simp only [lenchkTick, rxAvail_withBuf, State.withBuf_fs, State.withBuf_found]
  split <;> rfl

/-- Outside CAPTURE, SWAP, CHECK, COMMIT, ACKREAD and its test, BUF is neither read nor written. -/
theorem tick_withBuf {s : State} (m : Memory) (h1 : s.phase ≠ .capture) (h2 : s.phase ≠ .swap) (h3 : s.phase ≠ .check)
    (h4 : s.phase ≠ .commit) (h5 : s.phase ≠ .ackwait) (h6 : s.phase ≠ .ackchk) : tick (s.withBuf m) = (tick s).withBuf m := by
  unfold tick
  rw [State.withBuf_phase]
  cases hp : s.phase <;> simp only [hp] at h1 h2 h3 h4 h5 h6 ⊢
  case idle => rfl
  case qreq => exact sendTick_withBuf s m
  case cmdtx => exact sendTick_withBuf s m
  case qwait => simp only [delay, turn_withBuf]; rfl
  case sync => exact syncTick_withBuf s m
  case lenchk => exact lenchkTick_withBuf s m
  case drain =>
    rw [State.withBuf_point]
    cases s.point
    case settle => simp only [delay, turn_withBuf]; rfl
    all_goals exact drainTick_withBuf s m fun _ => rfl
  all_goals contradiction

end Sys2Proof.Machine
end

