-- ==== Sys2Proof/Laws/Encoding.lean ====
section
/-! SUPPORT. The byte order of the 2-byte fields (spec/20_memory.md rule R40): taking a field apart and putting it together,
as a number and on the wire. -/

namespace Sys2Proof

theorem be16_toNat (h l : Byte) : (be16 h l).toNat = h.toNat * 256 + l.toNat := by
  unfold be16
  change BitVec.toNat (h ++ l) = _
  rw [BitVec.toNat_append, Nat.shiftLeft_eq, Nat.mul_comm, ← Nat.two_pow_add_eq_or_of_lt l.isLt, Nat.mul_comm]

theorem hiByte_toNat (v : Half) : (hiByte v).toNat = v.toNat / 256 := by
  unfold hiByte
  rw [BitVec.extractLsb'_toNat, Nat.shiftRight_eq_div_pow]
  have := v.isLt
  omega

theorem loByte_toNat (v : Half) : (loByte v).toNat = v.toNat % 256 := by
  unfold loByte
  rw [BitVec.extractLsb'_toNat, Nat.shiftRight_eq_div_pow]
  simp

@[simp] theorem be16_hiByte_loByte (v : Half) : be16 (hiByte v) (loByte v) = v := by
  apply BitVec.eq_of_toNat_eq
  rw [be16_toNat, hiByte_toNat, loByte_toNat]; omega

@[simp] theorem hiByte_be16 (h l : Byte) : hiByte (be16 h l) = h := by
  apply BitVec.eq_of_toNat_eq
  rw [hiByte_toNat, be16_toNat]; have := l.isLt; omega

@[simp] theorem loByte_be16 (h l : Byte) : loByte (be16 h l) = l := by
  apply BitVec.eq_of_toNat_eq
  rw [loByte_toNat, be16_toNat]; have := l.isLt; omega

/-- The two byte orders name one number (R6). -/
theorem le16_eq_be16 (l h : Byte) : le16 l h = be16 h l := rfl

theorem halvesWire_append (a b : List Half) : halvesWire (a ++ b) = halvesWire a ++ halvesWire b := by
  induction a with
  | nil => rfl
  | cons v vs ih => simp [halvesWire, ih]

@[simp] theorem halvesWire_length (hs : List Half) : (halvesWire hs).length = 2 * hs.length := by
  induction hs with
  | nil => rfl
  | cons v vs ih => simp only [halvesWire, List.length_cons, ih]; omega

/-- Fields read from the wire where they stand. -/
theorem takeHalves_halvesWire (hs : List Half) (r : List Byte) :
    takeHalves hs.length (halvesWire hs ++ r) = some (hs, r) := by
  induction hs with
  | nil => rfl
  | cons v vs ih => simp [takeHalves, halvesWire, ih]

/-- What was read as fields stood on the wire. -/
theorem halvesWire_of_takeHalves {n : Nat} {bs : List Byte} {hs : List Half} {r : List Byte}
    (h : takeHalves n bs = some (hs, r)) : bs = halvesWire hs ++ r ∧ hs.length = n := by
  induction n generalizing bs hs r with
  | zero =>
    simp only [takeHalves, Option.some.injEq, Prod.mk.injEq] at h
    obtain ⟨rfl, rfl⟩ := h
    simp [halvesWire]
  | succ n ih =>
    match bs with
    | [] => simp [takeHalves] at h
    | [_] => simp [takeHalves] at h
    | a :: b :: q =>
      simp only [takeHalves] at h
      cases h2 : takeHalves n q with
      | none => rw [h2] at h; simp at h
      | some p =>
        obtain ⟨hs', r'⟩ := p
        rw [h2] at h
        simp only [Option.some.injEq, Prod.mk.injEq] at h
        obtain ⟨rfl, rfl⟩ := h
        obtain ⟨e1, e2⟩ := ih h2
        simp [halvesWire, e2, ← e1]

end Sys2Proof
end

