-- ==== Sys2Proof/Laws/Checksum.lean ====
section
/-! SUPPORT. SWAP and the two sums as functions of the bytes that BUF reads (spec/42_parse.md rule R100, spec/43_checksum.md rules
R111, R113 and R115). -/

namespace Sys2Proof.Machine

/-- The first `k` exchanges of SWAP, byte by byte (R100). -/
theorem Memory.read_swapPairs {m : Memory} (k x : Nat) (hm : m.wf = true) :
    Memory.read (((List.range k).map fun i => 2 + 2 * i).foldl exchange m) x =
      if 2 ≤ x ∧ x < 2 + 2 * k then Memory.read m (if x % 2 = 0 then x + 1 else x - 1) else Memory.read m x := by
  induction k generalizing x with
  | zero => rw [if_neg (by omega)]; rfl
  | succ k ih =>
    rw [List.range_succ, List.map_append, List.foldl_append, List.map_singleton, List.foldl_cons, List.foldl_nil,
      Memory.read_exchange _ _ (Memory.wf_swapFold _ hm)]
    by_cases h1 : x = 2 + 2 * k
    · subst h1
      rw [if_pos rfl, ih, if_neg (by omega), if_pos (by omega), if_pos (by omega)]
    by_cases h2 : x = 2 + 2 * k + 1
    · subst h2
      rw [if_neg (by omega), if_pos rfl, ih, if_neg (by omega), if_pos (by omega), if_neg (by omega)]
      rfl
    · rw [if_neg h1, if_neg h2, ih]
      by_cases h3 : 2 ≤ x ∧ x < 2 + 2 * k
      · rw [if_pos h3, if_pos (show 2 ≤ x ∧ x < 2 + 2 * (k + 1) by omega)]
      · rw [if_neg h3, if_neg (show ¬(2 ≤ x ∧ x < 2 + 2 * (k + 1)) by omega)]

/-- SWAP in PushMode, byte by byte: every byte from offset 2 on goes to the other place of its pair. -/
theorem read_swap_push {b : Memory} {n : Nat} (x : Nat) (hb : b.wf = true) (he : n % 2 = 0) (h2 : 2 ≤ n) :
    (swapBuf .push n b).read x =
      if 2 ≤ x ∧ x < n then b.read (if x % 2 = 0 then x + 1 else x - 1) else b.read x := by
  have := Memory.read_swapPairs ((n - 2) / 2) x hb
  rw [show 2 + 2 * ((n - 2) / 2) = n by omega] at this
  exact this

/-- SWAP in QueryMode, byte by byte: the three pairs from offset 2 to offset 7. -/
theorem read_swap_query {b : Memory} (n x : Nat) (hb : b.wf = true) :
    (swapBuf .query n b).read x =
      if 2 ≤ x ∧ x < 8 then b.read (if x % 2 = 0 then x + 1 else x - 1) else b.read x :=
  Memory.read_swapPairs 3 x hb

theorem wf_swapBuf {b : Memory} (m : Mode) (n : Nat) (hb : b.wf = true) : (swapBuf m n b).wf = true :=
  Memory.wf_swapFold _ hb

/-! ## Sums -/

/-- A 16-bit sum of bytes, as a number. -/
theorem sum16_toNat (f : Nat → Byte) (os : List Nat) (a : Half) :
    (os.foldl (fun acc i => acc + (f i).setWidth 16) a).toNat = (a.toNat + (os.map fun i => (f i).toNat).sum) % 65536 := by
  induction os generalizing a with
  | nil => simp [Nat.mod_eq_of_lt a.isLt]
  | cons o r ih =>
    rw [List.foldl_cons, ih, List.map_cons, List.sum_cons, BitVec.toNat_add, BitVec.toNat_setWidth]
    have := (f o).isLt
    omega

/-- An 8-bit sum of bytes, as a number. -/
theorem sum8_toNat (f : Nat → Byte) (os : List Nat) (a : Byte) :
    (os.foldl (fun acc i => acc + f i) a).toNat = (a.toNat + (os.map fun i => (f i).toNat).sum) % 256 := by
  induction os generalizing a with
  | nil => simp [Nat.mod_eq_of_lt a.isLt]
  | cons o r ih =>
    rw [List.foldl_cons, ih, List.map_cons, List.sum_cons, BitVec.toNat_add]
    omega

/-- CK16 as a number (R111). -/
theorem ck16_toNat (m : Memory) (n : Nat) :
    (ck16 m n).toNat = ((List.range (n - 2)).map fun i => (m.read i).toNat).sum % 65536 := by
  rw [ck16, sum16_toNat]; simp

/-- `neg8` as a number (R6, R113). -/
theorem neg8_toNat (b : Byte) : (neg8 b).toNat = (256 - b.toNat) % 256 := by
  have : neg8 b = -b := by rw [neg8, BitVec.neg_eq_not_add]; rfl
  rw [this, BitVec.toNat_neg]

/-- CK8 as a number (R113). -/
theorem ck8_toNat (m : Memory) (n : Nat) :
    (ck8 m n).toNat = (256 - ((List.range (n - 2)).map fun i => (m.read (i + 1)).toNat).sum % 256) % 256 := by
  rw [ck8, neg8_toNat, sum8_toNat (fun i => m.read (i + 1))]; simp

/-- Two sums are one when every byte summed is. -/
theorem ck16_congr {a b : Memory} {n : Nat} (h : ∀ i, i < n - 2 → a.read i = b.read i) : ck16 a n = ck16 b n := by
  apply BitVec.eq_of_toNat_eq
  rw [ck16_toNat, ck16_toNat, List.map_congr_left fun i hi => by rw [h i (List.mem_range.1 hi)]]

theorem ck8_congr {a b : Memory} {n : Nat} (h : ∀ i, i < n - 2 → a.read (i + 1) = b.read (i + 1)) : ck8 a n = ck8 b n := by
  apply BitVec.eq_of_toNat_eq
  rw [ck8_toNat, ck8_toNat, List.map_congr_left fun i hi => by rw [h i (List.mem_range.1 hi)]]

/-- A sum over pairs is the same with every pair exchanged. -/
theorem sum_pairs (f : Nat → Nat) (k : Nat) :
    ((List.range (2 * k)).map fun i => f (if i % 2 = 0 then i + 1 else i - 1)).sum = ((List.range (2 * k)).map f).sum := by
  induction k with
  | zero => rfl
  | succ k ih =>
    rw [show 2 * (k + 1) = 2 * k + 1 + 1 by ring, List.range_succ, List.range_succ]
    simp only [List.map_append, List.sum_append, ih, List.map_cons, List.map_nil, List.sum_cons, List.sum_nil]
    rw [if_pos (by omega), if_neg (by omega)]
    simp only [Nat.add_sub_cancel]
    omega

end Sys2Proof.Machine
end

