-- ==== Sys2Proof/Laws/Run.lean ====
section
/-! SUPPORT. Runs of the state machine (spec/60_exceptions.md rules R156, R159 and R164): how a run unrolls, what it keeps, and
that under the premises of R159 it ends. -/

namespace Sys2Proof.Machine

/-! ## Progress -/

/-- The rank looks at the place only. -/
theorem State.rank_congr {s t : State} (h : t.phase = s.phase) (hp : t.point = s.point) : t.rank = s.rank := by
  unfold State.rank; rw [h, hp]

theorem State.rank_le (s : State) : s.rank ≤ 33 := by
  unfold State.rank
  split
  case h_2 => cases s.point <;> decide
  case h_3 => cases s.point <;> decide
  all_goals first | omega | (split <;> omega)

/-- Under FiniteArrivals, TxProgress in SENDCMD and, where ACKREAD waits, a fair Timeout, every tick of an operation in progress
uses up a byte, an entry of the timeline, or a place of the state machine; and the environment keeps its character. -/
theorem tick_uses {s t : State} (f3 : finiteInputs s.inputs = true) (f1 : s.Sending → s.line.txProgress = true)
    (f2 : s.phase = .ackwait → s.ackCount < params.ackLen → s.rxq = [] → s.line.timesOut = true) (hp : s.phase ≠ .idle)
    (h : tick s = .next t) :
    t.line = s.line ∧ finiteInputs t.inputs = true ∧ t.work + t.rank < s.work + s.rank := by
  have le : ∀ {m u : State}, m.work ≤ s.work → u.work = m.work → u.rank < s.rank → u.work + u.rank < s.work + s.rank := by
    intros; omega
  have less : ∀ {m u : State}, m.work < s.work → u.work = m.work → u.rank ≤ s.rank → u.work + u.rank < s.work + s.rank := by
    intros; omega
  have fin : ∀ {a : List Byte} {r : List Input}, Turns s.phase s.inputs a r → finiteInputs r = true :=
    fun he => (he.finite hp f3).2
  have turn : ∃ m, s.turn = m ∧ m.line = s.line ∧ m.work ≤ s.work ∧ m.phase = s.phase ∧ m.point = s.point ∧
      finiteInputs m.inputs = true := by
    obtain ⟨a, k, r, e, hk, he⟩ := s.turn_effect
    exact ⟨_, e, rfl, State.work_moved he hp f3, rfl, rfl, fin he⟩
  have flush : ∃ m, (txFlush s).2 = m ∧ m.line = s.line ∧ m.work ≤ s.work ∧ m.phase = s.phase ∧ m.point = s.point ∧
      finiteInputs m.inputs = true ∧ (s.Sending → (txFlush s).1 = false → m.work < s.work) := by
    obtain ⟨a, k, r, e, hk, he, -, hx⟩ := txFlush_effect s
    have hbl := congrArg List.length (he.finite hp f3).1
    rw [List.length_append] at hbl
    refine ⟨_, e, rfl, State.work_moved he hp f3, rfl, rfl, fin he, fun hs h1 => ?_⟩
    have := hx h1 (f1 hs)
    simp only [State.work, State.moved_inputs, State.moved_rxq, State.moved_txq, List.length_append]
    omega
  have drain : ∀ finish : State → State, drainTick finish s = .next t →
      (∀ m, m.phase = s.phase → m.point = s.point → m.line = s.line → m.work ≤ s.work →
        (finish m).line = m.line ∧ (finish m).inputs = m.inputs ∧ (finish m).work = m.work ∧ (finish m).rank < s.rank) →
      t.line = s.line ∧ finiteInputs t.inputs = true ∧ t.work + t.rank < s.work + s.rank := by
    intro finish e hfin
    obtain ⟨a, k, r, hk, he, ⟨e', -⟩ | ⟨b, q, e', hq⟩⟩ := drainTick_effect finish s
    · rw [e'] at e
      injection e with e
      subst e
      obtain ⟨g1, g0, g2, g3⟩ := hfin (s.moved a k r) rfl rfl rfl (State.work_moved he hp f3)
      exact ⟨g1, by rw [g0]; exact fin he, le (State.work_moved he hp f3) g2 g3⟩
    · rw [e'] at e
      injection e with e
      subst e
      refine ⟨rfl, fin he, ?_⟩
      have hbl := congrArg List.length (he.finite hp f3).1
      rw [List.length_append] at hbl
      have hl := congrArg List.length hq
      simp only [List.length_append, List.length_cons] at hl
      have hle := he.length_le
      have : ((s.withRxq q).moved [] k r).counted.rank = s.rank := State.rank_congr rfl rfl
      rw [this]
      simp only [State.work, State.counted_inputs, State.counted_rxq, State.counted_txq, State.moved_inputs, State.moved_rxq,
        State.moved_txq, State.withRxq_rxq, State.withRxq_txq, List.length_append, List.length_nil, List.length_drop]
      omega
  obtain ⟨m, hm, m1, m2, m3, m4, m5⟩ := turn
  obtain ⟨w, hw, w1, w2, w3, w4, w5, w6⟩ := flush
  have send : (s.phase = .cmdtx ∨ s.phase = .qreq) → sendTick s = .next t →
      t.line = s.line ∧ finiteInputs t.inputs = true ∧ t.work + t.rank < s.work + s.rank := by
    intro hph h
    have rk : ∀ u : State, u.phase = s.phase → u.rank = State.rank.sendRank u.point := by
      intro u hu; unfold State.rank; rw [hu]; rcases hph with hph | hph <;> rw [hph]
    unfold sendTick at h
    split at h
    · rename_i hpt
      injection h with h; subst h
      rw [delay, hm]
      refine ⟨m1, m5, le m2 rfl ?_⟩
      rw [rk s rfl, hpt, rk m.startDrain m3, State.startDrain_point]; decide
    · rename_i hpt
      refine drain _ h fun u u1 u2 u3 u4 => ⟨rfl, rfl, rfl, ?_⟩
      rw [rk s rfl, hpt, rk (u.atPoint .write) u1, State.atPoint_point]; decide
    · rename_i hpt
      injection h with h; subst h
      obtain ⟨a, k, r, hk, he, e⟩ := foldl_txWrite_effect (commandFrame s.cmd1 s.cmd2) s
      rw [e]
      refine ⟨rfl, fin he, ?_⟩
      have hle := he.length_le
      have hbl := congrArg List.length (he.finite hp f3).1
      rw [List.length_append] at hbl
      rw [rk s rfl, hpt, rk (((s.withTxq (s.txq ++ commandFrame s.cmd1 s.cmd2)).moved a k r).atPoint .flushAfter) rfl]
      have hc : (commandFrame s.cmd1 s.cmd2).length = 9 := rfl
      have r1 : State.rank.sendRank .write = 30 := rfl
      have r2 : State.rank.sendRank .flushAfter = 20 := rfl
      rw [r1]
      simp only [State.work, State.atPoint_inputs, State.atPoint_rxq, State.atPoint_txq, State.atPoint_point,
        State.moved_inputs, State.moved_rxq, State.moved_txq, State.withTxq_txq, State.withTxq_rxq,
        List.length_append, List.length_drop, hc, r2]
      omega
    · rename_i hpt
      injection h with h; subst h
      rw [hw]
      cases h1 : (txFlush s).1
      · exact ⟨w1, w5, less (w6 hph h1) rfl (by rw [if_neg (by simp), State.rank_congr w3 w4])⟩
      · rw [if_pos rfl]
        have : (afterSend w).line = w.line ∧ (afterSend w).inputs = w.inputs ∧ (afterSend w).work = w.work ∧
            (afterSend w).rank ≤ 9 := by
          unfold afterSend
          split <;> refine ⟨rfl, rfl, rfl, ?_⟩ <;> simp [State.rank]
        refine ⟨this.1.trans w1, by rw [this.2.1]; exact w5, le w2 this.2.2.1 ?_⟩
        rw [rk s rfl, hpt]
        have r2 : State.rank.sendRank .flushAfter = 20 := rfl
        omega
    all_goals
      rename_i hpt
      injection h with h; subst h
      rw [hw]
      cases h1 : (txFlush s).1
      · exact ⟨w1, w5, less (w6 hph h1) rfl (by rw [if_neg (by simp), State.rank_congr w3 w4])⟩
      · rw [if_pos rfl]
        refine ⟨w1, w5, le w2 rfl ?_⟩
        rw [rk s rfl, hpt, rk (w.atPoint .settle) w3, State.atPoint_point]; decide
  unfold tick at h
  split at h <;> rename_i hph
  · exact absurd hph hp
  · exact send (.inr hph) h
  · exact send (.inl hph) h
  · injection h with h; subst h
    rw [delay, hm]
    exact ⟨m1, m5, le m2 rfl (by simp [State.rank, hph])⟩
  · obtain ⟨a, k, r, hk, ht, he⟩ := syncTick_effect s
    have hbl := congrArg List.length (ht.finite hp f3).1
    rw [List.length_append] at hbl
    have hle := ht.length_le
    have hwk := State.work_moved (s := s) (k := k) ht hp f3
    rcases he with ⟨-, e⟩ | ⟨q, -, e⟩ | ⟨b, q, hq, -, e⟩ <;> rw [e] at h <;> injection h with h <;> subst h
    · exact ⟨rfl, fin ht, le hwk rfl (by simp [State.rank, hph])⟩
    · exact ⟨rfl, fin ht, le hwk rfl (by simp [State.rank, hph])⟩
    · refine ⟨rfl, fin ht, ?_⟩
      have hl := congrArg List.length hq
      simp only [List.length_append, List.length_cons] at hl
      have : ((s.withRxq q).moved [] k r).rank = s.rank := State.rank_congr rfl rfl
      rw [this]
      simp only [State.work, State.moved_inputs, State.moved_rxq, State.moved_txq, State.withRxq_rxq, State.withRxq_txq,
        List.length_append, List.length_nil, List.length_drop]
      omega
  · unfold lenchkTick rxAvail at h
    simp only [hm] at h
    split at h <;> injection h with h <;> subst h
    · exact ⟨m1, m5, le m2 rfl (by simp [State.rank, hph])⟩
    · exact ⟨m1, m5, le m2 rfl (by simp [State.rank, hph])⟩
  · unfold captureTick at h
    simp only [hm] at h
    split at h
    · cases h
    · split at h
      · cases h
      · injection h with h; subst h
        refine ⟨m1, m5, ?_⟩
        have : ∀ u : State, u.inputs = m.inputs → u.txq = m.txq → u.rxq = m.rxq.drop m.fs.toNat → u.phase = .swap →
            u.work + u.rank < s.work + s.rank := by
          intro u u1 u2 u3 u4
          have : u.work ≤ m.work := by
            simp only [State.work, u1, u2, u3, List.length_drop]; omega
          have : u.rank < s.rank := by simp [State.rank, u4, hph]
          omega
        exact this _ rfl rfl rfl rfl
  · unfold swapTick at h
    split at h
    · cases h
    · injection h with h; subst h
      exact ⟨rfl, f3, le (Nat.le_refl _) rfl (by simp [State.rank, hph])⟩
  · unfold checkTick at h
    split at h
    · injection h with h; subst h
      split
      · exact ⟨rfl, f3, le (Nat.le_refl _) rfl (by simp [State.rank, hph])⟩
      · exact ⟨rfl, f3, le (Nat.le_refl _) rfl (by simp [State.rank, hph])⟩
    · cases h
  · unfold commitTick at h
    injection h with h; subst h
    exact ⟨rfl, f3, le (Nat.le_refl _) rfl (by simp [State.rank, hph])⟩
  · split at h <;> rename_i hpt
    · injection h with h; subst h
      rw [delay, hm]
      exact ⟨m1, m5, le m2 rfl (by simp [State.rank, hph, hpt, m3])⟩
    all_goals
      exact drain _ h fun u u1 u2 u3 u4 => ⟨rfl, rfl, rfl, by simp [State.rank, hph, hpt]⟩
  · unfold ackwaitTick at h
    split at h
    · injection h with h; subst h
      exact ⟨rfl, f3, le (Nat.le_refl _) rfl (by simp [State.rank, hph])⟩
    · rename_i hc
      obtain ⟨a, k, r, hk, he, ⟨e, -⟩ | ⟨b, q, hq, e⟩ | ⟨e, h0, hx⟩⟩ := rxReadRound_effect s <;> rw [e] at h <;>
        injection h with h <;> subst h
      · exact ⟨rfl, fin he, le (State.work_moved he hp f3) rfl (by simp [State.rank, hph])⟩
      · refine ⟨rfl, fin he, ?_⟩
        have hle := he.length_le
        have hbl := congrArg List.length (he.finite hp f3).1
        rw [List.length_append] at hbl
        have hl := congrArg List.length hq
        simp only [List.length_append, List.length_cons] at hl
        have : ∀ u : State, u.inputs = r → u.txq = s.txq.drop k → u.rxq = q ++ [] → u.phase = s.phase → u.point = s.point →
            u.work + u.rank < s.work + s.rank := by
          intro u u1 u2 u3 u4 u5
          rw [State.rank_congr u4 u5]
          simp only [State.work, u1, u2, u3, List.length_append, List.length_nil, List.length_drop]
          omega
        exact this _ rfl rfl rfl rfl rfl
      · refine ⟨rfl, fin he, ?_⟩
        have hle := he.length_le
        have hbl := congrArg List.length (he.finite hp f3).1
        rw [List.length_append] at hbl
        have hx := hx (f2 hph (Nat.lt_of_not_le hc) (List.append_eq_nil_iff.1 h0).1)
        have : (s.moved a k r).rank = s.rank := State.rank_congr rfl rfl
        rw [this]
        simp only [State.work, State.moved_inputs, State.moved_rxq, State.moved_txq, List.length_append, List.length_drop]
        omega
  · unfold ackchkTick at h
    injection h with h; subst h
    split
    · exact ⟨rfl, f3, le (Nat.le_refl _) rfl (by simp [State.rank, hph])⟩
    · exact ⟨rfl, f3, le (Nat.le_refl _) rfl (by simp [State.rank, hph])⟩

/-- Under the three premises every tick of an operation in progress uses something up, and the premises stay. -/
theorem tick_progress {s t : State} (hf : s.Fair) (hp : s.phase ≠ .idle) (h : tick s = .next t) :
    t.line = s.line ∧ t.Fair ∧ t.work + t.rank < s.work + s.rank := by
  obtain ⟨k1, k2, k3⟩ := tick_uses hf.2.2 (fun _ => hf.1) (fun _ _ _ => hf.2.1) hp h
  exact ⟨k1, ⟨by rw [k1]; exact hf.1, by rw [k1]; exact hf.2.1, k2⟩, k3⟩

/-! ## Unrolling a run -/

theorem runUntil_stop {stop : State → Bool} {s : State} (n : Nat) (h : stop s = true) : runUntil stop n s = .next s := by
  cases n with
  | zero => rfl
  | succ n => rw [runUntil, if_pos h]

theorem runUntil_step {stop : State → Bool} {s t : State} (n : Nat) (h : stop s = false) (ht : tick s = .next t) :
    runUntil stop (n + 1) s = runUntil stop n t := by
  rw [runUntil, if_neg (by simp [h]), ht]

/-- A run that has stopped where it should gives the same answer with more ticks allowed. -/
theorem runUntil_mono {stop : State → Bool} {s t : State} {n m : Nat} (h : runUntil stop n s = .next t) (hs : stop t = true)
    (hm : n ≤ m) : runUntil stop m s = .next t := by
  induction n generalizing s m with
  | zero =>
    rw [runUntil] at h
    injection h with h; subst h
    exact runUntil_stop m hs
  | succ n ih =>
    obtain ⟨m, rfl⟩ : ∃ k, m = k + 1 := ⟨m - 1, by omega⟩
    rw [runUntil] at h ⊢
    split at h
    · rename_i h1; rw [if_pos h1]; exact h
    · rename_i h1; rw [if_neg h1]
      cases ht : tick s with
      | next u => rw [ht] at h; exact ih h (by omega)
      | fault f => rw [ht] at h; cases h
      | refused r => rw [ht] at h; cases h

/-- What every tick keeps, a run keeps. -/
theorem runUntil_keeps {P : State → Prop} {stop : State → Bool} {n : Nat} {s t : State} (h : runUntil stop n s = .next t)
    (hs : P s) (hk : ∀ u v, P u → stop u = false → tick u = .next v → P v) : P t := by
  induction n generalizing s with
  | zero => rw [runUntil] at h; injection h with h; exact h ▸ hs
  | succ n ih =>
    rw [runUntil] at h
    split at h
    · injection h with h; exact h ▸ hs
    · rename_i h1
      cases ht : tick s with
      | next u => rw [ht] at h; exact ih h (hk s u hs (by simpa using h1) ht)
      | fault f => rw [ht] at h; cases h
      | refused r => rw [ht] at h; cases h

/-- Where every tick of a set of states stays in it, a run never stops by a fault and stays in it. -/
theorem runUntil_total {P : State → Prop} {stop : State → Bool} (n : Nat) {s : State} (hs : P s)
    (hk : ∀ u, P u → ∃ v, tick u = .next v ∧ P v) : ∃ t, runUntil stop n s = .next t ∧ P t := by
  induction n generalizing s with
  | zero => exact ⟨s, rfl, hs⟩
  | succ n ih =>
    cases h : stop s
    · obtain ⟨u, hu, pu⟩ := hk s hs
      obtain ⟨t, ht, pt⟩ := ih pu
      exact ⟨t, by rw [runUntil_step n h hu, ht], pt⟩
    · exact ⟨s, runUntil_stop _ h, hs⟩

/-- Under the premises of R159, a run with enough ticks for what is in the transport and on the timeline ends where it
should. -/
theorem runUntil_ends {stop : State → Bool} (hstop : ∀ u, stop u = false → u.phase ≠ .idle) {n : Nat} {s : State}
    (hi : s.Inv) (hf : s.Fair) (hn : s.work + s.rank ≤ n) :
    ∃ t, runUntil stop n s = .next t ∧ stop t = true ∧ t.Inv ∧ t.line = s.line := by
  induction n generalizing s with
  | zero =>
    refine ⟨s, rfl, ?_, hi, rfl⟩
    cases h : stop s
    · obtain ⟨t, ht, -⟩ := tick_inv hi
      have := (tick_progress hf (hstop s h) ht).2.2
      omega
    · rfl
  | succ n ih =>
    cases h : stop s
    · obtain ⟨u, hu, iu⟩ := tick_inv hi
      obtain ⟨hl, hf', hw⟩ := tick_progress hf (hstop s h) hu
      obtain ⟨t, ht, st, it, lt⟩ := ih iu hf' (by omega)
      exact ⟨t, by rw [runUntil_step n h hu, ht], st, it, lt.trans hl⟩
    · exact ⟨s, runUntil_stop _ h, h, hi, rfl⟩

/-- Where every tick short of a goal keeps `P` and uses something up, a run with enough ticks comes to the goal, wherever beyond
it the run is to stop, and what it used up bounds its length. -/
theorem runUntil_reaches {P G : State → Prop} {s : State} (hs : P s)
    (hk : ∀ u, P u → ¬ G u → ∃ v, tick u = .next v ∧ P v ∧ v.work + v.rank < u.work + u.rank) :
    ∃ n t, P t ∧ G t ∧ n + (t.work + t.rank) ≤ s.work + s.rank ∧
      ∀ stop : State → Bool, (∀ u, P u → ¬ G u → stop u = false) → ∀ m, runUntil stop (n + m) s = runUntil stop m t := by
  obtain ⟨w, hw⟩ : ∃ w, s.work + s.rank = w := ⟨_, rfl⟩
  induction w using Nat.strongRecOn generalizing s with
  | ind w ih =>
    by_cases hg : G s
    · exact ⟨0, s, hs, hg, by omega, fun _ _ m => by rw [Nat.zero_add]⟩
    · obtain ⟨v, hv, pv, lt⟩ := hk s hs hg
      obtain ⟨n, t, pt, gt, hn, hr⟩ := ih _ (by omega) pv rfl
      refine ⟨n + 1, t, pt, gt, by omega, fun stop h0 m => ?_⟩
      rw [show n + 1 + m = (n + m) + 1 by omega, runUntil_step _ (h0 s hs hg) hv, hr stop h0]

/-- A run that stops where it should passes through the first state where another run, which stops there too, stops. -/
theorem runUntil_split {stop first : State → Bool} {n : Nat} {s t : State} (h : runUntil stop n s = .next t) (ht : stop t = true)
    (hf : ∀ u, stop u = true → first u = true) :
    ∃ k u, k ≤ n ∧ runUntil first k s = .next u ∧ first u = true ∧ runUntil stop (n - k) u = .next t := by
  induction n generalizing s with
  | zero =>
    rw [runUntil] at h
    injection h with h; subst h
    exact ⟨0, s, Nat.le_refl _, rfl, hf s ht, rfl⟩
  | succ n ih =>
    cases h0 : first s
    · have h1 : stop s = false := by
        cases h2 : stop s
        · rfl
        · rw [hf s h2] at h0; cases h0
      rw [runUntil, if_neg (by simp [h1])] at h
      cases hv : tick s with
      | next v =>
        rw [hv] at h
        obtain ⟨k, u, hk, hu, fu, hr⟩ := ih h
        exact ⟨k + 1, u, by omega, by rw [runUntil_step k h0 hv]; exact hu, fu, by rw [Nat.succ_sub_succ]; exact hr⟩
      | fault f => rw [hv] at h; cases h
      | refused r => rw [hv] at h; cases h
    · exact ⟨0, s, Nat.zero_le _, rfl, h0, h⟩

/-- The budget of one step of the model is enough. -/
theorem work_rank_le_budget (s : State) : s.work + s.rank ≤ budget s := by
  have := s.rank_le
  unfold budget State.work; omega

theorem isIdle_false {s : State} (h : s.isIdle = false) : s.phase ≠ .idle := by
  intro hp; simp [State.isIdle, hp] at h

theorem isIdle_true {s : State} (h : s.isIdle = true) : s.phase = .idle := by
  simpa [State.isIdle] using h

end Sys2Proof.Machine
end

