-- ==== Sys2Proof/Laws/Exec.lean ====
section
/-! SUPPORT. The meanings in terms of the state machine: which run each instruction starts, and what holds after any
instruction once it holds at the start of each run and every tick keeps it. -/

namespace Sys2Proof.Machine

theorem whenIdle_of_idle {s : State} {k : State → Result} (h : s.phase = .idle) : whenIdle s k = k s := by
  rw [whenIdle, if_pos h]

theorem whenIdle_next {s t : State} {k : State → Result} (h : whenIdle s k = .next t) : s.phase = .idle ∧ k s = .next t := by
  unfold whenIdle at h
  split at h
  · exact ⟨‹_›, h⟩
  · cases h

/-- What every tick of an operation in progress keeps, its run to the end keeps. -/
theorem runToIdle_keeps {P : State → Prop} {s t : State} (h : runToIdle s = .next t) (hs : P s)
    (hk : ∀ u v, P u → u.phase ≠ .idle → tick u = .next v → P v) : P t :=
  runUntil_keeps h hs fun u v pu hu ht => hk u v pu (isIdle_false hu) ht

/-- Where a mode switch to `m` starts (R70). -/
def State.switching (s : State) (m : Mode) : State :=
  State.beginSend { s with fs := BitVec.ofNat 6 (frameSize m s.variant), mode := m } .setmode (modeCommand m)

@[simp] theorem State.switching_variant (s : State) (m : Mode) : (s.switching m).variant = s.variant := rfl
@[simp] theorem State.switching_mode (s : State) (m : Mode) : (s.switching m).mode = m := rfl
@[simp] theorem State.switching_fs (s : State) (m : Mode) : (s.switching m).fs = BitVec.ofNat 6 (frameSize m s.variant) := rfl
@[simp] theorem State.switching_phase (s : State) (m : Mode) : (s.switching m).phase = .cmdtx := rfl
@[simp] theorem State.switching_pm1_0 (s : State) (m : Mode) : (s.switching m).pm1_0 = s.pm1_0 := rfl
@[simp] theorem State.switching_pm2_5 (s : State) (m : Mode) : (s.switching m).pm2_5 = s.pm2_5 := rfl
@[simp] theorem State.switching_pm10 (s : State) (m : Mode) : (s.switching m).pm10 = s.pm10 := rfl
@[simp] theorem State.switching_buf (s : State) (m : Mode) : (s.switching m).buf = s.buf := rfl
@[simp] theorem State.switching_rxq (s : State) (m : Mode) : (s.switching m).rxq = s.rxq := rfl
@[simp] theorem State.switching_txq (s : State) (m : Mode) : (s.switching m).txq = s.txq := rfl
@[simp] theorem State.switching_txlog (s : State) (m : Mode) : (s.switching m).txlog = s.txlog := rfl
@[simp] theorem State.switching_rxto (s : State) (m : Mode) : (s.switching m).rxto = s.rxto := rfl
@[simp] theorem State.switching_act (s : State) (m : Mode) : (s.switching m).act = .setmode := rfl
@[simp] theorem State.switching_point (s : State) (m : Mode) : (s.switching m).point = .flushBefore := rfl
@[simp] theorem State.switching_found (s : State) (m : Mode) : (s.switching m).found = false := rfl
@[simp] theorem State.switching_ackCount (s : State) (m : Mode) : (s.switching m).ackCount = 0 := rfl
@[simp] theorem State.switching_cmd1 (s : State) (m : Mode) : (s.switching m).cmd1 = (modeCommand m).c1 := rfl
@[simp] theorem State.switching_cmd2 (s : State) (m : Mode) : (s.switching m).cmd2 = (modeCommand m).c2 := rfl
@[simp] theorem State.switching_flushCount (s : State) (m : Mode) : (s.switching m).flushCount = s.flushCount := rfl
@[simp] theorem State.switching_lmWritten (s : State) (m : Mode) : (s.switching m).lmWritten = s.lmWritten := rfl
@[simp] theorem State.switching_inputs (s : State) (m : Mode) : (s.switching m).inputs = s.inputs := rfl
@[simp] theorem State.switching_line (s : State) (m : Mode) : (s.switching m).line = s.line := rfl

/-- FS fits where a mode switch starts (R13). -/
theorem State.switching_geometry (s : State) (m : Mode) : (s.switching m).Geometry := by
  rw [State.Geometry, State.switching_fs, State.switching_mode, State.switching_variant]
  cases m <;> cases s.variant <;> decide

/-- Where SENDCMD starts when a command row is run for the operation in progress (log entry 9). -/
def State.sending (s : State) (c : CommandBytes) : State :=
  { s.beginSend s.act c with found := s.found, ackCount := s.ackCount }

/-- The instructions that switch to mode `m` (R70 to R72). -/
def SwitchesTo (i : Instr) (m : Mode) : Prop :=
  i = .setmode m ∨ (i = .setinitiative ∧ m = .push) ∨ (i = .setqanda ∧ m = .query)

theorem exec_switch {i : Instr} {m : Mode} {s : State} (hi : SwitchesTo i m) (hp : s.phase = .idle) :
    exec i s = runToIdle (s.switching m) := by
  rcases hi with rfl | ⟨rfl, rfl⟩ | ⟨rfl, rfl⟩ <;> exact whenIdle_of_idle hp

theorem exec_readdata {s : State} (hp : s.phase = .idle) : exec .readdata s = runToIdle (startRead s) := by
  simp only [exec, execReaddata, whenIdle, hp, if_true]

theorem exec_sleep {s : State} (hp : s.phase = .idle) : exec .sleep s = runToIdle (s.beginSend .sleep params.cmdSleep) := by
  simp only [exec, execSleep, whenIdle, hp, if_true]

theorem exec_wakeup {s : State} (hp : s.phase = .idle) : exec .wakeup s = runToIdle (s.beginSend .wakeup params.cmdWake) := by
  simp only [exec, execWakeup, whenIdle, hp, if_true]

/-- A host operation that answers a next state was issued in IDLE. -/
theorem idle_of_exec {i : Instr} {s t : State} (hi : i.context = .hostOp) (h : exec i s = .next t) : s.phase = .idle := by
  by_contra hp
  cases i <;> simp [Instr.context] at hi <;>
    simp [exec, execGetmode, execSetmode, execSetinitiative, execSetqanda, execReaddata, execGetpm1_0, execGetpm2_5,
      execGetpm10_0, execSleep, execWakeup, whenIdle, hp] at h

theorem readMeasurement_next {v : Half} {s t : State} (h : readMeasurement v s = .next t) :
    (s.lmWritten = true ∧ t = s.done v) ∨
    (s.lmWritten = false ∧ t = State.done { s with draws := s.draws + 1 } (Config.unwrittenMeasurement s.draws)) := by
  unfold readMeasurement at h
  split at h <;> injection h with h
  · exact .inl ⟨‹_›, h.symm⟩
  · exact .inr ⟨by simp_all, h.symm⟩

/-- What holds where each instruction starts its work, or of the result it gives at once, and what every tick keeps, holds of
every next state that an instruction answers. -/
theorem exec_keeps {P : State → Prop} {i : Instr} {s t : State} (h : exec i s = .next t)
    (hdone : ∀ d, P (s.done d)) (hdraw : ∀ d, P (State.done { s with draws := s.draws + 1 } d))
    (hmode : ∀ m, SwitchesTo i m → s.phase = .idle → P (s.switching m))
    (hread : i = .readdata → s.phase = .idle → P (startRead s))
    (hsleep : i = .sleep → s.phase = .idle → P (s.beginSend .sleep params.cmdSleep))
    (hwake : i = .wakeup → s.phase = .idle → P (s.beginSend .wakeup params.cmdWake))
    (hcmd : ∀ c, i.context = .outbound → P (s.sending c))
    (harr : i.context ≠ .hostOp → i.context ≠ .outbound → P (s.arrive (encode i)))
    (hk : ∀ u v, P u → u.phase ≠ .idle → tick u = .next v → P v) : P t := by
  have acc : ∀ v, whenIdle s (readMeasurement v) = .next t → P t := by
    intro v h
    rcases readMeasurement_next (whenIdle_next h).2 with ⟨-, rfl⟩ | ⟨-, rfl⟩
    · exact hdone _
    · exact hdraw _
  have cmd : ∀ c, i.context = .outbound → sendCommand c s = .next t → P t := by
    intro c hc h
    refine runUntil_keeps h (hcmd c hc) fun u v pu hu ht => hk u v pu ?_ ht
    intro hp; simp [State.notSending, hp] at hu
  have switch : ∀ m, SwitchesTo i m → whenIdle s (enterMode m) = .next t → P t := fun m hm h =>
    runToIdle_keeps (whenIdle_next h).2 (hmode m hm (whenIdle_next h).1) hk
  cases i with
  | getmode =>
    simp only [exec, execGetmode] at h
    have := (whenIdle_next h).2
    injection this with this
    exact this ▸ hdone _
  | setmode m => exact switch m (.inl rfl) h
  | setinitiative => exact switch .push (.inr (.inl ⟨rfl, rfl⟩)) h
  | setqanda => exact switch .query (.inr (.inr ⟨rfl, rfl⟩)) h
  | readdata =>
    simp only [exec, execReaddata] at h
    exact runToIdle_keeps (whenIdle_next h).2 (hread rfl (whenIdle_next h).1) hk
  | getpm1_0 => simp only [exec, execGetpm1_0] at h; obtain ⟨hp, h⟩ := whenIdle_next h; exact acc _ ((whenIdle_of_idle hp).trans h)
  | getpm2_5 => simp only [exec, execGetpm2_5] at h; obtain ⟨hp, h⟩ := whenIdle_next h; exact acc _ ((whenIdle_of_idle hp).trans h)
  | getpm10_0 => simp only [exec, execGetpm10_0] at h; obtain ⟨hp, h⟩ := whenIdle_next h; exact acc _ ((whenIdle_of_idle hp).trans h)
  | sleep =>
    simp only [exec, execSleep] at h
    exact runToIdle_keeps (whenIdle_next h).2 (hsleep rfl (whenIdle_next h).1) hk
  | wakeup =>
    simp only [exec, execWakeup] at h
    exact runToIdle_keeps (whenIdle_next h).2 (hwake rfl (whenIdle_next h).1) hk
  | cmdSetPush => exact cmd _ rfl h
  | cmdSetQuery => exact cmd _ rfl h
  | cmdQuery => exact cmd _ rfl h
  | cmdSleep => exact cmd _ rfl h
  | cmdWake => exact cmd _ rfl h
  | framePushA f => exact runToIdle_keeps h (harr (by simp [Instr.context]) (by simp [Instr.context])) hk
  | framePushB f => exact runToIdle_keeps h (harr (by simp [Instr.context]) (by simp [Instr.context])) hk
  | frameQuery f => exact runToIdle_keeps h (harr (by simp [Instr.context]) (by simp [Instr.context])) hk
  | ackSleep a => exact runToIdle_keeps h (harr (by simp [Instr.context]) (by simp [Instr.context])) hk
  | ackWake a => exact runToIdle_keeps h (harr (by simp [Instr.context]) (by simp [Instr.context])) hk

end Sys2Proof.Machine
end

