-- ==== Sys2Proof/Laws/PerInstr.lean ====
section
/-! SUPPORT. A law of every instruction as syntax: how long its encoding is (spec/30_encoding.md rules R51, R53 to R56, R59 and
R63: the context alone says how many bytes there are), one lemma per constructor of Instr. -/

namespace Sys2Proof

/-- The number of bytes of an encoding read in a context (R63). -/
def Context.length : Context → Nat
  | .hostOp => 1
  | .outbound => 9
  | .pushA => 24
  | .pushB => 32
  | .query => 9
  | .ackSleep => 9
  | .ackWake => 9

end Sys2Proof

namespace Sys2Proof.Laws.EncodedLength

/-- A well-formed instruction's encoding has the length that its context says, and the core instruction it stands for is
well-formed, is read in the same context and has the same encoding. -/
def Statement (i : Sys2Proof.Instr) : Prop :=
  i.wf = true → (encode i).length = i.context.length ∧
    i.core.wf = true ∧ i.core.context = i.context ∧ encode i.core = encode i

theorem getmode : Statement .getmode := fun _ => ⟨rfl, rfl, rfl, rfl⟩

theorem setmode (m : Mode) : Statement (.setmode m) := fun _ => by cases m <;> exact ⟨rfl, rfl, rfl, rfl⟩

theorem setinitiative : Statement .setinitiative := fun _ => ⟨rfl, rfl, rfl, rfl⟩

theorem setqanda : Statement .setqanda := fun _ => ⟨rfl, rfl, rfl, rfl⟩

theorem readdata : Statement .readdata := fun _ => ⟨rfl, rfl, rfl, rfl⟩

theorem getpm1_0 : Statement .getpm1_0 := fun _ => ⟨rfl, rfl, rfl, rfl⟩

theorem getpm2_5 : Statement .getpm2_5 := fun _ => ⟨rfl, rfl, rfl, rfl⟩

theorem getpm10_0 : Statement .getpm10_0 := fun _ => ⟨rfl, rfl, rfl, rfl⟩

theorem sleep : Statement .sleep := fun _ => ⟨rfl, rfl, rfl, rfl⟩

theorem wakeup : Statement .wakeup := fun _ => ⟨rfl, rfl, rfl, rfl⟩

theorem cmdSetPush : Statement .cmdSetPush := fun _ => ⟨rfl, rfl, rfl, rfl⟩

theorem cmdSetQuery : Statement .cmdSetQuery := fun _ => ⟨rfl, rfl, rfl, rfl⟩

theorem cmdQuery : Statement .cmdQuery := fun _ => ⟨rfl, rfl, rfl, rfl⟩

theorem cmdSleep : Statement .cmdSleep := fun _ => ⟨rfl, rfl, rfl, rfl⟩

theorem cmdWake : Statement .cmdWake := fun _ => ⟨rfl, rfl, rfl, rfl⟩

theorem framePushA (f : PushFrame) : Statement (.framePushA f) := by
  intro h
  have ⟨h1, h2⟩ : f.lead.length = 3 ∧ f.trail.length = 3 := by simpa [Instr.wf, PushFrame.wfA] using h
  exact ⟨by simp [encode, pushWire, Instr.context, Context.length, h1, h2], h, rfl, rfl⟩

theorem framePushB (f : PushFrame) : Statement (.framePushB f) := by
  intro h
  have ⟨h1, h2⟩ : f.lead.length = 3 ∧ f.trail.length = 7 := by simpa [Instr.wf, PushFrame.wfB] using h
  exact ⟨by simp [encode, pushWire, Instr.context, Context.length, h1, h2], h, rfl, rfl⟩

theorem frameQuery (f : QueryFrame) : Statement (.frameQuery f) := fun _ => ⟨rfl, rfl, rfl, rfl⟩

theorem ackSleep (a : AckFrame) : Statement (.ackSleep a) := by
  intro h
  have h1 : a.fill.length = 5 := by simpa [Instr.wf, AckFrame.wf] using h
  exact ⟨by simp [encode, ackWire, Instr.context, Context.length, h1], h, rfl, rfl⟩

theorem ackWake (a : AckFrame) : Statement (.ackWake a) := by
  intro h
  have h1 : a.fill.length = 5 := by simpa [Instr.wf, AckFrame.wf] using h
  exact ⟨by simp [encode, ackWire, Instr.context, Context.length, h1], h, rfl, rfl⟩

end Sys2Proof.Laws.EncodedLength
end

