-- ==== Sys2Proof/Laws/Quiet.lean ====
section
/-! SUPPORT. The state machine while the environment makes no move of any kind, the plainest quiescent operation of
spec/20_memory.md rule R39: each loop of the engine run to its end, in closed form. -/

namespace Sys2Proof.Machine

/-! ## No move -/

/-- The environment makes no move before the engine's next primitive call: the timeline is empty, or the host's next operation
or a move that waits for another phase stands first. -/
def State.still (s : State) : Bool :=
  match s.inputs with
  | [] => true
  | .host _ :: _ => true
  | .waitFor p :: _ => p != s.phase
  | .rx _ :: _ => false
  | .depart :: _ => false
  | .timeout :: _ => false
  | .pass :: _ => false
  | .endless _ :: _ => false

theorem envMoves_still {s : State} (w : Bool) (h : s.still = true) : envMoves w s.inputs s = (false, s) := by
  unfold State.still at h
  cases hi : s.inputs with
  | nil =>
    cases s; simp_all [envMoves]
  | cons i q =>
    rw [hi] at h
    cases i with
    | host x => cases s; simp_all [envMoves]
    | waitFor p =>
      have : ¬ s.phase = p := fun hp => by simp [hp] at h
      cases s; simp_all [envMoves]
    | _ => simp at h

theorem State.turn_still {s : State} (h : s.still = true) : s.turn = s := by
  rw [State.turn, envMoves_still false h]

/-- Stillness looks at the timeline and the phase only. -/
theorem State.still_congr {s t : State} (h : s.still = true) (hi : t.inputs = s.inputs)
    (hp : t.phase = s.phase) : t.still = true := by
  unfold State.still at h ⊢; rw [hi, hp]; exact h

/-- Where no move of any kind stands on the timeline, the operation is still in every phase but IDLE. -/
theorem State.still_of_frozen {s t : State} (h : s.frozen = true) (hi : t.inputs = s.inputs) (hp : t.phase ≠ .idle) :
    t.still = true := by
  unfold State.frozen at h
  unfold State.still
  rw [hi]
  cases hs : s.inputs with
  | nil => rfl
  | cons i q =>
    rw [hs] at h
    cases i with
    | host x => rfl
    | waitFor p =>
      have : p = .idle := by simpa using h
      simpa [this, bne_iff_ne, ne_comm] using hp
    | _ => simp at h

/-- Where no move of any kind stands on the timeline, nothing is to arrive. -/
theorem State.quiescent_of_frozen {s : State} (h : s.frozen = true) : s.quiescent = true := by
  unfold State.frozen at h
  unfold State.quiescent
  cases hs : s.inputs with
  | nil => rfl
  | cons i q =>
    rw [hs] at h
    cases i <;> simp_all [quietInputs]

/-- Where a move that waits for a phase stands first, the operation is still in every other phase. -/
theorem State.still_of_waitFor {s : State} {p : Phase} {r : List Input} (hi : s.inputs = .waitFor p :: r) (hp : s.phase ≠ p) :
    s.still = true := by
  unfold State.still; rw [hi]; simpa [bne_iff_ne, ne_comm] using hp

/-! ## Runs of a given length -/

/-- `n` ticks lead from `s` to `t`, none of them from a state where the run stops. -/
def Reaches (stop : State → Bool) (n : Nat) (s t : State) : Prop := ∀ m, runUntil stop (n + m) s = runUntil stop m t

theorem Reaches.refl (stop : State → Bool) (s : State) : Reaches stop 0 s s := fun m => by rw [Nat.zero_add]

theorem Reaches.trans {stop : State → Bool} {n m : Nat} {s t u : State} (h : Reaches stop n s t) (h' : Reaches stop m t u) :
    Reaches stop (n + m) s u := fun l => by rw [Nat.add_assoc, h, h']

theorem Reaches.one {stop : State → Bool} {s t : State} (h : stop s = false) (ht : tick s = .next t) : Reaches stop 1 s t :=
  fun m => by rw [Nat.add_comm, runUntil_step m h ht]

/-- The end of a run. -/
theorem Reaches.ends {stop : State → Bool} {n m : Nat} {s t : State} (h : Reaches stop n s t) (ht : stop t = true)
    (hn : n ≤ m) : runUntil stop m s = .next t := by
  obtain ⟨k, rfl⟩ := Nat.exists_eq_add_of_le hn
  rw [h, runUntil_stop k ht]

/-! ## SENDCMD (R140) -/

/-- A TxFlush under TxProgress: everything in TXQ departs. -/
theorem flush_still {stop : State → Bool} {s : State} (f : State → State) (hs : s.still = true)
    (hx : s.line.txProgress = true) (hstop : ∀ q l, stop { s with txq := q, txlog := l } = false)
    (htick : ∀ q l, tick { s with txq := q, txlog := l } =
      .next (if (txFlush { s with txq := q, txlog := l }).1 then f (txFlush { s with txq := q, txlog := l }).2
        else (txFlush { s with txq := q, txlog := l }).2)) :
    Reaches stop (s.txq.length + 1) s (f { s with txq := [], txlog := s.txlog ++ s.txq }) := by
  have key : ∀ q l, Reaches stop (q.length + 1) { s with txq := q, txlog := l } (f { s with txq := [], txlog := l ++ q }) := by
    intro q
    induction q with
    | nil =>
      intro l
      have ht : State.turn { s with txq := [], txlog := l } = { s with txq := [], txlog := l } :=
        State.turn_still (State.still_congr hs rfl rfl)
      refine Reaches.one (hstop _ _) ?_
      rw [htick]
      simp [txFlush, ht]
    | cons b r ih =>
      intro l
      have ht : State.turn { s with txq := b :: r, txlog := l } = { s with txq := b :: r, txlog := l } :=
        State.turn_still (State.still_congr hs rfl rfl)
      have h1 : Reaches stop 1 { s with txq := b :: r, txlog := l } { s with txq := r, txlog := l ++ [b] } := by
        refine Reaches.one (hstop _ _) ?_
        rw [htick]
        simp [txFlush, ht, State.depart, hx]
      have := h1.trans (ih (l ++ [b]))
      rw [List.append_assoc, List.singleton_append] at this
      rw [List.length_cons, Nat.add_comm 1 (r.length + 1)] at *
      exact this
  exact key s.txq s.txlog

/-- Everything in RXQ discarded and counted (R141). -/
def State.discarded (s : State) : State := { s with rxq := [], flushCount := s.flushCount + s.rxq.length }

/-- RXFLUSH's loop: everything in RXQ is discarded and counted. -/
theorem drain_still {stop : State → Bool} {s : State} (finish : State → State) (hs : s.still = true)
    (hstop : ∀ q n, stop { s with rxq := q, flushCount := n } = false)
    (htick : ∀ q n, tick { s with rxq := q, flushCount := n } = drainTick finish { s with rxq := q, flushCount := n }) :
    Reaches stop (s.rxq.length + 1) s (finish s.discarded) := by
  have ht : ∀ q n, State.turn { s with rxq := q, flushCount := n } = { s with rxq := q, flushCount := n } :=
    fun q n => State.turn_still (State.still_congr hs rfl rfl)
  have key : ∀ q n, Reaches stop (q.length + 1) { s with rxq := q, flushCount := n }
      (finish { s with rxq := [], flushCount := n + q.length }) := by
    intro q
    induction q with
    | nil =>
      intro n
      refine Reaches.one (hstop _ _) ?_
      rw [htick]
      simp [drainTick, rxAvail, ht]
    | cons b r ih =>
      intro n
      have h1 : Reaches stop 1 { s with rxq := b :: r, flushCount := n } { s with rxq := r, flushCount := n + 1 } := by
        refine Reaches.one (hstop _ _) ?_
        rw [htick]
        simp only [drainTick, rxAvail, ht, rxRead]
        rfl
      have := h1.trans (ih (n + 1))
      rw [Nat.add_comm 1 (r.length + 1), Nat.add_assoc n 1, Nat.add_comm 1 r.length] at this
      exact this
  exact key s.rxq s.flushCount

theorem foldl_txWrite_still {s : State} (hs : s.still = true) (bs : List Byte) :
    bs.foldl txWrite s = s.withTxq (s.txq ++ bs) := by
  induction bs generalizing s with
  | nil => cases s; simp [State.withTxq]
  | cons b r ih =>
    rw [List.foldl_cons, txWrite, State.turn_still hs, ih (s := s.withTxq (s.txq ++ [b])) (State.still_congr hs rfl rfl)]
    simp [State.withTxq]

/-- TXQ transmitted. -/
def State.transmitted (s : State) : State := { s with txq := [], txlog := s.txlog ++ s.txq }

theorem tick_sending {s : State} (hp : s.Sending) : tick s = sendTick s := by
  unfold tick; rcases hp with hp | hp <;> rw [hp]

/-- SENDCMD's first TxFlush. -/
theorem send_flush_still {stop : State → Bool} {s : State} (hp : s.Sending) (hq : s.point = .flushBefore)
    (hs : s.still = true) (hx : s.line.txProgress = true) (hstop : ∀ u : State, u.Sending → stop u = false) :
    Reaches stop (s.txq.length + 1) s (s.transmitted.atPoint .settle) := by
  refine flush_still (fun u => u.atPoint .settle) hs hx (fun q l => hstop _ hp) fun q l => ?_
  have e : tick { s with txq := q, txlog := l } = sendTick { s with txq := q, txlog := l } := tick_sending hp
  rw [e, sendTick]
  simp only [hq]

/-- SENDCMD's settling delay and discard loop. -/
theorem send_drain_still {stop : State → Bool} {s : State} (hp : s.Sending) (hq : s.point = .settle)
    (hs : s.still = true) (hstop : ∀ u : State, u.Sending → stop u = false) :
    Reaches stop (s.rxq.length + 2) s (s.startDrain.discarded.atPoint .write) := by
  have r1 : Reaches stop 1 s s.startDrain := by
    refine Reaches.one (hstop _ hp) ?_
    rw [tick_sending hp, sendTick, hq]
    simp only [delay, State.turn_still hs]
  have r2 : Reaches stop (s.rxq.length + 1) s.startDrain (s.startDrain.discarded.atPoint .write) :=
    drain_still (s := s.startDrain) (fun u => u.atPoint .write) (State.still_congr hs rfl rfl)
      (fun q n => hstop _ hp)
      (fun q n => by rw [tick_sending (s := { s.startDrain with rxq := q, flushCount := n }) hp, sendTick]; rfl)
  have := r1.trans r2
  rwa [show 1 + (s.rxq.length + 1) = s.rxq.length + 2 by omega] at this

/-- SENDCMD's nine writes. -/
theorem send_write_still {stop : State → Bool} {s : State} (hp : s.Sending) (hq : s.point = .write) (hs : s.still = true)
    (hstop : ∀ u : State, u.Sending → stop u = false) :
    Reaches stop 1 s ((s.withTxq (s.txq ++ commandFrame s.cmd1 s.cmd2)).atPoint .flushAfter) := by
  refine Reaches.one (hstop _ hp) ?_
  rw [tick_sending hp, sendTick, hq]
  simp only [foldl_txWrite_still hs]

/-- SENDCMD's last TxFlush. -/
theorem send_end_still {stop : State → Bool} {s : State} (hp : s.Sending) (hq : s.point = .flushAfter)
    (hs : s.still = true) (hx : s.line.txProgress = true) (hstop : ∀ u : State, u.Sending → stop u = false) :
    Reaches stop (s.txq.length + 1) s (afterSend s.transmitted) := by
  refine flush_still afterSend hs hx (fun q l => hstop _ hp) fun q l => ?_
  have e : tick { s with txq := q, txlog := l } = sendTick { s with txq := q, txlog := l } := tick_sending hp
  rw [e, sendTick]
  simp only [hq]

/-- What SENDCMD leaves before its caller goes on: TXQ and RXQ empty, what was in RXQ counted, and the nine bytes of the command
transmitted after whatever was in TXQ. -/
def State.commanded (s : State) : State :=
  { s with
    rxq := [], txq := [], txlog := s.txlog ++ s.txq ++ commandFrame s.cmd1 s.cmd2, point := .flushAfter
    flushCount := s.rxq.length }

/-- SENDCMD from its start, nothing arriving and TXQ draining. -/
theorem send_still {stop : State → Bool} {s : State} (hp : s.Sending) (hq : s.point = .flushBefore) (hs : s.still = true)
    (hx : s.line.txProgress = true) (hstop : ∀ u : State, u.Sending → stop u = false) :
    Reaches stop (s.txq.length + s.rxq.length + 14) s (afterSend s.commanded) := by
  obtain ⟨s1, h1⟩ : ∃ s1, s1 = s.transmitted.atPoint .settle := ⟨_, rfl⟩
  obtain ⟨s2, h2⟩ : ∃ s2, s2 = s1.startDrain.discarded.atPoint .write := ⟨_, rfl⟩
  obtain ⟨s3, h3⟩ : ∃ s3, s3 = (s2.withTxq (s2.txq ++ commandFrame s2.cmd1 s2.cmd2)).atPoint .flushAfter := ⟨_, rfl⟩
  have f1 : s1.phase = s.phase ∧ s1.inputs = s.inputs ∧ s1.line = s.line ∧ s1.rxq = s.rxq ∧ s1.point = .settle := by
    subst h1; exact ⟨rfl, rfl, rfl, rfl, rfl⟩
  have f2 : s2.phase = s1.phase ∧ s2.inputs = s1.inputs ∧ s2.line = s1.line ∧ s2.txq = s1.txq ∧ s2.point = .write ∧
      s2.cmd1 = s1.cmd1 ∧ s2.cmd2 = s1.cmd2 := by
    subst h2; exact ⟨rfl, rfl, rfl, rfl, rfl, rfl, rfl⟩
  have f3 : s3.phase = s2.phase ∧ s3.inputs = s2.inputs ∧ s3.line = s2.line ∧ s3.point = .flushAfter ∧
      s3.txq = s2.txq ++ commandFrame s2.cmd1 s2.cmd2 := by
    subst h3; exact ⟨rfl, rfl, rfl, rfl, rfl⟩
  obtain ⟨p1, i1, l1, q1, o1⟩ := f1
  obtain ⟨p2, i2, l2, q2, o2, c2, d2⟩ := f2
  obtain ⟨p3, i3, l3, o3, q3⟩ := f3
  have hp1 : s1.Sending := by rw [State.Sending, p1]; exact hp
  have hp2 : s2.Sending := by rw [State.Sending, p2]; exact hp1
  have hp3 : s3.Sending := by rw [State.Sending, p3]; exact hp2
  have t1 : s1.still = true := State.still_congr hs i1 p1
  have t2 : s2.still = true := State.still_congr t1 i2 p2
  have t3 : s3.still = true := State.still_congr t2 i3 p3
  have r1 := send_flush_still (stop := stop) hp hq hs hx hstop
  have r2 := send_drain_still (stop := stop) hp1 o1 t1 hstop
  have r3 := send_write_still (stop := stop) hp2 o2 t2 hstop
  have r4 := send_end_still (stop := stop) hp3 o3 t3 (by rw [l3, l2, l1]; exact hx) hstop
  have e1 : s1.txq = [] := by subst h1; rfl
  have l4 : s3.txq.length = 9 := by rw [q3, q2, e1]; rfl
  have e : s3.transmitted = s.commanded := by
    subst h3 h2 h1
    simp [State.transmitted, State.commanded, State.atPoint, State.withTxq, State.startDrain, State.discarded]
  rw [← h1] at r1
  rw [← h2, q1] at r2
  rw [← h3] at r3
  rw [e, l4] at r4
  have := r1.trans (r2.trans (r3.trans r4))
  rwa [show s.txq.length + 1 + (s.rxq.length + 2 + (1 + (9 + 1))) = s.txq.length + s.rxq.length + 14 by omega] at this

/-! ## SYNC (R83) -/

/-- SYNC's scan: the longest prefix of RXQ without the marker is discarded, and `found` says whether the marker is there. -/
theorem sync_still {stop : State → Bool} {s : State} (hp : s.phase = .sync) (hs : s.still = true)
    (hstop : ∀ u : State, u.phase = .sync → stop u = false) :
    ∃ n, n ≤ s.rxq.length + 1 ∧
      Reaches stop n s (((s.withRxq (s.rxq.dropWhile (· != marker s.mode))).sought
        (s.rxq.dropWhile (· != marker s.mode) != []))) := by
  have ht : ∀ q, (s.withRxq q).turn = s.withRxq q := fun q => State.turn_still (State.still_congr hs rfl rfl)
  have tk : ∀ q, tick (s.withRxq q) = syncTick (s.withRxq q) := by
    intro q; unfold tick; rw [State.withRxq_phase, hp]
  have key : ∀ q, ∃ n, n ≤ q.length + 1 ∧
      Reaches stop n (s.withRxq q) (((s.withRxq (q.dropWhile (· != marker s.mode))).sought
        (q.dropWhile (· != marker s.mode) != []))) := by
    intro q
    induction q with
    | nil =>
      refine ⟨1, Nat.le_refl _, Reaches.one (hstop _ hp) ?_⟩
      rw [tk]
      simp [syncTick, rxAvail, ht]
    | cons b r ih =>
      by_cases hb : b = marker s.mode
      · refine ⟨1, by omega, Reaches.one (hstop _ hp) ?_⟩
        rw [tk]
        simp [syncTick, rxAvail, rxPeek, ht, hb, bne]
      · obtain ⟨n, hn, hr⟩ := ih
        refine ⟨1 + n, by rw [List.length_cons]; omega, ?_⟩
        have h1 : Reaches stop 1 (s.withRxq (b :: r)) (s.withRxq r) := by
          refine Reaches.one (hstop _ hp) ?_
          rw [tk]
          simp only [syncTick, rxAvail, rxPeek, rxRead, ht, State.withRxq_rxq, State.withRxq_mode, hb, if_false]
          rfl
        have hd : (b :: r).dropWhile (· != marker s.mode) = r.dropWhile (· != marker s.mode) := by
          rw [List.dropWhile_cons_of_pos (by simpa using hb)]
        rw [hd]
        exact h1.trans hr
  exact key s.rxq

/-! ## From LENCHK to the end of READDATA (R84 to R87, R100, R110, R120) -/

/-- BUF as CHECK finds it: the first FS bytes of RXQ captured and swapped (R85, R100). -/
def State.captured (s : State) : Memory := swapBuf s.mode s.fs.toNat (s.buf.writeList 0 (s.rxq.take s.fs.toNat))

/-- The end of a READDATA whose frame passes CHECK. -/
def State.accepted (s : State) : State :=
  State.done { s with
    rxq := s.rxq.drop s.fs.toNat, buf := s.captured, lmWritten := true
    pm1_0 := s.captured.read16 (route s.mode).pm1_0, pm2_5 := s.captured.read16 (route s.mode).pm2_5
    pm10 := s.captured.read16 (route s.mode).pm10 } 0

/-- The end of a READDATA whose frame fails CHECK. -/
def State.rejected (s : State) : State :=
  State.fail { s with rxq := s.rxq.drop s.fs.toNat, buf := s.captured } .checksumMismatch

/-- READDATA from LENCHK on: too few bytes, or a frame captured, swapped, checked and accepted or rejected. -/
theorem read_still {s : State} {m : Nat} (hp : s.phase = .lenchk) (hq : s.frozen = true) (hg : s.Geometry) (hm : 5 ≤ m) :
    runUntil State.isIdle m s = .next
      (if s.rxq.length < s.fs.toNat then s.fail (if s.found then .shortFrame else .syncMiss)
      else if checksumOk s.mode s.fs.toNat s.captured then s.accepted else s.rejected) := by
  have hb : ¬ params.bufSize < s.fs.toNat := by
    have := (frameSize_le s.mode s.variant).2
    rw [hg]; omega
  have hr : checkInRange s.mode s.fs.toNat = true := by rw [hg]; cases s.mode <;> cases s.variant <;> decide
  have run : ∀ {u v : State}, u.phase ≠ .idle → tick u = .next v → Reaches State.isIdle 1 u v := fun hu ht =>
    Reaches.one (by simpa [State.isIdle] using hu) ht
  have t0 : s.turn = s := State.turn_still (State.still_of_frozen hq rfl (by simp [hp]))
  by_cases hl : s.rxq.length < s.fs.toNat
  · rw [if_pos hl]
    refine (run (by simp [hp]) ?_).ends (by simp [State.isIdle]) (by omega)
    unfold tick; rw [hp]
    simp only [lenchkTick, rxAvail, t0, if_pos hl]
  rw [if_neg hl]
  have r1 : Reaches State.isIdle 1 s (s.goto .capture) := by
    refine run (by simp [hp]) ?_
    unfold tick; rw [hp]
    simp only [lenchkTick, rxAvail, t0, if_neg hl]
  obtain ⟨s2, h2⟩ : ∃ s2 : State, s2 = { s with
      buf := s.buf.writeList 0 (s.rxq.take s.fs.toNat), rxq := s.rxq.drop s.fs.toNat, phase := .swap } := ⟨_, rfl⟩
  have r2 : Reaches State.isIdle 1 (s.goto .capture) s2 := by
    refine run (by simp) ?_
    have : (s.goto .capture).turn = s.goto .capture := State.turn_still (State.still_of_frozen hq rfl (by simp))
    simp only [tick, State.goto_phase, captureTick, this, State.goto_fs, State.goto_rxq, if_neg hb, if_neg hl]
    rw [h2]; rfl
  obtain ⟨s3, h3⟩ : ∃ s3 : State, s3 = { s with buf := s.captured, rxq := s.rxq.drop s.fs.toNat, phase := .check } := ⟨_, rfl⟩
  have r3 : Reaches State.isIdle 1 s2 s3 := by
    subst h2
    refine run (by simp) ?_
    simp only [tick, swapTick, if_neg hb]
    rw [h3]; rfl
  have r123 := r1.trans (r2.trans r3)
  have e4 : tick s3 = .next (if checksumOk s.mode s.fs.toNat s.captured then s3.goto .commit else s3.fail .checksumMismatch) := by
    subst h3
    simp only [tick, checkTick, if_pos hr]
  have p3 : s3.phase ≠ .idle := by subst h3; simp
  cases hc : checksumOk s.mode s.fs.toNat s.captured <;> rw [hc] at e4
  · have e : s3.fail .checksumMismatch = s.rejected := by subst h3; rfl
    have := (r123.trans (run p3 e4)).ends (m := m) (by simp [State.isIdle]) (by omega)
    simpa [e] using this
  · have r5 : Reaches State.isIdle 1 (s3.goto .commit) s.accepted := by
      refine run (by simp) ?_
      subst h3; rfl
    exact (r123.trans ((run p3 e4).trans r5)).ends (by simp [State.isIdle, State.accepted]) (by omega)

/-! ## ACKREAD (R130) -/

/-- The first `n` bytes of RXQ read into BUF behind those that ACKREAD has read already. -/
def State.ackRead (s : State) (n : Nat) : State :=
  { s with buf := s.buf.writeList s.ackCount (s.rxq.take n), rxq := s.rxq.drop n, ackCount := s.ackCount + n }

/-- ACKREAD takes one byte per tick while bytes are there and fewer than nine have been read. -/
theorem ack_bytes_still {s : State} {n : Nat} (hp : s.phase = .ackwait) (hs : s.still = true)
    (hc : s.ackCount + n ≤ params.ackLen) (hn : n ≤ s.rxq.length) : Reaches State.isIdle n s (s.ackRead n) := by
  induction n generalizing s with
  | zero =>
    have : s.ackRead 0 = s := by cases s; simp [State.ackRead, Memory.writeList]
    rw [this]; exact Reaches.refl _ _
  | succ n ih =>
    match hq : s.rxq with
    | [] => rw [hq] at hn; simp at hn
    | b :: q =>
      obtain ⟨u, hu⟩ : ∃ u : State, u = { s with rxq := q, buf := s.buf.write s.ackCount b, ackCount := s.ackCount + 1 } :=
        ⟨_, rfl⟩
      have e : tick s = .next u := by
        have : rxReadRound s = (.byte b, s.withRxq q) := by simp [rxReadRound, envMoves_still true hs, hq]
        unfold tick; rw [hp]
        simp only [ackwaitTick, if_neg (show ¬ params.ackLen ≤ s.ackCount by omega), this, hu]
        rfl
      have h2 := ih (s := u) (by rw [hu]; exact hp) (State.still_congr hs (by rw [hu]) (by rw [hu]))
        (by rw [hu]; simp only; omega) (by rw [hu]; rw [hq] at hn; simp at hn; exact hn)
      have h1 : Reaches State.isIdle 1 s u := Reaches.one (by simp [State.isIdle, hp]) e
      have e2 : u.ackRead n = s.ackRead (n + 1) := by
        rw [hu]; simp [State.ackRead, hq, Memory.writeList, Nat.add_assoc, Nat.add_comm 1 n]
      rw [e2] at h2
      have := h1.trans h2
      rwa [Nat.add_comm 1 n] at this

/-- ACKREAD from its start to the end of SLEEP or WAKEUP, nothing more arriving and, if bytes are missing, a lasting Timeout
happening (R130 to R132, R134). -/
theorem ack_still {s : State} {m : Nat} (hp : s.phase = .ackwait) (hq : s.frozen = true)
    (ht : s.rxq.length < params.ackLen → s.line.timesOut = true) (hc : s.ackCount = 0) (hm : 11 ≤ m) :
    runUntil State.isIdle m s = .next
      (if s.rxq.length < params.ackLen then (s.ackRead s.rxq.length).fail .cmdNotConfirmed
      else if ackOk (ackExpect s.act) (s.ackRead params.ackLen).buf then (s.ackRead params.ackLen).done 0
      else (s.ackRead params.ackLen).fail .cmdNotConfirmed) := by
  have h9 : params.ackLen = 9 := rfl
  have hs : s.still = true := State.still_of_frozen hq rfl (by simp [hp])
  by_cases hl : s.rxq.length < params.ackLen
  · rw [if_pos hl]
    have r := ack_bytes_still hp hs (show s.ackCount + s.rxq.length ≤ params.ackLen by omega) (Nat.le_refl _)
    obtain ⟨u, hu⟩ : ∃ u, u = s.ackRead s.rxq.length := ⟨_, rfl⟩
    rw [← hu] at r ⊢
    have e : tick u = .next (u.fail .cmdNotConfirmed) := by
      have hu' : u.still = true := State.still_congr hs (by rw [hu]; rfl) (by rw [hu]; rfl)
      have hx : u.rxq = [] := by rw [hu]; simp [State.ackRead]
      have : rxReadRound u = (.timedOut, u) := by
        have hl' : u.line.timesOut = true := by rw [hu]; exact ht hl
        simp [rxReadRound, envMoves_still true hu', hx, hl']
      have hpu : u.phase = .ackwait := by rw [hu]; exact hp
      have hcu : u.ackCount = s.rxq.length := by rw [hu]; simp [State.ackRead, hc]
      unfold tick; rw [hpu]
      simp only [ackwaitTick, if_neg (show ¬ params.ackLen ≤ u.ackCount by omega), this]
    exact (r.trans (Reaches.one (by rw [hu]; simp [State.isIdle, State.ackRead, hp]) e)).ends (by simp [State.isIdle]) (by omega)
  · rw [if_neg hl]
    have r := ack_bytes_still hp hs (show s.ackCount + params.ackLen ≤ params.ackLen by omega) (Nat.le_of_not_lt hl)
    obtain ⟨u, hu⟩ : ∃ u, u = s.ackRead params.ackLen := ⟨_, rfl⟩
    rw [← hu] at r ⊢
    have hpu : u.phase = .ackwait := by rw [hu]; exact hp
    have hau : u.act = s.act := by rw [hu]; rfl
    have e : tick u = .next (u.goto .ackchk) := by
      have hcu : u.ackCount = params.ackLen := by rw [hu]; simp [State.ackRead, hc]
      unfold tick; rw [hpu]
      simp only [ackwaitTick, if_pos (show params.ackLen ≤ u.ackCount by omega)]
    have e' : tick (u.goto .ackchk) =
        .next (if ackOk (ackExpect s.act) u.buf then u.done 0 else u.fail .cmdNotConfirmed) := by
      rw [← hau]; rfl
    have r' := r.trans ((Reaches.one (by rw [State.isIdle, hpu]; rfl) e).trans (Reaches.one (by simp [State.isIdle]) e'))
    exact r'.ends (by split <;> simp [State.isIdle]) (by omega)

/-! ## The quiescent operation: departures, Timeouts, pauses and waits, but no arrival (R39) -/

/-- The operation as the engine sees it: the timeline taken away, everything written transmitted. -/
def State.calm (s : State) : State := { s with inputs := [], txq := [], txlog := s.txlog ++ s.txq }

@[simp] theorem State.calm_phase (s : State) : s.calm.phase = s.phase := rfl
@[simp] theorem State.calm_rxq (s : State) : s.calm.rxq = s.rxq := rfl
@[simp] theorem State.calm_txq (s : State) : s.calm.txq = [] := rfl
@[simp] theorem State.calm_txlog (s : State) : s.calm.txlog = s.txlog ++ s.txq := rfl
@[simp] theorem State.calm_inputs (s : State) : s.calm.inputs = [] := rfl

theorem State.moved_calm (s : State) (k : Nat) (r : List Input) : (s.moved [] k r).calm = s.calm := by
  simp [State.calm, State.moved]

theorem State.turn_calm (s : State) : s.calm.turn = s.calm := State.turn_still rfl

/-- Where nothing is to arrive, a turn of the environment leaves the operation as it was. -/
theorem State.turn_quiet {s : State} (hp : s.phase ≠ .idle) (hq : s.quiescent = true) : ∃ k r, s.turn = s.moved [] k r := by
  obtain ⟨a, k, r, h, -, he⟩ := s.turn_effect
  obtain ⟨rfl, -⟩ := he.quiet hp hq
  exact ⟨k, r, h⟩

/-- Outside SENDCMD, where nothing is to arrive, the engine does what it does with the timeline taken away; waiting in ACKREAD
it may be held. -/
theorem tick_calm {s : State} (hp : s.phase ≠ .idle) (hn : ¬ s.Sending) (hq : s.quiescent = true)
    (ht : s.phase = .ackwait → s.ackCount < params.ackLen → s.rxq = [] → s.line.timesOut = true) {v : State}
    (hv : tick s.calm = .next v) : ∃ t, tick s = .next t ∧ (t.calm = v ∨ t.calm = s.calm) := by
  obtain ⟨k, r, e⟩ := State.turn_quiet hp hq
  have ec := s.turn_calm
  have drain : ∀ finish : State → State, (∀ u : State, (finish u).calm = finish u.calm) → drainTick finish s.calm = .next v →
      ∃ t, drainTick finish s = .next t ∧ (t.calm = v ∨ t.calm = s.calm) := by
    intro finish hf hv
    obtain ⟨a, k, r, -, he, h⟩ := drainTick_effect finish s
    obtain ⟨rfl, -⟩ := he.quiet hp hq
    unfold drainTick rxAvail rxRead at hv
    simp only [ec] at hv
    rcases h with ⟨h, hx⟩ | ⟨b, q, h, hx⟩ <;> rw [List.append_nil] at hx
    · refine ⟨_, h, .inl ?_⟩
      have : s.calm.rxq = [] := hx
      rw [if_pos (by simp [hx])] at hv
      injection hv with hv
      rw [hf, State.moved_calm]; exact hv
    · refine ⟨_, h, .inl ?_⟩
      have : s.calm.rxq = b :: q := hx
      rw [if_neg (by simp [hx])] at hv
      rw [this] at hv
      injection hv with hv
      rw [← hv]
      simp [State.calm, State.moved, State.withRxq, State.counted]
  unfold tick at hv ⊢
  rw [show s.calm.phase = s.phase from rfl] at hv
  cases hph : s.phase <;> rw [hph] at hv <;> simp only at hv ⊢
  case idle => exact absurd hph hp
  case qreq => exact absurd (.inr hph) hn
  case cmdtx => exact absurd (.inl hph) hn
  case qwait =>
    simp only [delay, ec] at hv ⊢
    injection hv with hv
    exact ⟨_, rfl, .inl (by rw [e, ← hv]; simp [State.calm, State.moved, State.goto])⟩
  case sync =>
    obtain ⟨a, k, r, -, he, h⟩ := syncTick_effect s
    obtain ⟨rfl, -⟩ := he.quiet hp hq
    unfold syncTick rxAvail rxPeek rxRead at hv
    simp only [ec] at hv
    rcases h with ⟨hx, h⟩ | ⟨q, hx, h⟩ | ⟨b, q, hx, hb, h⟩ <;> rw [List.append_nil] at hx
    · have : s.calm.rxq = [] := hx
      rw [if_pos (by simp [hx])] at hv
      injection hv with hv
      exact ⟨_, h, .inl (by rw [← hv]; simp [State.calm, State.moved, State.sought])⟩
    · have : s.calm.rxq = marker s.mode :: q := hx
      rw [if_neg (by simp [hx]), this] at hv
      simp only at hv
      rw [if_pos (show marker s.mode = marker s.calm.mode from rfl)] at hv
      injection hv with hv
      exact ⟨_, h, .inl (by rw [← hv]; simp [State.calm, State.moved, State.sought])⟩
    · have : s.calm.rxq = b :: q := hx
      rw [if_neg (by simp [hx]), this] at hv
      simp only at hv
      rw [if_neg (show ¬ b = marker s.calm.mode from hb), ec, this] at hv
      injection hv with hv
      exact ⟨_, h, .inl (by rw [← hv]; simp [State.calm, State.moved, State.withRxq])⟩
  case lenchk =>
    unfold lenchkTick rxAvail at hv ⊢
    simp only [ec, e] at hv ⊢
    have hl : (s.moved [] k r).rxq = s.calm.rxq := by simp [State.calm, State.moved]
    have hf : (s.moved [] k r).fs = s.calm.fs := rfl
    rw [hl, hf]
    split at hv <;> rename_i h <;> injection hv with hv
    · rw [if_pos h]
      refine ⟨_, rfl, .inl ?_⟩
      rw [← hv, show (s.moved [] k r).found = s.calm.found from rfl]
      generalize (if s.calm.found then ErrKind.shortFrame else ErrKind.syncMiss) = x
      simp [State.calm, State.moved, State.fail, State.leave]
    · rw [if_neg h]
      exact ⟨_, rfl, .inl (by rw [← hv]; simp [State.calm, State.moved, State.goto])⟩
  case capture =>
    unfold captureTick at hv ⊢
    simp only [ec, e] at hv ⊢
    have hl : (s.moved [] k r).rxq = s.calm.rxq := by simp [State.calm, State.moved]
    have hf : (s.moved [] k r).fs = s.calm.fs := rfl
    rw [hl, hf]
    split at hv
    · cases hv
    · rename_i h1
      rw [if_neg h1]
      split at hv
      · cases hv
      · rename_i h2
        rw [if_neg h2]
        injection hv with hv
        exact ⟨_, rfl, .inl (by rw [← hv]; simp [State.calm, State.moved])⟩
  case swap =>
    unfold swapTick at hv ⊢
    rw [show s.calm.fs = s.fs from rfl] at hv
    split at hv
    · cases hv
    · rename_i h1
      rw [if_neg h1]
      injection hv with hv
      exact ⟨_, rfl, .inl (by rw [← hv]; simp [State.calm])⟩
  case check =>
    unfold checkTick at hv ⊢
    rw [show s.calm.fs = s.fs from rfl, show s.calm.mode = s.mode from rfl, show s.calm.buf = s.buf from rfl] at hv
    split at hv
    · rename_i h1
      rw [if_pos h1]
      injection hv with hv
      exact ⟨_, rfl, .inl (by rw [← hv]; split <;> simp [State.calm, State.goto, State.fail, State.leave])⟩
    · cases hv
  case commit =>
    unfold commitTick at hv ⊢
    injection hv with hv
    exact ⟨_, rfl, .inl (by rw [← hv]; simp [State.calm, State.done, State.leave])⟩
  case drain =>
    rw [show s.calm.point = s.point from rfl] at hv
    cases hpt : s.point <;> rw [hpt] at hv <;> simp only at hv ⊢
    case settle =>
      simp only [delay, ec] at hv ⊢
      injection hv with hv
      exact ⟨_, rfl, .inl (by rw [e, ← hv]; simp [State.calm, State.moved, State.startDrain])⟩
    all_goals exact drain _ (fun u => by simp [State.calm, State.done, State.leave]) hv
  case ackwait =>
    unfold ackwaitTick at hv ⊢
    rw [show s.calm.ackCount = s.ackCount from rfl] at hv
    split at hv
    · rename_i h1
      rw [if_pos h1]
      injection hv with hv
      exact ⟨_, rfl, .inl (by rw [← hv]; simp [State.calm, State.goto])⟩
    · rename_i h1
      rw [if_neg h1]
      obtain ⟨a, k, r, -, he, h⟩ := rxReadRound_effect s
      obtain ⟨rfl, -⟩ := he.quiet hp hq
      have hr : rxReadRound s.calm = match s.rxq with
          | b :: q => (.byte b, s.calm.withRxq q)
          | [] => if s.line.timesOut = true then (.timedOut, s.calm) else (.waiting, s.calm) := by
        unfold rxReadRound
        rw [envMoves_still true (by rfl)]
        simp only [Bool.false_eq_true, if_false, true_and]
        rfl
      rw [hr] at hv
      rcases h with ⟨h, hx⟩ | ⟨b, q, hx, h⟩ | ⟨h, hx, -⟩ <;> rw [List.append_nil] at hx <;> rw [h]
      · rw [hx] at hv
        simp only at hv
        rw [if_pos (ht hph (Nat.lt_of_not_le h1) hx)] at hv
        injection hv with hv
        exact ⟨_, rfl, .inl (by rw [← hv]; simp [State.calm, State.moved, State.fail, State.leave])⟩
      · rw [hx] at hv
        injection hv with hv
        exact ⟨_, rfl, .inl (by rw [← hv]; simp [State.calm, State.moved, State.withRxq])⟩
      · exact ⟨_, rfl, .inr (State.moved_calm _ _ _)⟩
  case ackchk =>
    unfold ackchkTick at hv ⊢
    injection hv with hv
    refine ⟨_, rfl, .inl ?_⟩
    rw [← hv, show s.calm.act = s.act from rfl, show s.calm.buf = s.buf from rfl]
    split <;> simp [State.calm, State.done, State.fail, State.leave]


/-- ACKREAD, if the engine is there, has its nine bytes or a Timeout to come. -/
def State.Fed (s : State) : Prop := s.phase = .ackwait → s.line.timesOut = true ∨ params.ackLen ≤ s.ackCount + s.rxq.length

/-- Only SETMODE, READDATA, SLEEP and WAKEUP themselves enter SENDCMD, and only SENDCMD leads to ACKREAD (R81). -/
theorem tick_fed {s t : State} (h : tick s = .next t) (hn : ¬ s.Sending) (hf : s.Fed) : ¬ t.Sending ∧ t.Fed := by
  have out : ∀ {u : State}, u.phase ≠ .cmdtx → u.phase ≠ .qreq → u.phase ≠ .ackwait → ¬ u.Sending ∧ u.Fed :=
    fun h1 h2 h3 => ⟨fun h => h.elim h1 h2, fun h => absurd h h3⟩
  cases tick_cases h with
  | idle => exact ⟨hn, hf⟩
  | flushHeld _ _ _ hs => exact absurd hs hn
  | flushedBefore _ _ hs => exact absurd hs hn
  | settled _ _ _ hs => exact absurd hs hn
  | sendDiscarded _ _ _ _ _ hs => exact absurd hs hn
  | sendDrained _ _ _ hs => exact absurd hs hn
  | written _ _ _ hs => exact absurd hs hn
  | sent _ _ hs => exact absurd hs hn
  | syncDiscarded a k r b q hp => exact ⟨hn, fun h => by simp [hp] at h⟩
  | captured _ _ _ _ _ _ _ _ ht => subst ht; exact out (by simp) (by simp) (by simp)
  | committed _ _ ht => subst ht; exact out (by simp) (by simp) (by simp)
  | drainSettled a k r hp => exact ⟨hn, fun h => by simp [hp] at h⟩
  | drainDiscarded a k r b q hp => exact ⟨hn, fun h => by simp [hp] at h⟩
  | ackByte a k r b q _ hp hc ha hx ht =>
    subst ht
    refine ⟨hn, fun _ => (hf hp).imp id fun h => ?_⟩
    have hl := congrArg List.length hx
    simp only [List.length_append, List.length_cons] at hl
    show _ ≤ s.ackCount + 1 + (q ++ []).length
    rw [List.append_nil]; omega
  | ackHeld a k r hp =>
    refine ⟨hn, fun _ => (hf hp).imp id fun h => ?_⟩
    simp only [State.moved_ackCount, State.moved_rxq, List.length_append]; omega
  | _ => exact out (by simp) (by simp) (by simp)

/-- Outside SENDCMD, where nothing is to arrive, an operation ends as it does with the timeline taken away; the environment's
departures are all that differs. -/
theorem run_quiet {s v : State} {m n : Nat} (hp : s.phase ≠ .idle) (hn : ¬ s.Sending) (hq : s.quiescent = true) (hf : s.Fed)
    (h : runUntil State.isIdle m s.calm = .next v) (hv : v.phase = .idle) (hb : s.work + s.rank ≤ n) :
    ∃ t, runUntil State.isIdle n s = .next t ∧ t.phase = .idle ∧ t.calm = v ∧ Brought s.inputs [] t.inputs ∧
      quietInputs t.inputs = true ∧ Transmits s t := by
  let P : State → Prop := fun u => ¬ u.Sending ∧ u.quiescent = true ∧ u.Fed ∧ (∃ m, runUntil State.isIdle m u.calm = .next v) ∧
    Brought s.inputs [] u.inputs ∧ Transmits s u
  have key := runUntil_reaches (P := P) (G := fun u => u.phase = .idle) (s := s)
    ⟨hn, hq, hf, ⟨m, h⟩, Brought.refl _, List.prefix_rfl, rfl⟩ ?_
  · obtain ⟨k, t, ⟨-, qt, -, ⟨m, hm⟩, bt, tt⟩, gt, hk, hr⟩ := key
    obtain ⟨d, rfl⟩ := Nat.exists_eq_add_of_le (show k ≤ n by omega)
    have e : runUntil State.isIdle m t.calm = .next t.calm := runUntil_stop m (by simpa [State.isIdle] using gt)
    rw [e] at hm
    injection hm with hm
    refine ⟨t, ?_, gt, hm, bt, qt, tt⟩
    rw [hr _ fun u _ h => by simpa [State.isIdle] using h]
    exact runUntil_stop d (by simpa [State.isIdle] using gt)
  · rintro u ⟨nu, qu, fu, ⟨m, hm⟩, bu, tu⟩ gu
    have ht : u.phase = .ackwait → u.ackCount < params.ackLen → u.rxq = [] → u.line.timesOut = true := by
      intro h1 h2 h3
      rcases fu h1 with h | h
      · exact h
      · rw [h3] at h; simp at h; omega
    cases m with
    | zero => 
      rw [runUntil] at hm
      injection hm with hm
      exact absurd (by rw [← hm] at hv; exact hv) gu
    | succ m =>
      rw [runUntil, if_neg (by simpa [State.isIdle] using gu)] at hm
      cases hw : tick u.calm with
      | fault f => rw [hw] at hm; cases hm
      | refused r => rw [hw] at hm; cases hm
      | next w =>
        rw [hw] at hm
        obtain ⟨t, ht', ht2⟩ := tick_calm gu nu qu ht hw
        obtain ⟨a, ta, -⟩ := tick_receives ht'
        obtain ⟨rfl, qt⟩ := ta.quiet gu qu
        have hu := tick_uses (finiteInputs_of_quiet qu) (fun h => absurd h nu) ht gu ht'
        refine ⟨t, ht', ⟨(tick_fed ht' nu fu).1, qt, (tick_fed ht' nu fu).2, ?_, bu.trans ta.brought, ?_⟩, hu.2.2⟩
        · rcases ht2 with h | h
          · exact ⟨m, by rw [h]; exact hm⟩
          · exact ⟨m + 1, by rw [h, runUntil, if_neg (by simpa [State.isIdle] using gu), hw]; exact hm⟩
        · exact ⟨tu.1.trans (tick_prefix ht'), (tick_transmits ht' nu).trans tu.2⟩

end Sys2Proof.Machine
end

