-- ==== Sys2Proof/Laws/Send.lean ====
section
/-! SUPPORT. Everything SENDCMD can do while the environment does what it likes (spec/46_helpers.md rules R140 to R142), said
once: one relation that every tick inside SENDCMD keeps, how SENDCMD returns, and what it leaves when nothing arrives. -/

namespace Sys2Proof.Machine

/-- Where SENDCMD, entered at `s`, has come to at `u` (R140, R141), whatever the environment did: `a` arrived, `d` was discarded,
and everything outside the transport and the place stays. -/
structure SendAt (s u : State) (a d : List Byte) : Prop where
  rest : u = { s with
    rxq := u.rxq, txq := u.txq, txlog := u.txlog, inputs := u.inputs, point := u.point, flushCount := u.flushCount }
  sending : s.Sending
  turns : Turns s.phase s.inputs a u.inputs
  received : s.rxq ++ a = d ++ u.rxq
  before : u.point = .start ∨ u.point = .flushBefore ∨ u.point = .settle → d = []
  counted : u.point = .drain ∨ u.point = .write ∨ u.point = .flushAfter → d.length = u.flushCount
  emptied : u.point = .write ∨ u.point = .flushAfter → s.rxq.length ≤ d.length
  log : s.txlog <+: u.txlog
  unsent : u.point ≠ .flushAfter → u.txlog ++ u.txq = s.txlog ++ s.txq
  sent : u.point = .flushAfter → u.txlog ++ u.txq = s.txlog ++ s.txq ++ commandFrame s.cmd1 s.cmd2

/-- SENDCMD's start. -/
theorem SendAt.start {s : State} (hs : s.Sending) (hp : s.point = .flushBefore) : SendAt s s [] [] where
  rest := rfl
  sending := hs
  turns := Turns.refl _ _
  received := by simp
  before _ := rfl
  counted h := by simp [hp] at h
  emptied h := by simp [hp] at h
  log := List.prefix_rfl
  unsent _ := rfl
  sent h := by simp [hp] at h

/-- What stays as it was. -/
theorem SendAt.same {s u : State} {a d : List Byte} (h : SendAt s u a d) :
    u.phase = s.phase ∧ u.act = s.act ∧ u.cmd1 = s.cmd1 ∧ u.cmd2 = s.cmd2 ∧ u.line = s.line := by
  rw [h.rest]; exact ⟨rfl, rfl, rfl, rfl, rfl⟩

/-- The engine is inside SENDCMD. -/
theorem SendAt.inside {s u : State} {a d : List Byte} (h : SendAt s u a d) : u.Sending := by
  rw [State.Sending, h.same.1]; exact h.sending

/-- A tick inside SENDCMD goes on in it, or leaves it with TXQ empty (R36). -/
theorem tick_sendAt {s u t : State} {a d : List Byte} (h : SendAt s u a d) (ht : tick u = .next t) :
    (∃ b e, SendAt s t b e) ∨
    ∃ w b, t = afterSend w ∧ SendAt s w b d ∧ w.point = .flushAfter ∧ w.txq = [] := by
  obtain ⟨f1, f2, f3, f4, -⟩ := h.same
  have no : ∀ {p}, u.phase = p → p ≠ .cmdtx → p ≠ .qreq → False := by
    rintro p rfl h2 h3
    rw [f1] at h2 h3
    exact h.sending.elim h2 h3
  have tr : ∀ {b r}, Turns u.phase u.inputs b r → Turns s.phase s.inputs (a ++ b) r := by
    intro b r hb; rw [f1] at hb; exact h.turns.trans hb
  have rc : ∀ b, s.rxq ++ (a ++ b) = d ++ (u.rxq ++ b) := by
    intro b; rw [← List.append_assoc, h.received, List.append_assoc]
  cases tick_cases ht with
  | idle e => exact (no e (by simp) (by simp)).elim
  | queryWaited _ _ _ e => exact (no e (by simp) (by simp)).elim
  | syncExhausted _ _ _ e => exact (no e (by simp) (by simp)).elim
  | syncFound _ _ _ _ e => exact (no e (by simp) (by simp)).elim
  | syncDiscarded _ _ _ _ _ e => exact (no e (by simp) (by simp)).elim
  | tooShort _ _ _ e => exact (no e (by simp) (by simp)).elim
  | longEnough _ _ _ e => exact (no e (by simp) (by simp)).elim
  | captured _ _ _ _ e => exact (no e (by simp) (by simp)).elim
  | swapped e => exact (no e (by simp) (by simp)).elim
  | checkPassed e => exact (no e (by simp) (by simp)).elim
  | checkFailed e => exact (no e (by simp) (by simp)).elim
  | committed _ e => exact (no e (by simp) (by simp)).elim
  | drainSettled _ _ _ e => exact (no e (by simp) (by simp)).elim
  | drainDiscarded _ _ _ _ _ e => exact (no e (by simp) (by simp)).elim
  | drainFinished _ _ _ e => exact (no e (by simp) (by simp)).elim
  | ackComplete e => exact (no e (by simp) (by simp)).elim
  | ackTimedOut _ _ _ e => exact (no e (by simp) (by simp)).elim
  | ackByte _ _ _ _ _ _ e => exact (no e (by simp) (by simp)).elim
  | ackHeld _ _ _ e => exact (no e (by simp) (by simp)).elim
  | confirmed e => exact (no e (by simp) (by simp)).elim
  | unconfirmed e => exact (no e (by simp) (by simp)).elim
  | flushHeld b k r _ hq ha =>
    refine .inl ⟨a ++ b, d, ?_, h.sending, tr ha.2, rc b, h.before, h.counted, h.emptied, h.log.trans (by simp),
      fun hp => by simpa using h.unsent hp, fun hp => by simpa using h.sent hp⟩
    rw [h.rest]; rfl
  | flushedBefore b r _ hq ha =>
    refine .inl ⟨a ++ b, d, ?_, h.sending, tr ha.2, rc b, fun _ => h.before (hq.imp id .inl), by simp, by simp,
      h.log.trans (by simp), fun hp => ?_, fun hp => ?_⟩
    · rw [h.rest]; rfl
    · simpa using h.unsent (by rcases hq with hq | hq <;> simp [hq])
    · simp at hp
  | settled b k r _ hq ha =>
    refine .inl ⟨a ++ b, d, ?_, h.sending, tr ha.2, rc b, by simp, fun _ => by simp [h.before (by simp [hq])], by simp,
      h.log.trans (by simp), fun hp => ?_, fun hp => ?_⟩
    · rw [h.rest]; rfl
    · simpa using h.unsent (by simp [hq])
    · simp at hp
  | sendDiscarded b k r x q _ hq ha hx =>
    refine .inl ⟨a ++ b, d ++ [x], ?_, h.sending, tr ha.2, ?_, by simp [hq], fun _ => ?_, by simp [hq],
      h.log.trans (by simp), fun hp => ?_, fun hp => ?_⟩
    · rw [h.rest]; rfl
    · rw [rc b, hx]; simp
    · simp [h.counted (.inl hq)]
    · simpa using h.unsent (by simp [hq])
    · simp [hq] at hp
  | sendDrained b k r _ hq ha hx =>
    refine .inl ⟨a ++ b, d, ?_, h.sending, tr ha.2, rc b, by simp, fun _ => h.counted (.inl hq), fun _ => ?_,
      h.log.trans (by simp), fun hp => ?_, fun hp => ?_⟩
    · rw [h.rest]; rfl
    · have := congrArg List.length (rc b)
      rw [hx] at this
      simp only [List.length_append, List.length_nil] at this; omega
    · simpa using h.unsent (by simp [hq])
    · simp [hq] at hp
  | written b k r _ hq hk he =>
    refine .inl ⟨a ++ b, d, ?_, h.sending, tr he, rc b, by simp, fun _ => h.counted (.inr (.inl hq)),
      fun _ => h.emptied (.inl hq), h.log.trans (by simp), fun hp => ?_, fun hp => ?_⟩
    · rw [h.rest]; rfl
    · simp at hp
    · have := h.unsent (by simp [hq])
      simp [← this, f3, f4]
  | sent b r _ hq ha =>
    refine .inr ⟨_, a ++ b, rfl, ⟨?_, h.sending, tr ha.2, rc b, h.before, h.counted, h.emptied, h.log.trans (by simp),
      fun hp => ?_, fun hp => ?_⟩, hq, by simp⟩
    · rw [h.rest]; rfl
    · simpa using h.unsent hp
    · simpa using h.sent hp

/-- Inside SENDCMD nothing faults. -/
theorem sendAt_tick {s u : State} {a d : List Byte} (h : SendAt s u a d) : ∃ t, tick u = .next t := by
  rw [tick_sending h.inside]
  unfold sendTick
  split
  · exact ⟨_, rfl⟩
  · obtain ⟨_, _, _, _, _, ⟨e, -⟩ | ⟨_, _, e, -⟩⟩ := drainTick_effect (fun t => t.atPoint .write) u <;> exact ⟨_, e⟩
  all_goals exact ⟨_, rfl⟩

/-- SENDCMD, where its bytes are let go and no endless source is reached, returns, and what it used up bounds the run. -/
theorem send_returns {s : State} (hs : s.Sending) (hp : s.point = .flushBefore)
    (hf : finiteInputs s.inputs = true) (hx : s.line.txProgress = true) :
    ∃ n w a d, SendAt s w a d ∧ w.point = .flushAfter ∧ w.txq = [] ∧
      n + ((afterSend w).work + (afterSend w).rank) ≤ s.work + s.rank ∧
      ∀ stop : State → Bool, (∀ u : State, u.Sending → stop u = false) →
        ∀ m, runUntil stop (n + m) s = runUntil stop m (afterSend w) := by
  let G : State → Prop := fun u => ∃ w a d, u = afterSend w ∧ SendAt s w a d ∧ w.point = .flushAfter ∧ w.txq = []
  have key := runUntil_reaches (s := s) (G := G)
    (P := fun u => u.line = s.line ∧ finiteInputs u.inputs = true ∧ ((∃ a d, SendAt s u a d) ∨ G u))
    ⟨rfl, hf, .inl ⟨[], [], SendAt.start hs hp⟩⟩ ?_
  · obtain ⟨n, t, -, ⟨w, a, d, rfl, hw, hp, hq⟩, hn, hr⟩ := key
    refine ⟨n, w, a, d, hw, hp, hq, hn, fun stop hstop => hr stop ?_⟩
    rintro u ⟨-, -, pu⟩ gu
    obtain ⟨a, d, pu⟩ := pu.resolve_right gu
    exact hstop u pu.inside
  · rintro u ⟨lu, fu, pu⟩ gu
    obtain ⟨a, d, pu⟩ := pu.resolve_right gu
    obtain ⟨v, hv⟩ := sendAt_tick pu
    have hu := pu.inside
    have hi : u.phase ≠ .idle := by rcases hu with h | h <;> simp [h]
    obtain ⟨k1, k2, k3⟩ := tick_uses fu (fun _ => by rw [lu]; exact hx)
      (fun h => by rcases hu with h' | h' <;> simp [h'] at h) hi hv
    refine ⟨v, hv, ⟨k1.trans lu, k2, ?_⟩, k3⟩
    rcases tick_sendAt pu hv with h | ⟨w, b, h⟩
    · exact .inl h
    · exact .inr ⟨w, b, d, h⟩

/-- What SENDCMD leaves when nothing is to arrive, with `r` left of the timeline. -/
theorem SendAt.quiet {s w : State} {a d : List Byte} (h : SendAt s w a d) (hq : s.quiescent = true) (hp : w.point = .flushAfter)
    (hx : w.txq = []) :
    w = { s.commanded with inputs := w.inputs } ∧ Brought s.inputs [] w.inputs ∧ quietInputs w.inputs = true := by
  have hi : s.phase ≠ .idle := by rcases h.sending with h | h <;> simp [h]
  obtain ⟨rfl, hr⟩ := h.turns.quiet hi hq
  have h1 := h.received
  have h2 := h.emptied (.inr hp)
  have h3 := h.counted (.inr (.inr hp))
  have h4 := h.sent hp
  rw [List.append_nil] at h1
  rw [h1] at h2
  have h5 : w.rxq = [] := by
    rw [List.length_append] at h2
    exact List.length_eq_zero_iff.1 (by omega)
  rw [h5, List.append_nil] at h1
  rw [hx, List.append_nil] at h4
  refine ⟨?_, h.turns.brought, hr⟩
  rw [h.rest, h5, hx, hp, h4, ← h3, ← h1]
  rfl

end Sys2Proof.Machine
end

