-- ==== Sys2Proof/Tests/Slice0.lean ====
section
/-! SUPPORT. The model's own tests: the well-formedness smoke test, the decoding of words written out from the tables, steps on
vectors of spec/95_test_vectors.md (each named by its id), and, for every statement that has hypotheses, states and operands
that meet them. -/

namespace Sys2Proof.Tests

open Sys2Proof.Machine

/-! ## Well-formedness: ill-formed terms are refused (R53, R54, R56) -/

def frameA : PushFrame :=
  { marker1 := 0x4D, declLen := 0x0014, lead := [0, 0, 0], pm1_0 := 12, pm2_5 := 35, pm10 := 40, trail := [0, 0, 0],
    checksum := 0x00FA }

def frameB : PushFrame :=
  { marker1 := 0x4D, declLen := 0x001C, lead := [0, 0, 0], pm1_0 := 5, pm2_5 := 17, pm10 := 23,
    trail := [0x0061, 0, 0, 0, 0, 0, 0x0097], checksum := 0x01D0 }

def frameQ : QueryFrame := { marker1 := 0x86, pm2_5 := 35, pm10 := 40, pm1_0 := 12, checksum := 0x23 }

def ack : AckFrame := { marker0 := 0xFF, fill := [0, 0, 0, 0, 0] }

theorem test_wf_accepts :
    (Instr.framePushA frameA).wf ∧ (Instr.framePushB frameB).wf ∧ (Instr.frameQuery frameQ).wf ∧ (Instr.ackSleep ack).wf ∧
      (Instr.ackWake ack).wf := by decide

theorem test_wf_refuses_lead_of_A : (Instr.framePushA { frameA with lead := [0, 0] }).wf = false := by decide
theorem test_wf_refuses_trail_of_A : (Instr.framePushA frameB).wf = false := by decide
theorem test_wf_refuses_lead_of_B : (Instr.framePushB { frameB with lead := [0, 0, 0, 0] }).wf = false := by decide
theorem test_wf_refuses_trail_of_B : (Instr.framePushB frameA).wf = false := by decide
theorem test_wf_refuses_ack_sleep : (Instr.ackSleep { ack with fill := [0, 0, 0, 0] }).wf = false := by decide
theorem test_wf_refuses_ack_wake : (Instr.ackWake { ack with fill := [0, 0, 0, 0, 0, 0] }).wf = false := by decide

/-! ## Decoding: words written out from R52 to R56 and R60 -/

theorem test_decode_getmode : decode .hostOp [0x00] = .ok .getmode := by decide
theorem test_decode_setmode_push : decode .hostOp [0x01] = .ok (.setmode .push) := by decide
theorem test_decode_setmode_query : decode .hostOp [0x11] = .ok (.setmode .query) := by decide
theorem test_decode_setinitiative : decode .hostOp (encode .setinitiative) = .ok (.setmode .push) := by decide
theorem test_decode_setqanda : decode .hostOp (encode .setqanda) = .ok (.setmode .query) := by decide
theorem test_decode_readdata : decode .hostOp [0x02] = .ok .readdata := by decide
theorem test_decode_getpm1_0 : decode .hostOp [0x03] = .ok .getpm1_0 := by decide
theorem test_decode_getpm2_5 : decode .hostOp [0x04] = .ok .getpm2_5 := by decide
theorem test_decode_getpm10_0 : decode .hostOp [0x05] = .ok .getpm10_0 := by decide
theorem test_decode_sleep : decode .hostOp [0x06] = .ok .sleep := by decide
theorem test_decode_wakeup : decode .hostOp [0x07] = .ok .wakeup := by decide

theorem test_decode_cmdSetPush :
    decode .outbound [0xFF, 0x01, 0x78, 0x40, 0x00, 0x00, 0x00, 0x00, 0x47] = .ok .cmdSetPush := by decide
theorem test_decode_cmdSetQuery :
    decode .outbound [0xFF, 0x01, 0x78, 0x41, 0x00, 0x00, 0x00, 0x00, 0x46] = .ok .cmdSetQuery := by decide
theorem test_decode_cmdQuery :
    decode .outbound [0xFF, 0x01, 0x86, 0x00, 0x00, 0x00, 0x00, 0x00, 0x79] = .ok .cmdQuery := by decide
theorem test_decode_cmdSleep :
    decode .outbound [0xFF, 0x01, 0xA7, 0x01, 0x00, 0x00, 0x00, 0x00, 0x57] = .ok .cmdSleep := by decide
theorem test_decode_cmdWake :
    decode .outbound [0xFF, 0x01, 0xA7, 0x00, 0x00, 0x00, 0x00, 0x00, 0x58] = .ok .cmdWake := by decide

/-- V1's frame. -/
def wireA : List Byte :=
  [0x42, 0x4D, 0x00, 0x14, 0, 0, 0, 0, 0, 0, 0x00, 0x0C, 0x00, 0x23, 0x00, 0x28, 0, 0, 0, 0, 0, 0, 0x00, 0xFA]

/-- V20's frame. -/
def wireB : List Byte :=
  [0x42, 0x4D, 0x00, 0x1C, 0, 0, 0, 0, 0, 0, 0x00, 0x05, 0x00, 0x11, 0x00, 0x17, 0x00, 0x61, 0, 0, 0, 0, 0, 0, 0, 0, 0, 0,
   0x00, 0x97, 0x01, 0xD0]

/-- V30's reply. -/
def wireQ : List Byte := [0xFF, 0x86, 0x00, 0x23, 0x00, 0x28, 0x00, 0x0C, 0x23]

/-- V60's acknowledgment. -/
def wireAckSleep : List Byte := [0xFF, 0xA7, 0x01, 0, 0, 0, 0, 0, 0x58]

/-- V61's acknowledgment. -/
def wireAckWake : List Byte := [0xFF, 0xA7, 0x00, 0, 0, 0, 0, 0, 0x58]

theorem test_decode_framePushA : decode .pushA wireA = .ok (.framePushA frameA) := by decide
theorem test_decode_framePushB : decode .pushB wireB = .ok (.framePushB frameB) := by decide
theorem test_decode_frameQuery : decode .query wireQ = .ok (.frameQuery frameQ) := by decide
theorem test_decode_ackSleep : decode .ackSleep wireAckSleep = .ok (.ackSleep ack) := by decide
theorem test_decode_ackWake : decode .ackWake wireAckWake = .ok (.ackWake ack) := by decide

/-- V80: the words refused. -/
theorem test_decode_refuses : ∀ w ∈ ([0x08, 0x0F, 0x10, 0x12, 0x16, 0x21, 0x81, 0xFF] : List Byte),
    decode .hostOp [w] = .error .noOperation := by decide

/-- A word of the table with its first byte in the least significant bits. -/
theorem test_table_word : decodeTableWord 72 0 = none ∧ decodeTableWord 72 0x58000000000001A7FF = some (.ackSleep ack) ∧
    decodeTableWord 8 0x11 = some (.setmode .query) := by decide

/-! ## Steps -/

/-- An engine in IDLE with the measurement (7, 8, 9), these bytes in RXQ and this timeline. -/
def engine (v : Variant) (m : Mode) (q : List Byte) (ins : List Input) : State :=
  { State.resetWith v with
    mode := m, fs := BitVec.ofNat 6 (frameSize m v), pm1_0 := 7, pm2_5 := 8, pm10 := 9, lmWritten := true, rxq := q, inputs := ins }

/-- The next state, if there is one, passes a test. -/
def ends (r : Result) (p : State → Bool) : Bool :=
  match r with
  | .next t => p t
  | .fault _ => false
  | .refused _ => false

/-- The measurement registers. -/
def lm (t : State) : List Nat := [t.pm1_0.toNat, t.pm2_5.toNat, t.pm10.toNat]

/-- V80, the step: a word that names no operation is refused by name. -/
theorem test_step_refuses : (match step (engine .a .push [] [.host 0x16]) with
    | .refused (.noOperation w) => w == 0x16
    | _ => false) = true := by decide

/-- R47, R59: the step takes the host's word off the timeline and runs it. -/
theorem test_step_runs : ends (step (engine .b .query [] [.host 0x00]))
    (fun t => t.data == 1 && t.status && t.inputs == []) = true := by decide

/-- R73 after reset. -/
theorem test_getmode_push : ends (exec .getmode State.reset) (fun t => t.status && t.errkind == .none && t.data == 0) = true := by
  decide

theorem test_getmode_query : ends (exec .getmode (engine .a .query [] [])) (fun t => t.data == 1) = true := by decide

/-- V50. -/
theorem test_setmode_query : ends (exec (.setmode .query) (engine .a .push [0x42, 0x4D, 0x00] []))
    (fun t => t.mode == .query && t.fs == 9 && t.status && t.rxq == [] && lm t == [7, 8, 9] &&
      t.txlog == [0xFF, 0x01, 0x78, 0x41, 0, 0, 0, 0, 0x46]) = true := by decide

/-- V55: the second drain takes what arrives after the command; what arrives after it stays. -/
theorem test_setmode_drains_twice : ends (exec (.setmode .query) (engine .a .push [0x01]
      [.waitFor .drain, .rx [0x42, 0x4D, 0x00, 0x14], .waitFor .idle, .rx [0x00]]))
    (fun t => t.phase == .idle && t.rxq == [] && t.inputs == [.waitFor .idle, .rx [0x00]]) = true := by decide

/-- V53. -/
theorem test_setinitiative : ends (exec .setinitiative (engine .b .query [0xFF] []))
    (fun t => t.mode == .push && t.fs == 32 && t.status && t.rxq == [] &&
      t.txlog == [0xFF, 0x01, 0x78, 0x40, 0, 0, 0, 0, 0x47]) = true := by decide

/-- V52. -/
theorem test_setqanda : ends (exec .setqanda (engine .b .push wireB []))
    (fun t => t.mode == .query && t.fs == 9 && t.status && t.rxq == []) = true := by decide

/-- V3: garbage, a frame, two bytes of the next. -/
theorem test_readdata_push : ends (exec .readdata (engine .a .push ([0x00, 0x4D, 0xFF, 0x13, 0x41, 0x43] ++ wireA ++ [0x42, 0x4D]) []))
    (fun t => t.status && lm t == [12, 35, 40] && t.rxq == [0x42, 0x4D] && t.txlog == []) = true := by decide

/-- V30: the reply's fields are in wire order PM2.5, PM10, PM1.0. -/
theorem test_readdata_query : ends (exec .readdata (engine .a .query [] [.waitFor .qwait, .rx wireQ]))
    (fun t => t.status && lm t == [12, 35, 40] && t.rxq == [] &&
      t.txlog == [0xFF, 0x01, 0x86, 0, 0, 0, 0, 0, 0x79]) = true := by decide

/-- V56. -/
theorem test_getpm1_0 : ends (exec .getpm1_0 (engine .a .push [] [])) (fun t => t.status && t.data == 7 && lm t == [7, 8, 9]) = true := by
  decide

/-- V57: whatever MODE is. -/
theorem test_getpm2_5 : ends (exec .getpm2_5 (engine .a .query [] [])) (fun t => t.status && t.data == 8) = true := by decide

theorem test_getpm10_0 : ends (exec .getpm10_0 (engine .a .push [] [])) (fun t => t.status && t.data == 9) = true := by decide

/-- V59: before a first success an accessor still succeeds; its DATA is tested by nothing. -/
theorem test_getpm1_0_unwritten : ends (exec .getpm1_0 State.reset) (fun t => t.status && t.errkind == .none && t.draws == 1) = true := by
  decide

/-- V70: nine bytes of something else stand in front of the acknowledgment. -/
theorem test_sleep_not_confirmed : ends (exec .sleep (engine .a .push []
      [.waitFor .ackwait, .rx ([0x00, 0x28, 0, 0, 0, 0, 0, 0, 0, 0xFA] ++ wireAckSleep)]))
    (fun t => !t.status && t.errkind == .cmdNotConfirmed && t.rxq == [0xFA] ++ wireAckSleep && t.mode == .push) = true := by decide

/-- V60. -/
theorem test_sleep : ends (exec .sleep (engine .a .push [] [.waitFor .ackwait, .rx wireAckSleep]))
    (fun t => t.status && t.rxq == [] && t.txlog == [0xFF, 0x01, 0xA7, 0x01, 0, 0, 0, 0, 0x57]) = true := by decide

/-- V71. -/
theorem test_wakeup : ends (exec .wakeup (engine .a .push [0x42, 0x4D] [.waitFor .ackwait, .rx (wireAckWake ++ [0x42, 0x4D, 0x00])]))
    (fun t => t.status && t.rxq == [0x42, 0x4D, 0x00] && lm t == [7, 8, 9]) = true := by decide

/-- V65: no reply, and a Timeout. -/
theorem test_wakeup_timeout : ends (exec .wakeup (engine .a .push [] [.waitFor .ackwait, .timeout]))
    (fun t => !t.status && t.errkind == .cmdNotConfirmed) = true := by decide

/-- V75 to V77: what RXFLUSH returns; V77's first byte arrives while the loop runs, its second after the last look. -/
theorem test_rxflush_counts :
    ends (exec .cmdSleep (engine .a .push [0x42, 0x4D, 0x00, 0x14, 0x00] [])) (fun t => t.flushCount == 5 && t.rxq == []) = true ∧
    ends (exec .cmdSleep (engine .a .push [] [])) (fun t => t.flushCount == 0 && t.rxq == []) = true ∧
    ends (exec .cmdSleep (engine .a .push [0xAA] [.pass, .pass, .pass, .rx [0xBB], .pass, .pass, .pass, .pass, .rx [0xCC]]))
      (fun t => t.flushCount == 2 && t.rxq == [0xCC]) = true := by decide

/-- V78 and R52: each command row sends its nine bytes. -/
theorem test_cmdQuery : ends (exec .cmdQuery (engine .a .query [0x12, 0x34] []))
    (fun t => t.phase == .idle && t.rxq == [] && t.txq == [] && t.txlog == [0xFF, 0x01, 0x86, 0, 0, 0, 0, 0, 0x79]) = true := by decide

theorem test_cmdSetPush : ends (exec .cmdSetPush (engine .a .push [] []))
    (fun t => t.txlog == [0xFF, 0x01, 0x78, 0x40, 0, 0, 0, 0, 0x47]) = true := by decide

theorem test_cmdSetQuery : ends (exec .cmdSetQuery (engine .a .push [] []))
    (fun t => t.txlog == [0xFF, 0x01, 0x78, 0x41, 0, 0, 0, 0, 0x46]) = true := by decide

theorem test_cmdSleep : ends (exec .cmdSleep (engine .a .push [] []))
    (fun t => t.txlog == [0xFF, 0x01, 0xA7, 0x01, 0, 0, 0, 0, 0x57]) = true := by decide

theorem test_cmdWake : ends (exec .cmdWake (engine .a .push [] []))
    (fun t => t.txlog == [0xFF, 0x01, 0xA7, 0x00, 0, 0, 0, 0, 0x58]) = true := by decide

/-- READDATA in SYNC, with RXQ empty. -/
def reading (v : Variant) (m : Mode) (ins : List Input) : State :=
  { engine v m [] ins with phase := .sync, act := .readdata }

/-- SLEEP or WAKEUP in ACKWAIT, with RXQ empty. -/
def confirming (a : Activity) : State := { engine .a .push [] [] with phase := .ackwait, act := a }

/-- V1, V20, V30: the frames as they come in. -/
theorem test_framePushA : ends (exec (.framePushA frameA) (reading .a .push []))
    (fun t => t.status && lm t == [12, 35, 40] && t.rxq == []) = true := by decide

set_option maxRecDepth 4096 in
theorem test_framePushB : ends (exec (.framePushB frameB) (reading .b .push []))
    (fun t => t.status && lm t == [5, 17, 23] && t.rxq == []) = true := by decide

theorem test_frameQuery : ends (exec (.frameQuery frameQ) (reading .a .query []))
    (fun t => t.status && lm t == [12, 35, 40] && t.rxq == []) = true := by decide

/-- V5: one byte of the frame changed. -/
theorem test_framePushA_corrupt : ends (exec (.framePushA { frameA with pm2_5 := 36 }) (reading .a .push []))
    (fun t => !t.status && t.errkind == .checksumMismatch && lm t == [7, 8, 9] && t.rxq == []) = true := by decide

/-- V60, V63. -/
theorem test_ackSleep : ends (exec (.ackSleep ack) (confirming .sleep)) (fun t => t.status) = true ∧
    ends (exec (.ackSleep ack) (confirming .wakeup)) (fun t => !t.status && t.errkind == .cmdNotConfirmed) = true := by decide

/-- V61, V62. -/
theorem test_ackWake : ends (exec (.ackWake ack) (confirming .wakeup)) (fun t => t.status) = true ∧
    ends (exec (.ackWake ack) (confirming .sleep)) (fun t => !t.status && t.errkind == .cmdNotConfirmed) = true := by decide

/-- Each row's word is fetched and run as the first instruction after reset. -/
theorem test_fetch_word : ends (step (State.reset.withFetchWord 8 0x11)) (fun t => t.mode == .query) = true ∧
    ends (step (State.reset.withFetchWord 72 0x79000000000086_01FF)) (fun t => t.phase == .qwait) = true ∧
    ends (step (State.reset.withFetchWord 72 0x58000000000001A7FF)) (fun t => t.status) = true := by decide

/-! ## Witnesses: states and operands that meet a statement's hypotheses, clause by clause -/

/-- What `ends` says. -/
theorem ends_next {r : Result} {p : State → Bool} (h : ends r p = true) : ∃ t, r = .next t ∧ p t = true := by
  cases r with
  | next t => exact ⟨t, rfl, h⟩
  | fault f => cases h
  | refused x => cases h

/-- There is a next state. -/
def any (_ : State) : Bool := true

theorem witness_EncodeDecodeRoundTrip : ∀ i ∈ [Instr.getmode, .setmode .query, .setqanda, .cmdWake, .framePushA frameA,
    .framePushB frameB, .frameQuery frameQ, .ackSleep ack, .ackWake ack], i.wf = true := by decide

theorem witness_DecodedBytesAreTheEncoding : decode .pushB wireB = .ok (.framePushB frameB) := by decide

/-- Both cases, at the values where they meet. -/
theorem witness_WordsNamingNoOperationAreRefused :
    (∀ w ∈ ([0x08, 0x20, 0x10] : List Byte), (engine .a .push [] [.host w]).phase = .idle ∧
      (8 ≤ w.toNat % 16 ∨ 32 ≤ w.toNat ∨ (w.getLsbD 4 = true ∧ w.toNat % 16 ≠ 1))) ∧
    (∀ w ∈ ([0x07, 0x11] : List Byte), (engine .a .push [] [.host w]).phase = .idle ∧
      ¬(8 ≤ w.toNat % 16 ∨ 32 ≤ w.toNat ∨ (w.getLsbD 4 = true ∧ w.toNat % 16 ≠ 1))) := by decide

theorem witness_StepRunsTheDecodedInstruction :
    ((engine .a .push [] [.host 0x02]).phase = .idle ∧ decode .hostOp [0x02] = .ok .readdata) ∧
    ((State.reset.beginSend .sleep params.cmdSleep).Sending ∧
      (State.reset.beginSend .sleep params.cmdSleep).point = .flushBefore ∧
      decode .outbound (commandFrame params.cmdSleep.c1 params.cmdSleep.c2) = .ok .cmdSleep) ∧
    ((reading .b .push [.rx wireB]).inputs = [.rx wireB] ∧
      inboundContext (reading .b .push [.rx wireB]) = some .pushB ∧ decode .pushB wireB = .ok (.framePushB frameB)) := by decide

theorem witness_OperationsAreRefusedWhileBusy : Instr.context .sleep = .hostOp ∧ (reading .a .push []).phase ≠ .idle := by decide

theorem witness_IdleMovesTouchTheTransportOnly : (engine .a .push [] [.rx [0x42]]).phase = .idle ∧
    (engine .a .push [] [.rx [0x42]]).inputs = [.rx [0x42]] := by decide

theorem witness_StepKeepsTheInvariant :
    ((engine .a .push wireA [.host 0x02]).Inv ∧ ends (step (engine .a .push wireA [.host 0x02])) any = true) ∧
    ((reading .b .push [.rx wireB]).Inv ∧ ends (step (reading .b .push [])) any = true) ∧
    ((confirming .sleep).Inv ∧ ends (step (confirming .sleep)) any = true) := by decide

/-- Both cases. -/
theorem witness_OnlyUnknownWordsStopTheMachine : (engine .a .push [] []).Inv ∧ (engine .b .query [] [.host 0x08]).Inv := by decide

/-- Each row of the table of R13. -/
theorem witness_FrameSizeFitsModeAndVariant :
    ((engine .a .query [] []).Geometry ∧
      ends (exec (.setmode .push) (engine .a .query [] [])) (fun t => t.mode == .push && t.fs == 24) = true) ∧
    ((engine .b .query [] []).Geometry ∧
      ends (exec (.setmode .push) (engine .b .query [] [])) (fun t => t.mode == .push && t.fs == 32) = true) ∧
    ((engine .a .push [] []).Geometry ∧
      ends (exec (.setmode .query) (engine .a .push [] [])) (fun t => t.mode == .query && t.fs == 9) = true) := by decide

theorem witness_VariantAndTimeoutNeverChange :
    ends (exec .readdata (engine .a .push [] [])) any = true ∧ ends (step (engine .a .push [] [.host 0x02])) any = true := by decide

theorem witness_BufferStaysCanonical : (engine .a .push wireA []).buf.wf = true ∧ (engine .a .push wireA []).buf.inRange = true ∧
    ends (exec .readdata (engine .a .push wireA [])) (fun t => t.buf != []) = true := by decide

theorem witness_TransmissionIsFirstInFirstOut :
    ends (exec .sleep { engine .a .push [] [] with txq := [0xAA], txlog := [0xBB] })
      (fun t => t.txlog.take 3 == [0xBB, 0xAA, 0xFF]) = true := by decide

theorem witness_ReceptionIsFirstInFirstOut :
    ends (exec (.ackWake ack) (engine .a .push [0x01] [])) (fun t => t.rxq == 0x01 :: wireAckWake) = true ∧
    ends (exec .readdata (engine .a .push wireA [.rx [0x01], .depart, .rx [0x02]])) (fun t => t.rxq == [0x01, 0x02]) = true ∧
    ends (step (engine .a .push wireA [.host 0x02, .rx [0x01]])) (fun t => t.rxq == [0x01]) = true := by decide

/-- A success, and each failure of each kind of operation. -/
theorem witness_ResultsOfEveryOperation :
    ends (exec .readdata (engine .a .push wireA [])) (fun t => t.phase == .idle && t.errkind == .none) = true ∧
    ends (exec .readdata (engine .a .push [0x42] [])) (fun t => t.phase == .idle && t.errkind == .shortFrame) = true ∧
    ends (exec .wakeup (engine .a .push [] [])) (fun t => t.phase == .idle && t.errkind == .cmdNotConfirmed) = true ∧
    ends (exec .getmode (engine .a .push [] [])) (fun t => t.phase == .idle) = true := by decide

theorem witness_OnlyASuccessfulReadWritesTheMeasurement :
    ends (exec .wakeup (engine .a .push [] [])) (fun t => t.phase == .idle) = true ∧
    ends (exec .readdata (engine .a .push [0x42] [])) (fun t => t.phase == .idle && !t.status) = true := by decide

theorem witness_FailureLeavesTheRegisters :
    ends (exec .readdata (engine .a .push [] [])) (fun t => t.phase == .idle && !t.status) = true ∧
    ends (exec .sleep (engine .a .push [] [])) (fun t => t.phase == .idle && !t.status) = true := by decide

theorem witness_BufferContentsNeverMatter : Instr.context .readdata = .hostOp ∧ (engine .a .push wireA []).Geometry ∧
    (engine .a .push wireA []).buf.wf = true ∧ Memory.wf [(0, 1), (31, 2)] = true ∧
    ends (exec .readdata (engine .a .push wireA [])) any = true := by decide

theorem witness_EveryOperationEnds : Instr.context .sleep = .hostOp ∧ State.reset.Inv ∧ State.reset.Fair ∧ State.reset.phase = .idle := by
  decide

theorem witness_GetmodeReturnsTheMode : (engine .a .query [] []).phase = .idle := by decide

/-- Departures, pauses, Timeouts and waits before the next host operation; arrivals after it. -/
def quietTime : List Input := [.depart, .pass, .timeout, .waitFor .cmdtx, .pass, .waitFor .drain, .host 0x00, .rx [0x42]]

theorem witness_QuiescentModeSwitch : ∀ v ∈ [Variant.a, .b], ∀ l ∈ [[], quietTime, [.waitFor .idle, .rx [0x42]]],
    (engine v .push wireA l).phase = .idle ∧ (engine v .push wireA l).quiescent = true ∧
    (engine v .push wireA l).line.txProgress = true := by decide

theorem witness_ModeSwitchFrame : ends (exec .setinitiative (engine .a .query [] [.rx [0x01], .depart, .pass]))
    (fun t => t.phase == .idle) = true := by decide

theorem witness_GetmodeAfterSetmode : ∀ m ∈ [Mode.push, .query],
    ends (exec (.setmode m) (engine .a .push wireA [])) (fun t => t.phase == .idle) = true := by decide

/-- No marker; one byte short of a frame; a frame that is accepted; a frame that is not. -/
theorem witness_QuiescentPushRead : ∀ q ∈ [[0x41], wireA.dropLast, 0x00 :: wireA, wireA.set 13 0x24],
    ∀ l ∈ [[], quietTime], (engine .a .push q l).phase = .idle ∧ (engine .a .push q l).quiescent = true ∧
      (engine .a .push q l).mode = .push ∧ (engine .a .push q l).Geometry ∧ (engine .a .push q l).buf.wf = true := by decide

theorem witness_QuiescentPushRead_clauses : fromMarker 0x42 [0x41] = [] ∧ (fromMarker 0x42 wireA.dropLast).length = 23 ∧
    pushValid ((fromMarker 0x42 (0x00 :: wireA)).take 24) = true ∧
    pushValid ((fromMarker 0x42 (wireA.set 13 0x24)).take 24) = false := by decide

theorem witness_QuiescentQueryReadMisses : (engine .a .query wireQ []).phase = .idle ∧ (engine .a .query wireQ []).quiescent = true ∧
    (engine .a .query wireQ []).line.txProgress = true ∧ (engine .a .query wireQ []).mode = .query ∧
    (engine .a .query wireQ []).Geometry := by decide

/-- No marker; one byte short of a frame; a frame that is accepted; a frame that is not. -/
theorem witness_QueryReadOfAReply : ∀ q ∈ [[0x7F], wireQ.dropLast, 0x00 :: wireQ, wireQ.set 8 0xA3],
    ∀ r ∈ [[], quietTime],
    (engine .a .query [0x42] (.waitFor .qwait :: .rx q :: r)).phase = .idle ∧
      (engine .a .query [0x42] (.waitFor .qwait :: .rx q :: r)).inputs = .waitFor .qwait :: .rx q :: r ∧
      quietInputs r = true ∧ (engine .a .query [0x42] (.waitFor .qwait :: .rx q :: r)).line.txProgress = true ∧
      (engine .a .query [0x42] (.waitFor .qwait :: .rx q :: r)).mode = .query ∧
      (engine .a .query [0x42] (.waitFor .qwait :: .rx q :: r)).Geometry ∧
      (engine .a .query [0x42] (.waitFor .qwait :: .rx q :: r)).buf.wf = true := by decide

theorem witness_QueryReadOfAReply_clauses : fromMarker 0xFF [0x7F] = [] ∧ (fromMarker 0xFF wireQ.dropLast).length = 8 ∧
    queryValid ((fromMarker 0xFF (0x00 :: wireQ)).take 9) = true ∧
    queryValid ((fromMarker 0xFF (wireQ.set 8 0xA3)).take 9) = false := by decide

/-- What the environment does when a reply comes in pieces: `l` while SENDCMD writes its last byte, `p` in QWAIT, then nothing
until the host's next operation. -/
def pieces (l p : List Byte) : List Input :=
  [.pass, .pass, .pass, .waitFor .qreq, .depart, .pass, .pass, .pass, .pass, .pass, .pass, .pass, .pass, .rx l, .pass,
   .waitFor .qwait, .rx (p.take 1), .timeout, .waitFor .qwait, .rx (p.drop 1), .pass, .host 0x00]

/-- A reply in three pieces, the first of them while the command is still being written: no marker; one byte short of a frame;
a frame that is accepted; a frame that is not. -/
theorem witness_QueryReadOfAnyReply : ∀ q ∈ [[0x7F], wireQ.dropLast, 0x00 :: wireQ, wireQ.set 8 0xA3],
    ends (exec .cmdQuery ((engine .a .query [0x42] (pieces (q.take 4) (q.drop 4))).serving .readdata))
      (fun u => u.phase == .qwait && u.rxq ++ arrivals ((u.inputs.take 5).drop 1) == q && u.rxq == q.take 4 &&
        inOneTurn .qwait (u.inputs.take 5) && quietInputs (u.inputs.drop 5)) = true := by decide

theorem witness_ReadFrame :
    ((engine .a .push wireA []).Geometry ∧ (engine .a .push wireA []).buf.wf = true ∧
      ends (exec .readdata (engine .a .push wireA [])) any = true) ∧
    ((engine .a .query [] []).Geometry ∧ (engine .a .query [] []).buf.wf = true ∧
      ends (exec .readdata (engine .a .query [] [])) (fun t => t.phase == .idle && !t.status) = true) := by decide

theorem witness_AcceptedMeasurementIsOneValidFrame :
    ((engine .a .push wireA []).Geometry ∧ (engine .a .push wireA []).buf.wf = true ∧
      ends (exec .readdata (engine .a .push wireA [])) (fun t => t.phase == .idle && t.status) = true) ∧
    ((engine .a .query [] [.waitFor .qwait, .rx wireQ]).Geometry ∧
      ends (exec .readdata (engine .a .query [] [.waitFor .qwait, .rx wireQ])) (fun t => t.phase == .idle && t.status) = true) := by
  decide

theorem witness_SilentStreamFailsEveryRead : ∀ m ∈ [Mode.push, .query], (engine .a m [] []).phase = .idle ∧
    (engine .a m [] []).quiescent = true ∧ (engine .a m [] []).line.txProgress = true ∧ (engine .a m [] []).line.timesOut = true ∧
    (engine .a m [] []).Geometry ∧ (engine .a m [] []).rxq = [] := by decide

/-- Both modes, and the first and the last byte of a frame. -/
theorem witness_MutatedFramesFailTheRead :
    ((engine .a .push wireA quietTime).phase = .idle ∧ (engine .a .push wireA quietTime).quiescent = true ∧
      (engine .a .push wireA quietTime).mode = .push ∧ (engine .a .push wireA quietTime).Geometry ∧
      (engine .a .push wireA quietTime).buf.wf = true ∧ wireA.length = (engine .a .push wireA quietTime).fs.toNat ∧
      ends (exec .readdata (engine .a .push wireA quietTime)) (fun t => t.status) = true ∧
      (0x43 : Byte) ≠ wireA.getD 0 0 ∧ (0x00 : Byte) ≠ wireA.getD 23 0) ∧
    ((engine .a .query [] [.waitFor .qwait, .rx wireQ]).phase = .idle ∧ quietInputs [] = true ∧
      (engine .a .query [] [.waitFor .qwait, .rx wireQ]).line.txProgress = true ∧
      (engine .a .query [] [.waitFor .qwait, .rx wireQ]).mode = .query ∧
      (engine .a .query [] [.waitFor .qwait, .rx wireQ]).Geometry ∧
      (engine .a .query [] [.waitFor .qwait, .rx wireQ]).buf.wf = true ∧ wireQ.length = 9 ∧
      ends (exec .readdata (engine .a .query [] [.waitFor .qwait, .rx wireQ])) (fun t => t.status) = true ∧
      (0x00 : Byte) ≠ wireQ.getD 0 0 ∧ (0x00 : Byte) ≠ wireQ.getD 8 0) := by decide

theorem witness_AccessorsReturnTheMeasurement : (engine .a .push [] []).phase = .idle ∧ (engine .a .push [] []).lmWritten = true := by
  decide

theorem witness_UnwrittenAccessorsPresentAFreeValue : State.reset.phase = .idle ∧ State.reset.lmWritten = false := by decide

/-- Nine bytes that confirm, nine that do not, eight bytes, none. -/
theorem witness_SleepReadsTheAcknowledgment : ∀ q ∈ [wireAckSleep, wireAckWake, wireAckSleep.dropLast, []],
    ∀ r ∈ [[], quietTime],
    (engine .a .push [] (.waitFor .ackwait :: .rx q :: r)).phase = .idle ∧
      (engine .a .push [] (.waitFor .ackwait :: .rx q :: r)).inputs = .waitFor .ackwait :: .rx q :: r ∧
      quietInputs r = true ∧ (engine .a .push [] (.waitFor .ackwait :: .rx q :: r)).line.txProgress = true ∧
      (engine .a .push [] (.waitFor .ackwait :: .rx q :: r)).line.timesOut = true ∧
      (engine .a .push [] (.waitFor .ackwait :: .rx q :: r)).buf.wf = true := by decide

/-- Eight bytes arrive: a short read. -/
theorem witness_SleepReadsTheAcknowledgment_short :
    ends (exec .sleep (engine .a .push [] [.waitFor .ackwait, .rx wireAckSleep.dropLast]))
      (fun t => !t.status && t.rxq == [] && t.buf.read 1 == 0xA7) = true := by decide

theorem witness_WakeupReadsTheAcknowledgment : ∀ q ∈ [wireAckWake, wireAckSleep, wireAckWake.dropLast, []],
    ∀ r ∈ [[], quietTime],
    (engine .a .push [] (.waitFor .ackwait :: .rx q :: r)).phase = .idle ∧
      (engine .a .push [] (.waitFor .ackwait :: .rx q :: r)).inputs = .waitFor .ackwait :: .rx q :: r ∧
      quietInputs r = true ∧ (engine .a .push [] (.waitFor .ackwait :: .rx q :: r)).line.txProgress = true ∧
      (engine .a .push [] (.waitFor .ackwait :: .rx q :: r)).line.timesOut = true ∧
      (engine .a .push [] (.waitFor .ackwait :: .rx q :: r)).buf.wf = true := by decide

/-- V67's shape: an acknowledgment in pieces with pauses is read whole; with a Timeout between them it is a short read. -/
theorem witness_AcknowledgmentsAreReadInAnyPieces :
    ends (exec .sleep (engine .a .push [0x42] [.waitFor .ackwait, .rx (wireAckSleep.take 4), .pass, .pass, .rx (wireAckSleep.drop 4)]))
      (fun t => t.phase == .idle && t.status) = true ∧
    ends (exec .wakeup (engine .a .push [] [.waitFor .ackwait, .rx (wireAckWake.take 4), .timeout, .pass, .pass, .pass, .pass, .timeout,
        .rx (wireAckWake.drop 4)]))
      (fun t => t.phase == .idle && !t.status && t.inputs == [.rx (wireAckWake.drop 4)]) = true := by decide

theorem witness_PowerOperationsFrame : (engine .a .push [] []).buf.wf = true ∧
    ends (exec .sleep (engine .a .push [] [])) (fun t => t.phase == .idle) = true ∧
    ends (exec .wakeup (engine .a .push [] [])) (fun t => t.phase == .idle) = true := by decide

theorem witness_ConfirmationNeedsTheThreeBytes :
    ends (exec .sleep (engine .a .push [] [.waitFor .ackwait, .rx wireAckSleep])) (fun t => t.phase == .idle && t.status) = true ∧
    ends (exec .wakeup (engine .a .push [] [.waitFor .ackwait, .rx wireAckWake])) (fun t => t.phase == .idle && t.status) = true := by
  decide

theorem witness_CommandFramesAreTransmitted : ∀ a ∈ [Activity.none, .setmode, .readdata, .sleep, .wakeup],
    State.quiescent { engine .a .push [] [] with act := a } = true ∧ (engine .a .push [] []).line.txProgress = true := by decide

theorem witness_CommandsAreOrderedInTheLog : ends (exec .cmdSleep { engine .a .push [] [] with txq := [0x01], act := .sleep })
    (fun t => t.phase == .ackwait && t.txlog == [0x01, 0xFF, 0x01, 0xA7, 0x01, 0, 0, 0, 0, 0x57]) = true := by decide

/-- A frame that is accepted and one that is not. -/
theorem witness_PushFrameAIsReceived : frameA.wfA = true ∧ (reading .a .push []).phase = .sync ∧ (reading .a .push []).act = .readdata ∧
    (reading .a .push []).mode = .push ∧ (reading .a .push []).variant = .a ∧ (reading .a .push []).Geometry ∧
    (reading .a .push []).rxq = [] ∧ (reading .a .push []).quiescent = true ∧ (reading .a .push []).buf.wf = true ∧
    pushValid (pushWire frameA) = true ∧ pushValid (pushWire { frameA with checksum := 0xFFFF }) = false := by decide

theorem witness_PushFrameBIsReceived : frameB.wfB = true ∧ (reading .b .push []).phase = .sync ∧ (reading .b .push []).act = .readdata ∧
    (reading .b .push []).mode = .push ∧ (reading .b .push []).variant = .b ∧ (reading .b .push []).Geometry ∧
    (reading .b .push []).rxq = [] ∧ (reading .b .push []).quiescent = true ∧ (reading .b .push []).buf.wf = true ∧
    pushValid (pushWire frameB) = true ∧ pushValid (pushWire { frameB with checksum := 0x01D1 }) = false := by decide

theorem witness_QueryFrameIsReceived : (reading .a .query []).phase = .sync ∧ (reading .a .query []).act = .readdata ∧
    (reading .a .query []).mode = .query ∧ (reading .a .query []).Geometry ∧ (reading .a .query []).rxq = [] ∧
    (reading .a .query []).quiescent = true ∧ (reading .a .query []).buf.wf = true ∧
    queryValid (queryWire frameQ) = true ∧ queryValid (queryWire { frameQ with checksum := 0 }) = false := by decide

theorem witness_AcknowledgmentsAreReceived : ∀ a ∈ [Activity.sleep, .wakeup], ack.wf = true ∧ (confirming a).phase = .ackwait ∧
    (confirming a).act = a ∧ (confirming a).ackCount = 0 ∧ (confirming a).rxq = [] ∧ (confirming a).quiescent = true ∧
    (confirming a).buf.wf = true := by decide

theorem witness_InboundFramesAccumulateInIdle : Instr.context (.frameQuery frameQ) = .query ∧ (engine .a .push [] []).phase = .idle := by
  decide

/-- An engine on a line that transmits nothing, with and without something left to transmit. -/
def stalled (q : List Byte) : State := { engine .a .push [] [] with txq := q, line := { txProgress := false, timesOut := true } }

theorem witness_SendHoldsWithoutTxProgress : ∀ q ∈ [[], [(0x01 : Byte)]],
    (stalled q).phase = .idle ∧ (stalled q).frozen = true ∧ (stalled q).line.txProgress = false := by decide

/-- A source that repeats one burst. -/
theorem after_cycle_nil (b : List Byte) (k : Nat) : Endless.after k (.cycle b []) = .cycle b [] := by
  induction k with
  | zero => rfl
  | succ k ih => exact ih

theorem witness_EndlessArrivalsHoldTheScan :
    ((engine .a .push [0x41] [.endless (.cycle [0x00] [])]).phase = .idle ∧
      (engine .a .push [0x41] [.endless (.cycle [0x00] [])]).mode = .push ∧
      (engine .a .push [0x41] [.endless (.cycle [0x00] [])]).inputs = [.endless (.cycle [0x00] [])] ∧
      ∀ x ∈ (engine .a .push [0x41] [.endless (.cycle [0x00] [])]).rxq, x ≠ 0x42) ∧
    ∀ k, (Endless.after k (.cycle [0x00] [])).now ≠ [] ∧ ∀ x ∈ (Endless.after k (.cycle [0x00] [])).now, x ≠ 0x42 :=
  ⟨by decide, fun k => by rw [after_cycle_nil]; decide⟩

/-- A push stream, over and over, at each of the operations that send a command. -/
theorem witness_EndlessArrivalsHoldTheDrain :
    (∀ m ∈ [Mode.push, .query], (engine .a m [] [.endless (.cycle wireA [])]).phase = .idle ∧
      (engine .a m [] [.endless (.cycle wireA [])]).line.txProgress = true ∧
      (engine .a m [] [.endless (.cycle wireA [])]).inputs = [.endless (.cycle wireA [])]) ∧
    ∀ k, (Endless.after k (.cycle wireA [])).now ≠ [] :=
  ⟨by decide, fun k => by rw [after_cycle_nil]; decide⟩

/-- SWAP and the checksums: a BUF that holds a frame. -/
theorem witness_SwapTwiceRestoresTheBuffer : Memory.wf (Memory.writeList [] 0 wireB) = true := by decide

theorem witness_SwappedFieldsReadBigEndian : (swapBuf .push 24 (Memory.writeList [] 0 wireA)).read16 2 = 0x0014 ∧
    (swapBuf .push 24 (Memory.writeList [] 0 wireA)).read16 22 = 0x00FA ∧
    (swapBuf .push 24 (Memory.writeList [] 0 wireA)).read 1 = 0x4D ∧
    (swapBuf .query 9 (Memory.writeList [] 0 wireQ)).read16 6 = 0x000C ∧
    (swapBuf .query 9 (Memory.writeList [] 0 wireQ)).read 8 = 0x23 := by decide

theorem witness_ChecksumsIgnoreTheSwap : Memory.wf (Memory.writeList [] 0 wireA) = true ∧
    ck16 (Memory.writeList [] 0 wireA) 24 = 0x00FA ∧ ck8 (Memory.writeList [] 0 wireQ) 9 = 0x23 := by decide

theorem witness_PushCheckInTermsOfTheFrame : wireA.length = 24 ∧ wireB.length = 32 := by decide

theorem witness_QueryCheckInTermsOfTheFrame : wireQ.length = 9 := by decide

theorem witness_PushSumNeverWraps : pushValid wireA = true ∧ wireA.length = 24 ∧ pushValid wireB = true ∧ wireB.length = 32 := by decide

/-- Frames that pass CHECK, and the first and the last byte whose change it finds. -/
theorem witness_SingleByteErrorsAreDetected :
    (checksumOk .push wireA.length (swapBuf .push wireA.length (Memory.writeList [] 0 wireA)) = true ∧ wireA.length = 24 ∧
      (0x43 : Byte) ≠ wireA.getD 0 0 ∧ (0x00 : Byte) ≠ wireA.getD 23 0) ∧
    (checksumOk .query 9 (swapBuf .query 9 (Memory.writeList [] 0 wireQ)) = true ∧ wireQ.length = 9 ∧
      (0x00 : Byte) ≠ wireQ.getD 1 0 ∧ (0x00 : Byte) ≠ wireQ.getD 8 0) := by decide

theorem witness_CommandTailsAreChecksums : Memory.wf [] = true ∧ commandTail 0x78 0x40 = 0x47 := by decide

end Sys2Proof.Tests
end

section
/-! Where one tick can lead (spec/41_readdata_sync.md rule R81's table), and which phases an operation keeps to. -/

namespace Sys2Proof.Machine

/-- The phases that R81's table allows after one tick in a phase, the phase itself where the engine can hold in it. -/
def Phase.leadsTo : Phase → List Phase
  | .idle => [.idle]
  | .qreq => [.qreq, .qwait]
  | .qwait => [.sync]
  | .sync => [.sync, .lenchk]
  | .lenchk => [.capture, .idle]
  | .capture => [.swap]
  | .swap => [.check]
  | .check => [.commit, .idle]
  | .commit => [.idle]
  | .cmdtx => [.cmdtx, .drain, .ackwait, .idle]
  | .drain => [.drain, .idle]
  | .ackwait => [.ackwait, .ackchk, .idle]
  | .ackchk => [.idle]

/-- In which phase SENDCMD can leave the engine. -/
theorem afterSend_phase {s : State} (hs : s.Sending) : (afterSend s).phase ∈ s.phase.leadsTo := by
  rcases hs with hp | hp
  · cases ha : s.act <;> simp [afterSend, hp, ha, Phase.leadsTo]
  · simp [afterSend, hp, Phase.leadsTo]

@[simp] theorem afterSend_buf (s : State) : (afterSend s).buf = s.buf := by unfold afterSend; split <;> rfl
@[simp] theorem afterSend_txq (s : State) : (afterSend s).txq = s.txq := by unfold afterSend; split <;> rfl
@[simp] theorem afterSend_txlog (s : State) : (afterSend s).txlog = s.txlog := by unfold afterSend; split <;> rfl

/-- A tick follows R81's table. -/
theorem tick_leadsTo {s t : State} (h : tick s = .next t) : t.phase ∈ s.phase.leadsTo := by
  have hold : ∀ {u : State}, u.phase = s.phase → s.Sending → u.phase ∈ s.phase.leadsTo := by
    intro u hu hs
    rcases hs with hp | hp <;> simp [hu, hp, Phase.leadsTo]
  cases tick_cases h with
  | flushHeld a k r hp => exact hold rfl hp
  | flushedBefore a r hp => exact hold rfl hp
  | settled a k r hp => exact hold rfl hp
  | sendDiscarded a k r b q hp => exact hold rfl hp
  | sendDrained a k r hp => exact hold rfl hp
  | written a k r hp => exact hold rfl hp
  | sent a r hp => exact (afterSend_phase (show (s.moved a s.txq.length r).Sending from hp) :)
  | captured _ _ _ _ hp _ _ _ ht => subst ht; simp [hp, Phase.leadsTo]
  | committed _ hp ht => subst ht; simp [hp, Phase.leadsTo]
  | ackByte _ _ _ _ _ _ hp _ _ _ ht => subst ht; simp [hp, Phase.leadsTo]
  | _ => simp [*, Phase.leadsTo]

/-- Nothing but an operation's start enters SENDCMD. -/
theorem tick_not_sending {s t : State} (h : tick s = .next t) (hn : ¬ s.Sending) : ¬ t.Sending := by
  have table : ∀ p : Phase, ∀ q ∈ p.leadsTo, ¬ (p = .cmdtx ∨ p = .qreq) → ¬ (q = .cmdtx ∨ q = .qreq) := by
    intro p; cases p <;> decide
  exact table _ _ (tick_leadsTo h) hn

/-- The phases of a READDATA in progress (R81). -/
def Phase.ofRead : Phase → Bool
  | .qreq => true
  | .qwait => true
  | .sync => true
  | .lenchk => true
  | .capture => true
  | .swap => true
  | .check => true
  | .commit => true
  | .idle => false
  | .cmdtx => false
  | .drain => false
  | .ackwait => false
  | .ackchk => false

/-- READDATA keeps to its phases until it is over. -/
theorem tick_ofRead {s t : State} (h : tick s = .next t) (hp : s.phase.ofRead = true) :
    t.phase.ofRead = true ∨ t.phase = .idle := by
  have table : ∀ p : Phase, ∀ q ∈ p.leadsTo, p.ofRead = true → q.ofRead = true ∨ q = .idle := by
    intro p; cases p <;> decide
  exact table _ _ (tick_leadsTo h) hp

/-- No other operation comes into a phase of READDATA. -/
theorem tick_not_ofRead {s t : State} (h : tick s = .next t) (hp : s.phase.ofRead = false) : t.phase.ofRead = false := by
  have table : ∀ p : Phase, ∀ q ∈ p.leadsTo, p.ofRead = false → q.ofRead = false := by
    intro p; cases p <;> decide
  exact table _ _ (tick_leadsTo h) hp

end Sys2Proof.Machine
end

section
/-! What one step can be (spec/20_memory.md rule R47 and the fetch of log entries 5, 9, 10 and 11), said once, and what the
decoder tells of the instruction that stands next. -/

namespace Sys2Proof.Machine

/-- The decoder reads an instruction of the context asked for only (R63). -/
theorem context_of_decode {c : Context} {bs : List Byte} {i : Instr} (h : decode c bs = .ok i) : i.context = c := by
  have mapped : ∀ {α : Type} {e : Except DecodeError α} {f : α → Instr}, (∀ a, (f a).context = c) →
      e.map f = .ok i → i.context = c := by
    intro α e f hf h
    cases e with
    | error _ => cases h
    | ok a => injection h with h; exact h ▸ hf a
  cases c with
  | hostOp =>
    simp only [decode] at h
    split at h
    · unfold decodeOpw at h
      repeat' split at h
      all_goals cases h
      all_goals rfl
    · cases h
  | outbound =>
    simp only [decode, decodeCommand] at h
    repeat' split at h
    all_goals cases h
    all_goals rfl
  | pushA => exact mapped (fun _ => rfl) h
  | pushB => exact mapped (fun _ => rfl) h
  | query => exact mapped (fun _ => rfl) h
  | ackSleep => exact mapped (fun _ => rfl) h
  | ackWake => exact mapped (fun _ => rfl) h

/-- A command frame that decodes is the wire form of a command of R52's table, and its row sends that command. -/
theorem exec_of_decode_outbound {bs : List Byte} {i : Instr} (h : decode .outbound bs = .ok i) :
    ∃ c, bs = commandWire c ∧ ∀ s, exec i s = sendCommand c s := by
  simp only [decode, decodeCommand] at h
  split at h
  · cases h
  · repeat' split at h
    all_goals cases h
    all_goals exact ⟨_, ‹_›, fun _ => rfl⟩

/-- Everything a step that answers a next state can be. -/
inductive StepTo (s t : State) : Prop where
  | host (w : Byte) (r : List Input) (i : Instr) (hp : s.phase = .idle) (hr : s.inputs = .host w :: r)
      (hd : decode .hostOp [w] = .ok i) (he : exec i { s with inputs := r } = .next t)
  | command (i : Instr) (hp : s.Sending) (hq : s.point = .flushBefore)
      (hd : decode .outbound (commandFrame s.cmd1 s.cmd2) = .ok i) (he : exec i s = .next t)
  | inbound (bs : List Byte) (r : List Input) (c : Context) (i : Instr) (hr : s.inputs = .rx bs :: r)
      (hc : inboundContext s = some c) (hd : decode c bs = .ok i) (he : exec i { s with inputs := r } = .next t)
  | engine (he : runToIdle s = .next t)
  | environment (ht : t = s.turn)

/-- The shapes of frame that an operation waits for are inbound. -/
theorem inboundContext_inbound {s : State} {c : Context} (h : inboundContext s = some c) : c ≠ .hostOp ∧ c ≠ .outbound := by
  unfold inboundContext at h
  repeat' split at h
  all_goals cases h
  all_goals decide

/-- A step that answers a next state is one of these. -/
theorem step_cases {s t : State} (h : step s = .next t) : StepTo s t := by
  have run : ∀ f : Fetched, fetch s = f → (match f with
      | .instr i u => exec i u
      | .unknown w => .refused (.noOperation w)
      | .engine => runToIdle s
      | .environment => .next s.turn) = .next t → StepTo s t := by
    intro f hf h
    cases f with
    | unknown w => cases h
    | engine => exact .engine h
    | environment => injection h with h; exact .environment h.symm
    | instr i u =>
      have command : s.Sending → fetchCommand s = .instr i u → StepTo s t := by
        intro hp hf
        unfold fetchCommand at hf
        split at hf
        · split at hf
          · injection hf with h1 h2; subst h1 h2
            exact .command _ hp ‹_› ‹_› h
          · cases hf
        · cases hf
      have inbound : fetchInbound s = .instr i u → StepTo s t := by
        intro hf
        unfold fetchInbound at hf
        split at hf
        · split at hf
          · split at hf
            · injection hf with h1 h2; subst h1 h2
              exact .inbound _ _ _ _ ‹_› ‹_› ‹_› h
            · cases hf
          · cases hf
        · cases hf
      unfold fetch at hf
      split at hf
      · unfold fetchHost at hf
        split at hf
        · split at hf
          · injection hf with h1 h2; subst h1 h2
            exact .host _ _ _ ‹_› ‹_› ‹_› h
          · cases hf
        · cases hf
      · exact command (.inl ‹_›) hf
      · exact command (.inr ‹_›) hf
      · exact inbound hf
  exact run _ rfl h

end Sys2Proof.Machine
end

section
/-! The invariant (spec/10_state.md rule R13) along instructions and steps, and the registers that nothing writes. -/

namespace Sys2Proof.Machine

/-- A tick that answers a next state keeps the invariant. -/
theorem inv_of_tick {s t : State} (h : s.Inv) (ht : tick s = .next t) : t.Inv := by
  obtain ⟨u, hu, iu⟩ := tick_inv h
  rw [ht] at hu
  injection hu with hu
  exact hu ▸ iu

/-- The invariant says nothing of the timeline. -/
theorem State.inv_withInputs {s : State} (r : List Input) (h : s.Inv) : State.Inv { s with inputs := r } := h

/-- The invariant where the engine enters SENDCMD for an operation of its own. -/
theorem State.inv_beginSend {s : State} {a : Activity} {c : CommandBytes} (h : s.Inv) (ha : a ≠ .none)
    (hm : a = .readdata → s.mode = .query) (hc : commandOf a s.mode = some c) (ht : c.tail = commandTail c.c1 c.c2) :
    (s.beginSend a c).Inv := by
  obtain ⟨hg, hw, hr, hto, -⟩ := h
  refine ⟨hg, hw, hr, hto, ?_, ?_, ?_, Nat.zero_le _, fun _ => ?_⟩
  · cases a <;> simp_all [Phase.serves]
  · intro hp
    rw [State.beginSend_phase] at hp
    split at hp
    · exact hm ‹_›
    · simp at hp
  · intro hp
    rw [State.beginSend_phase] at hp
    split at hp <;> cases hp
  · rw [State.beginSend_act, State.beginSend_mode, hc, State.beginSend_cmd1, State.beginSend_cmd2, ← ht]

theorem State.inv_switching {s : State} (m : Mode) (h : s.Inv) : (s.switching m).Inv := by
  obtain ⟨-, hw, hr, hto, -⟩ := h
  refine ⟨s.switching_geometry m, hw, hr, hto, rfl, by simp, by simp, Nat.zero_le _, fun _ => ?_⟩
  rw [State.switching_act, State.switching_mode, State.switching_cmd1, State.switching_cmd2]
  cases m <;> rfl

theorem startRead_inv {s : State} (h : s.Inv) : (startRead s).Inv := by
  unfold startRead
  split
  · obtain ⟨hg, hw, hr, hto, -⟩ := h
    exact ⟨hg, hw, hr, hto, rfl, by simp, by simp, Nat.zero_le _, by simp⟩
  · next hm => exact State.inv_beginSend h (by simp) (fun _ => hm) rfl rfl

/-- Every instruction but the outbound rows keeps the invariant, from whatever state of it. -/
theorem exec_inv {i : Instr} {s t : State} (h : s.Inv) (hi : i.context ≠ .outbound) (he : exec i s = .next t) : t.Inv := by
  have ⟨hg, hw, hr, hto, _⟩ := h
  refine exec_keeps he (fun d => State.inv_done d hg hw hr hto) (fun d => State.inv_done d hg hw hr hto)
    (fun m _ _ => State.inv_switching m h) (fun _ _ => startRead_inv h)
    (fun _ _ => State.inv_beginSend h (by simp) (by simp) rfl rfl)
    (fun _ _ => State.inv_beginSend h (by simp) (by simp) rfl rfl)
    (fun _ hc => absurd hc hi) (fun _ _ => ?_) (fun u v hu _ hv => inv_of_tick hu hv)
  rw [State.arrive_eq_moved]
  exact State.inv_moved _ _ _ h

/-- The row of the command frame that SENDCMD is about to send goes on from the state as it is. -/
theorem sending_eq_self {s : State} {c : CommandBytes} (h : s.Inv) (hs : s.Sending) (hq : s.point = .flushBefore)
    (hc : commandFrame s.cmd1 s.cmd2 = commandWire c) : s.sending c = s := by
  obtain ⟨-, -, -, -, serves, -⟩ := h
  have hp : (if s.act = .readdata then Phase.qreq else .cmdtx) = s.phase := by
    rcases hs with hp | hp <;> rw [hp] at serves <;> cases ha : s.act <;> simp_all [Phase.serves]
  obtain ⟨h1, h2⟩ : s.cmd1 = c.c1 ∧ s.cmd2 = c.c2 := by
    simp only [commandFrame, commandWire, List.cons.injEq] at hc
    exact ⟨hc.2.2.1, hc.2.2.2.1⟩
  rw [State.sending, State.beginSend, hp, ← h1, ← h2, ← hq]

/-- Settles O10: the fetch changes the timeline only, every instruction it can select keeps the invariant, and so do the ticks
of an operation in progress and the environment's turn. -/
theorem stepKeepsTheInvariant : Obligations.StepKeepsTheInvariant := by
  intro s t h ht
  cases step_cases ht with
  | host w r i _ _ hd he =>
    exact exec_inv (State.inv_withInputs r h) (by rw [context_of_decode hd]; decide) he
  | command i hs hq hd he =>
    obtain ⟨c, hc, hx⟩ := exec_of_decode_outbound hd
    have hself : sendCommand c s = runUntil State.notSending (budget s) s := by
      change runUntil _ (budget (s.sending c)) (s.sending c) = _
      rw [sending_eq_self h hs hq hc]
    rw [hx, hself] at he
    exact runUntil_keeps he h fun u v hu _ hv => inv_of_tick hu hv
  | inbound bs r c i _ hc hd he =>
    exact exec_inv (State.inv_withInputs r h) (by rw [context_of_decode hd]; exact (inboundContext_inbound hc).2) he
  | engine he => exact runToIdle_keeps he h fun u v hu _ hv => inv_of_tick hu hv
  | environment ht =>
    obtain ⟨a, k, r, e, -⟩ := s.turn_effect
    rw [ht, e]
    exact State.inv_moved a k r h

/-! ## FS, VARIANT and RXTO (R12, R13, R37) -/

/-- A tick leaves FS fitting, or not, as it was. -/
theorem geometry_of_tick {s t : State} (h : tick s = .next t) (hg : s.Geometry) : t.Geometry := by
  obtain ⟨hv, hm, hf, -⟩ := tick_same h
  rw [State.Geometry, hv, hm, hf]
  exact hg

theorem startRead_same (s : State) :
    (startRead s).mode = s.mode ∧ (startRead s).fs = s.fs ∧ (startRead s).variant = s.variant ∧
      (startRead s).rxto = s.rxto ∧ (startRead s).buf = s.buf := by
  unfold startRead; split <;> exact ⟨rfl, rfl, rfl, rfl, rfl⟩

theorem startRead_geometry {s : State} (hg : s.Geometry) : (startRead s).Geometry := by
  obtain ⟨hm, hf, hv, -⟩ := startRead_same s
  rw [State.Geometry, hm, hf, hv]
  exact hg

/-- FS fits after every instruction that starts where it fits. -/
theorem exec_geometry {i : Instr} {s t : State} (hg : s.Geometry) (h : exec i s = .next t) : t.Geometry :=
  exec_keeps h (fun _ => hg) (fun _ => hg) (fun m _ _ => s.switching_geometry m) (fun _ _ => startRead_geometry hg)
    (fun _ _ => hg) (fun _ _ => hg) (fun _ _ => hg) (fun _ _ => hg) (fun _ _ hu _ hv => geometry_of_tick hv hu)

theorem construct_geometry (v : Variant) (s : State) : (State.construct v s).Geometry := by
  cases v <;> rfl

/-- Settles O12: `State.Geometry` is kept by every instruction, and its three values are 24, 32 and 9. -/
theorem frameSizeFitsModeAndVariant : Obligations.FrameSizeFitsModeAndVariant := by
  refine ⟨construct_geometry, fun i s t hg h => ?_⟩
  have ht : t.fs.toNat = frameSize t.mode t.variant := exec_geometry hg h
  rw [ht]
  cases t.mode <;> cases t.variant <;> rfl

/-- No instruction writes VARIANT or RXTO. -/
theorem exec_variant_rxto {i : Instr} {s t : State} (h : exec i s = .next t) : t.variant = s.variant ∧ t.rxto = s.rxto := by
  refine exec_keeps (P := fun u => u.variant = s.variant ∧ u.rxto = s.rxto) h (fun _ => ⟨rfl, rfl⟩) (fun _ => ⟨rfl, rfl⟩)
    (fun _ _ _ => ⟨rfl, rfl⟩) (fun _ _ => ?_) (fun _ _ => ⟨rfl, rfl⟩) (fun _ _ => ⟨rfl, rfl⟩) (fun _ _ => ⟨rfl, rfl⟩)
    (fun _ _ => ⟨rfl, rfl⟩) (fun u v hu _ hv => ?_)
  · obtain ⟨-, -, hv, ht, -⟩ := startRead_same s
    exact ⟨hv, ht⟩
  · obtain ⟨hvar, -, -, hto, -⟩ := tick_same hv
    exact ⟨hvar.trans hu.1, hto.trans hu.2⟩

/-- Settles O13: the fetch, the ticks and the environment's turn leave VARIANT and RXTO alone, as every instruction does. -/
theorem variantAndTimeoutNeverChange : Obligations.VariantAndTimeoutNeverChange := by
  refine ⟨fun i s t => exec_variant_rxto, fun s t h => ?_⟩
  cases step_cases h with
  | host w r i _ _ _ he => exact (exec_variant_rxto he :)
  | command i _ _ _ he => exact exec_variant_rxto he
  | inbound bs r c i _ _ _ he => exact (exec_variant_rxto he :)
  | engine he =>
    refine runToIdle_keeps (P := fun u => u.variant = s.variant ∧ u.rxto = s.rxto) he ⟨rfl, rfl⟩ fun u v hu _ hv => ?_
    obtain ⟨hvar, -, -, hto, -⟩ := tick_same hv
    exact ⟨hvar.trans hu.1, hto.trans hu.2⟩
  | environment ht =>
    obtain ⟨a, k, r, e, -⟩ := s.turn_effect
    rw [ht, e]
    exact ⟨rfl, rfl⟩

/-! ## The canonical form of BUF (R17, R42) -/

/-- BUF in canonical form and inside its 32 bytes. -/
def Memory.Canonical (m : Memory) : Prop := m.wf = true ∧ m.inRange = true

/-- Only CAPTURE, SWAP and ACKREAD write BUF, and each keeps it canonical. -/
theorem canonical_of_tick {s t : State} (h : tick s = .next t) (hc : s.buf.Canonical) : t.buf.Canonical := by
  obtain ⟨hw, hr⟩ := hc
  cases tick_cases h with
  | captured a k r _ hp _ hf _ ht =>
    subst ht
    refine ⟨Memory.wf_writeList _ _ hw, Memory.inRange_writeList _ hr ?_⟩
    rw [List.length_take]
    omega
  | swapped hp hf => exact ⟨wf_swapBuf _ _ hw, Memory.inRange_swapFold _ hr (swapOffsets_lt hf)⟩
  | ackByte a k r b q _ hp hc _ _ ht =>
    subst ht
    have hlt : params.ackLen < params.bufSize := by decide
    exact ⟨Memory.wf_write _ _ hw, Memory.inRange_write _ hr (hc.trans hlt)⟩
  | sent a r =>
    rw [afterSend_buf]
    exact ⟨hw, hr⟩
  | committed _ _ ht => subst ht; exact ⟨hw, hr⟩
  | _ => exact ⟨hw, hr⟩

/-- Settles O14: no instruction writes BUF at its start, and every tick keeps it canonical. -/
theorem bufferStaysCanonical : Obligations.BufferStaysCanonical := by
  intro i s t hw hr h
  have hc : s.buf.Canonical := ⟨hw, hr⟩
  change t.buf.Canonical
  refine exec_keeps h (fun _ => hc) (fun _ => hc) (fun _ _ _ => hc) (fun _ _ => ?_)
    (fun _ _ => hc) (fun _ _ => hc) (fun _ _ => hc) (fun _ _ => hc) (fun u v hu _ hv => canonical_of_tick hv hu)
  obtain ⟨-, -, -, -, hb⟩ := startRead_same s
  rw [hb]
  exact hc

/-! ## Reset and the unwritten measurement (R23, R171) -/

theorem construct_inv (v : Variant) (s : State) : (State.construct v s).Inv :=
  ⟨construct_geometry v s, rfl, rfl, rfl, rfl, fun h => h.elim nofun nofun, nofun, Nat.zero_le _, fun h => h.elim nofun nofun⟩

/-- Settles O9: RESET(v) on any transport gives the invariant, and the other two states are RESET(v) on an empty one. -/
theorem resetMeetsTheInvariant : Obligations.ResetMeetsTheInvariant := by
  have empty : ∀ v, (State.resetWith v).Inv := fun v => State.construct_resetWith v v ▸ construct_inv v _
  exact ⟨construct_inv, empty, empty .a⟩

/-- Before the first success an accessor presents a free value and counts the draw. -/
theorem readMeasurement_unwritten {s : State} (v : Half) (h : s.lmWritten = false) :
    readMeasurement v s = .next (State.done { s with draws := s.draws + 1 } (Config.unwrittenMeasurement s.draws)) := by
  simp [readMeasurement, h]

/-- Settles O36: in IDLE each accessor reads its register, which nothing has written. -/
theorem unwrittenAccessorsPresentAFreeValue : Obligations.UnwrittenAccessorsPresentAFreeValue := by
  intro s i hi hp hw
  have acc : ∀ v : State → Half, whenIdle s (fun u => readMeasurement (v u) u) =
      .next (State.done { s with draws := s.draws + 1 } (Config.unwrittenMeasurement s.draws)) := fun v =>
    (whenIdle_of_idle hp).trans (readMeasurement_unwritten _ hw)
  rcases hi with rfl | rfl | rfl
  · exact acc State.pm1_0
  · exact acc State.pm2_5
  · exact acc State.pm10

end Sys2Proof.Machine
end

section
/-! What BUF held before an operation never matters (spec/10_state.md rule R18): two runs that differ in BUF only stay so, and
the bytes that the operation in progress has itself written are the same in both. -/

namespace Sys2Proof.Machine

/-- How many bytes of BUF, from offset 0 on, the operation in progress has written and may still read: a captured frame, the
bytes that ACKREAD has read so far, or a whole acknowledgment. -/
def State.filled (s : State) : Nat :=
  match s.phase with
  | .swap => s.fs.toNat
  | .check => s.fs.toNat
  | .commit => s.fs.toNat
  | .ackwait => s.ackCount
  | .ackchk => params.ackLen
  | _ => 0

/-- `m` may stand in the place of BUF: both are canonical, and they agree on what the operation in progress may still read. -/
structure State.Accepts (s : State) (m : Memory) : Prop where
  geometry : s.Geometry
  wf : s.buf.wf = true
  wf' : m.wf = true
  agrees : ∀ a, a < s.filled → m.read a = s.buf.read a

/-- FS in the invariant of R13: at least nine bytes and inside BUF, an even number of them in PushMode, nine in QueryMode. -/
theorem State.Geometry.bounds {s : State} (h : s.Geometry) :
    9 ≤ s.fs.toNat ∧ s.fs.toNat ≤ params.bufSize ∧ (s.mode = .push → s.fs.toNat % 2 = 0 ∧ 16 ≤ s.fs.toNat) := by
  obtain ⟨h9, hb⟩ := frameSize_le s.mode s.variant
  refine ⟨h ▸ h9, h ▸ hb, fun hm => ?_⟩
  rw [h, hm]
  cases s.variant <;> decide

/-! ## What SWAP, CHECK, COMMIT and the test of an acknowledgment read -/

/-- One byte of BUF after SWAP is a byte of the frame, or of BUF beyond it (R100). -/
theorem read_swapBuf {s : State} {b : Memory} (hg : s.Geometry) (hb : b.wf = true) (a : Nat) :
    ∃ o, (swapBuf s.mode s.fs.toNat b).read a = b.read o ∧ (a < s.fs.toNat → o < s.fs.toNat) ∧ (s.fs.toNat ≤ a → o = a) ∧
      ∀ c : Memory, c.wf = true → (swapBuf s.mode s.fs.toNat c).read a = c.read o := by
  obtain ⟨h9, -, hpush⟩ := hg.bounds
  cases hm : s.mode with
  | push =>
    obtain ⟨heven, -⟩ := hpush hm
    have read : ∀ c : Memory, c.wf = true → (swapBuf .push s.fs.toNat c).read a = _ := fun c hc =>
      read_swap_push a hc heven (by omega)
    by_cases ha : 2 ≤ a ∧ a < s.fs.toNat
    · simp only [if_pos ha] at read
      exact ⟨_, read b hb, fun _ => by split <;> omega, by omega, read⟩
    · simp only [if_neg ha] at read
      exact ⟨a, read b hb, id, fun _ => rfl, read⟩
  | query =>
    have read : ∀ c : Memory, c.wf = true → (swapBuf .query s.fs.toNat c).read a = _ := fun c hc =>
      read_swap_query s.fs.toNat a hc
    by_cases ha : 2 ≤ a ∧ a < 8
    · simp only [if_pos ha] at read
      exact ⟨_, read b hb, fun _ => by split <;> omega, by omega, read⟩
    · simp only [if_neg ha] at read
      exact ⟨a, read b hb, id, fun _ => rfl, read⟩

/-- SWAP writes no byte beyond the frame. -/
theorem read_swapBuf_beyond {s : State} {b : Memory} (hg : s.Geometry) (hb : b.wf = true) {a : Nat} (ha : s.fs.toNat ≤ a) :
    (swapBuf s.mode s.fs.toNat b).read a = b.read a := by
  obtain ⟨o, h, -, ho, -⟩ := read_swapBuf hg hb a
  rw [h, ho ha]

theorem Memory.read16_congr {b c : Memory} {n o : Nat} (h : ∀ a, a < n → c.read a = b.read a) (ho : o + 1 < n) :
    c.read16 o = b.read16 o := by
  rw [Memory.read16, Memory.read16, h o (by omega), h (o + 1) ho]

/-- CHECK reads the frame only. -/
theorem checksumOk_congr {m : Mode} {b c : Memory} {n : Nat} (h : ∀ a, a < n → c.read a = b.read a) (hn : 2 ≤ n) :
    checksumOk m n c = checksumOk m n b := by
  cases m with
  | push =>
    rw [checksumOk, checksumOk, ck16_congr fun i hi => h i (by omega), Memory.read16_congr h (by omega)]
  | query =>
    rw [checksumOk, checksumOk, ck8_congr fun i hi => h (i + 1) (by omega), h (n - 1) (by omega)]

/-- The field router reads the frame only (R121). -/
theorem route_lt {s : State} (hg : s.Geometry) :
    (route s.mode).pm1_0 + 1 < s.fs.toNat ∧ (route s.mode).pm2_5 + 1 < s.fs.toNat ∧ (route s.mode).pm10 + 1 < s.fs.toNat := by
  obtain ⟨h9, -, hpush⟩ := hg.bounds
  cases hm : s.mode with
  | push =>
    obtain ⟨-, h16⟩ := hpush hm
    simp only [route, params]
    omega
  | query =>
    simp only [route, params]
    omega

theorem ackOk_congr {e : AckExpect} {b c : Memory} (h : ∀ a, a < params.ackLen → c.read a = b.read a) :
    ackOk e c = ackOk e b := by
  rw [ackOk, ackOk, h 1 (by decide), h 2 (by decide), h 8 (by decide)]

/-! ## One tick -/

/-- ACKREAD starts with nothing read (R130). -/
theorem tick_ackwait_entry {s t : State} (h : tick s = .next t) (hs : s.phase ≠ .ackwait) (ht : t.phase = .ackwait) :
    t.ackCount = 0 := by
  cases tick_cases h with
  | sent a r =>
    revert ht
    unfold afterSend
    split <;> simp_all
  | _ => simp_all

/-- Outside CAPTURE, SWAP, CHECK and ACKREAD a tick leads to a place where the operation has nothing in BUF to read. -/
theorem tick_filled {s t : State} (h : tick s = .next t) (h1 : s.phase ≠ .capture) (h2 : s.phase ≠ .swap)
    (h3 : s.phase ≠ .check) (h4 : s.phase ≠ .ackwait) : t.filled = 0 := by
  have table : ∀ p : Phase, ∀ q ∈ p.leadsTo, p ≠ .capture → p ≠ .swap → p ≠ .check → p ≠ .ackwait →
      q ≠ .swap ∧ q ≠ .check ∧ q ≠ .commit ∧ q ≠ .ackchk := by
    intro p; cases p <;> decide
  obtain ⟨n1, n2, n3, n4⟩ := table _ _ (tick_leadsTo h) h1 h2 h3 h4
  unfold State.filled
  split
  · contradiction
  · contradiction
  · contradiction
  · exact tick_ackwait_entry h h4 ‹_›
  · contradiction
  · rfl

/-- CAPTURE writes the whole frame, whatever stood there (R85). -/
theorem capture_accepts {s t : State} {m : Memory} (hs : s.Accepts m) (hp : s.phase = .capture) (h : tick s = .next t) :
    ∃ n, tick (s.withBuf m) = .next (t.withBuf n) ∧ t.Accepts n := by
  obtain ⟨hg, hw, hw', -⟩ := hs
  obtain ⟨x, k, r, hturn, -⟩ := s.turn_effect
  simp only [tick, State.withBuf_phase, hp, captureTick, turn_withBuf, hturn, State.withBuf_fs, State.withBuf_rxq,
    State.withBuf_buf, State.moved_fs, State.moved_buf] at h ⊢
  split at h
  · cases h
  split at h
  · cases h
  next hb hl =>
    injection h with h
    subst h
    refine ⟨_, by rw [if_neg hb, if_neg hl]; rfl, hg, Memory.wf_writeList _ _ hw, Memory.wf_writeList _ _ hw', ?_⟩
    intro a ha
    have hlen : 0 ≤ a ∧ a < 0 + ((s.moved x k r).rxq.take s.fs.toNat).length := by
      rw [List.length_take]
      exact ⟨Nat.zero_le a, by have : a < s.fs.toNat := ha; omega⟩
    rw [Memory.read_writeList _ _ _ hw', Memory.read_writeList _ _ _ hw, if_pos hlen, if_pos hlen]

/-- SWAP exchanges the same bytes in both (R100). -/
theorem swap_accepts {s t : State} {m : Memory} (hs : s.Accepts m) (hp : s.phase = .swap) (h : tick s = .next t) :
    ∃ n, tick (s.withBuf m) = .next (t.withBuf n) ∧ t.Accepts n := by
  obtain ⟨hg, hw, hw', ha⟩ := hs
  simp only [tick, State.withBuf_phase, hp, swapTick, State.withBuf_fs, State.withBuf_mode, State.withBuf_buf] at h ⊢
  split at h
  · cases h
  next hb =>
    injection h with h
    subst h
    refine ⟨swapBuf s.mode s.fs.toNat m, if_neg hb, hg, wf_swapBuf _ _ hw, wf_swapBuf _ _ hw', fun a hlt => ?_⟩
    obtain ⟨o, hread, ho, -, hreads⟩ := read_swapBuf hg hw a
    rw [hreads m hw', hread]
    exact ha o (by simpa [State.filled, hp] using ho hlt)

/-- CHECK gives one answer for both (R110). -/
theorem check_accepts {s t : State} {m : Memory} (hs : s.Accepts m) (hp : s.phase = .check) (h : tick s = .next t) :
    ∃ n, tick (s.withBuf m) = .next (t.withBuf n) ∧ t.Accepts n := by
  obtain ⟨hg, hw, hw', ha⟩ := hs
  obtain ⟨h9, -⟩ := hg.bounds
  simp only [State.filled, hp] at ha
  have hc : checksumOk s.mode s.fs.toNat m = checksumOk s.mode s.fs.toNat s.buf := checksumOk_congr ha (by omega)
  simp only [tick, State.withBuf_phase, hp, checkTick, State.withBuf_fs, State.withBuf_mode, State.withBuf_buf, hc] at h ⊢
  split at h
  · injection h with h
    subst h
    refine ⟨m, by rw [if_pos ‹_›]; split <;> rfl, ?_⟩
    split
    · exact ⟨hg, hw, hw', ha⟩
    · exact ⟨hg, hw, hw', fun a hlt => absurd hlt (Nat.not_lt_zero a)⟩
  · cases h

/-- COMMIT takes the same fields from both (R120). -/
theorem commit_accepts {s t : State} {m : Memory} (hs : s.Accepts m) (hp : s.phase = .commit) (h : tick s = .next t) :
    ∃ n, tick (s.withBuf m) = .next (t.withBuf n) ∧ t.Accepts n := by
  obtain ⟨hg, hw, hw', ha⟩ := hs
  obtain ⟨r1, r2, r3⟩ := route_lt hg
  simp only [State.filled, hp] at ha
  simp only [tick, State.withBuf_phase, hp, commitTick, State.withBuf_mode, State.withBuf_buf, Memory.read16_congr ha r1,
    Memory.read16_congr ha r2, Memory.read16_congr ha r3] at h ⊢
  injection h with h
  subst h
  exact ⟨m, rfl, hg, hw, hw', fun a hlt => absurd hlt (Nat.not_lt_zero a)⟩

/-- ACKREAD writes each byte it reads to the same place of both (R130). -/
theorem ackwait_accepts {s t : State} {m : Memory} (hs : s.Accepts m) (hp : s.phase = .ackwait) (h : tick s = .next t) :
    ∃ n, tick (s.withBuf m) = .next (t.withBuf n) ∧ t.Accepts n := by
  obtain ⟨hg, hw, hw', ha⟩ := hs
  simp only [State.filled, hp] at ha
  simp only [tick, State.withBuf_phase, hp, ackwaitTick, rxReadRound_withBuf] at h ⊢
  split at h
  · injection h with h
    subst h
    exact ⟨m, if_pos ‹_›, hg, hw, hw', fun a hlt => ha a (lt_of_lt_of_le hlt ‹_›)⟩
  next hc =>
    have hc' : ¬ params.ackLen ≤ (s.withBuf m).ackCount := hc
    rw [if_neg hc']
    obtain ⟨x, k, r, -, -, ⟨e, -⟩ | ⟨b, q, -, e⟩ | ⟨e, -⟩⟩ := rxReadRound_effect s <;> rw [e] at h ⊢ <;>
      injection h with h <;> subst h
    · exact ⟨m, rfl, hg, hw, hw', fun a hlt => absurd hlt (Nat.not_lt_zero a)⟩
    · refine ⟨_, rfl, hg, Memory.wf_write _ _ hw, Memory.wf_write _ _ hw', fun a hlt => ?_⟩
      have hle : a < s.ackCount + 1 := by simpa [State.filled, hp] using hlt
      change (m.write s.ackCount b).read a = (s.buf.write s.ackCount b).read a
      rw [Memory.read_write _ _ _ hw', Memory.read_write _ _ _ hw]
      split
      · rfl
      · exact ha a (by have : a ≠ s.ackCount := ‹_›; omega)
    · exact ⟨m, rfl, hg, hw, hw', fun a hlt => ha a (by simpa [State.filled, hp] using hlt)⟩

/-- The test of an acknowledgment gives one answer for both (R131, R132). -/
theorem ackchk_accepts {s t : State} {m : Memory} (hs : s.Accepts m) (hp : s.phase = .ackchk) (h : tick s = .next t) :
    ∃ n, tick (s.withBuf m) = .next (t.withBuf n) ∧ t.Accepts n := by
  obtain ⟨hg, hw, hw', ha⟩ := hs
  simp only [State.filled, hp] at ha
  simp only [tick, State.withBuf_phase, hp, ackchkTick, State.withBuf_act, State.withBuf_buf, ackOk_congr ha] at h ⊢
  injection h with h
  subst h
  refine ⟨m, by split <;> rfl, ?_⟩
  split <;> exact ⟨hg, hw, hw', fun a hlt => absurd hlt (Nat.not_lt_zero a)⟩

/-- A tick from other contents of BUF gives the same state but for BUF, and what stands there may stand there again. -/
theorem tick_accepts {s t : State} {m : Memory} (hs : s.Accepts m) (h : tick s = .next t) :
    ∃ n, tick (s.withBuf m) = .next (t.withBuf n) ∧ t.Accepts n := by
  by_cases h1 : s.phase = .capture
  · exact capture_accepts hs h1 h
  by_cases h2 : s.phase = .swap
  · exact swap_accepts hs h2 h
  by_cases h3 : s.phase = .check
  · exact check_accepts hs h3 h
  by_cases h4 : s.phase = .commit
  · exact commit_accepts hs h4 h
  by_cases h5 : s.phase = .ackwait
  · exact ackwait_accepts hs h5 h
  by_cases h6 : s.phase = .ackchk
  · exact ackchk_accepts hs h6 h
  refine ⟨m, by rw [tick_withBuf m h1 h2 h3 h4 h5 h6, h]; rfl, geometry_of_tick h hs.geometry, ?_, hs.wf', fun a hlt => ?_⟩
  · rw [tick_buffer h h1 h2 h5]
    exact hs.wf
  · rw [tick_filled h h1 h2 h3 h5] at hlt
    exact absurd hlt (Nat.not_lt_zero a)

/-! ## Whole operations -/

/-- A run from other contents of BUF makes the same ticks. -/
theorem runUntil_accepts {n : Nat} {s t : State} {m : Memory} (hs : s.Accepts m) (h : runUntil State.isIdle n s = .next t) :
    ∃ m', runUntil State.isIdle n (s.withBuf m) = .next (t.withBuf m') := by
  induction n generalizing s m with
  | zero =>
    injection h with h
    exact ⟨m, h ▸ rfl⟩
  | succ n ih =>
    have idle : (s.withBuf m).isIdle = s.isIdle := rfl
    rw [runUntil] at h ⊢
    rw [idle]
    split at h
    · next hi =>
      injection h with h
      exact ⟨m, by rw [if_pos hi, h]⟩
    · next hi =>
      rw [if_neg hi]
      cases ht : tick s with
      | next u =>
        rw [ht] at h
        obtain ⟨m', hm', hu⟩ := tick_accepts hs ht
        rw [hm']
        exact ih hu h
      | fault f => rw [ht] at h; cases h
      | refused r => rw [ht] at h; cases h

theorem runToIdle_accepts {s t : State} {m : Memory} (hs : s.Accepts m) (h : runToIdle s = .next t) :
    ∃ m', runToIdle (s.withBuf m) = .next (t.withBuf m') :=
  runUntil_accepts hs h

/-- READDATA starts in the same place whatever BUF holds. -/
theorem startRead_withBuf (s : State) (m : Memory) : startRead (s.withBuf m) = (startRead s).withBuf m := by
  unfold startRead
  rw [State.withBuf_mode]
  split <;> rfl

theorem beginSend_withBuf (s : State) (m : Memory) (a : Activity) (c : CommandBytes) :
    (s.withBuf m).beginSend a c = (s.beginSend a c).withBuf m := rfl

theorem switching_withBuf (s : State) (m : Memory) (md : Mode) : (s.withBuf m).switching md = (s.switching md).withBuf m := rfl

theorem readMeasurement_withBuf (v : Half) (s : State) (m : Memory) :
    readMeasurement v (s.withBuf m) = Result.withBuf (readMeasurement v s) m := by
  unfold readMeasurement
  change (if s.lmWritten = true then _ else _) = _
  split <;> rfl

/-- At the start of an operation nothing of BUF is the operation's own. -/
theorem State.accepts_of_filled {s : State} {m : Memory} (hg : s.Geometry) (hw : s.buf.wf = true) (hm : m.wf = true)
    (hf : s.filled = 0) : s.Accepts m :=
  ⟨hg, hw, hm, fun a h => absurd h (by omega)⟩

/-- Settles O20: each host operation starts in one place for both contents of BUF, and the two runs make the same ticks. -/
theorem bufferContentsNeverMatter : Obligations.BufferContentsNeverMatter := by
  intro i s t m hi hg hw hm h
  change ∃ n, exec i (s.withBuf m) = .next (t.withBuf n)
  have hp := idle_of_exec hi h
  have hp' : (s.withBuf m).phase = .idle := hp
  have switch : ∀ md, SwitchesTo i md → ∃ n, exec i (s.withBuf m) = .next (t.withBuf n) := by
    intro md hmd
    rw [exec_switch hmd hp] at h
    rw [exec_switch hmd hp', switching_withBuf]
    exact runToIdle_accepts (State.accepts_of_filled (s.switching_geometry md) hw hm rfl) h
  have answers : ∀ k : State → Result, k (s.withBuf m) = Result.withBuf (k s) m → whenIdle s k = .next t →
      ∃ n, whenIdle (s.withBuf m) k = .next (t.withBuf n) := by
    intro k hk hr
    rw [whenIdle_of_idle hp] at hr
    rw [whenIdle_of_idle hp', hk, hr]
    exact ⟨m, rfl⟩
  cases i with
  | getmode => exact answers (fun u => .next (u.done (modeWord u.mode))) rfl h
  | setmode md => exact switch md (.inl rfl)
  | setinitiative => exact switch .push (.inr (.inl ⟨rfl, rfl⟩))
  | setqanda => exact switch .query (.inr (.inr ⟨rfl, rfl⟩))
  | readdata =>
    rw [exec_readdata hp] at h
    rw [exec_readdata hp', startRead_withBuf]
    obtain ⟨-, -, -, -, hb⟩ := startRead_same s
    refine runToIdle_accepts (State.accepts_of_filled (startRead_geometry hg) (hb ▸ hw) hm ?_) h
    unfold startRead
    split <;> rfl
  | getpm1_0 => exact answers (fun u => readMeasurement u.pm1_0 u) (readMeasurement_withBuf _ _ _) h
  | getpm2_5 => exact answers (fun u => readMeasurement u.pm2_5 u) (readMeasurement_withBuf _ _ _) h
  | getpm10_0 => exact answers (fun u => readMeasurement u.pm10 u) (readMeasurement_withBuf _ _ _) h
  | sleep =>
    rw [exec_sleep hp] at h
    rw [exec_sleep hp', beginSend_withBuf]
    exact runToIdle_accepts (State.accepts_of_filled hg hw hm rfl) h
  | wakeup =>
    rw [exec_wakeup hp] at h
    rw [exec_wakeup hp', beginSend_withBuf]
    exact runToIdle_accepts (State.accepts_of_filled hg hw hm rfl) h
  | _ => simp [Instr.context] at hi

end Sys2Proof.Machine
end

section
/-! What the operations transmit and which registers they leave (spec/10_state.md rule R16, spec/46_helpers.md rules R140 to R143,
spec/60_exceptions.md rule R153), whatever the environment does. -/

namespace Sys2Proof.Machine

/-! ## Transmission (R35, R140, R142) -/

/-- An operation that sends the command `bytes` after `base`: it is inside SENDCMD, or has come out of it with TXQ empty and
exactly its command transmitted. -/
def Commands (base bytes : List Byte) (s : State) : Prop :=
  SendLog base bytes s ∨ (¬ s.Sending ∧ s.txq = [] ∧ s.txlog = base ++ bytes)

theorem afterSend_not_sending {s : State} (hs : s.Sending) : ¬ (afterSend s).Sending := by
  rcases hs with hp | hp
  · cases ha : s.act <;> simp [afterSend, hp, ha, State.Sending]
  · simp [afterSend, hp, State.Sending]

theorem tick_commands {base bytes : List Byte} {s t : State} (hs : Commands base bytes s) (h : tick s = .next t) :
    Commands base bytes t := by
  rcases hs with hs | ⟨hn, hq, hl⟩
  · rcases tick_sendLog h hs with ⟨ht, -, -⟩ | ⟨u, rfl, hp, -, hq, hl⟩
    · exact .inl ht
    · have hu : u.Sending := by rw [State.Sending, hp]; exact hs.1
      exact .inr ⟨afterSend_not_sending hu, by simpa using hq, by simpa using hl⟩
  · have hall := tick_transmits h hn
    obtain ⟨new, hnew⟩ := tick_prefix h
    rw [hq, List.append_nil, ← hnew, List.append_assoc] at hall
    obtain ⟨hnil, hq'⟩ := List.append_eq_nil_iff.1 (List.append_right_eq_self.1 hall)
    refine .inr ⟨tick_not_sending h hn, hq', ?_⟩
    rw [← hnew, hnil, List.append_nil, hl]

/-- An operation that starts with SENDCMD has, when it is over, transmitted its command behind what was waiting. -/
theorem beginSend_transmits {s t : State} {a : Activity} {c : CommandBytes} (hc : commandFrame c.c1 c.c2 = commandWire c)
    (h : runToIdle (s.beginSend a c) = .next t) (ht : t.phase = .idle) :
    t.txq = [] ∧ t.txlog = s.txlog ++ s.txq ++ commandWire c := by
  have start : Commands (s.txlog ++ s.txq) (commandWire c) (s.beginSend a c) := by
    refine .inl ⟨?_, hc, by simp⟩
    rw [State.Sending, State.beginSend_phase]
    split <;> simp
  rcases runToIdle_keeps h start fun _ _ hu _ hv => tick_commands hu hv with ⟨hs, -⟩ | ⟨-, hover⟩
  · rcases hs with hs | hs <;> rw [ht] at hs <;> cases hs
  · exact hover

/-! ## The measurement, MODE, FS and VARIANT (R16, R153) -/

/-- The measurement registers as they were, and the model's note of whether anything has written them. -/
abbrev KeepsMeasurement (s t : State) : Prop := SameMeasurement s t ∧ t.lmWritten = s.lmWritten

theorem startRead_measurement (s : State) : KeepsMeasurement s (startRead s) := by
  unfold startRead; split <;> exact ⟨⟨rfl, rfl, rfl⟩, rfl⟩

theorem tick_keepsMeasurement {s u t : State} (hu : KeepsMeasurement s u) (h : tick u = .next t) (hp : u.phase ≠ .commit) :
    KeepsMeasurement s t := by
  obtain ⟨⟨h1, h2, h3⟩, h4⟩ := hu
  obtain ⟨⟨k1, k2, k3⟩, k4⟩ := tick_measurement h hp
  exact ⟨⟨k1.trans h1, k2.trans h2, k3.trans h3⟩, k4.trans h4⟩

/-- A host operation other than READDATA comes into no phase of READDATA, so not to COMMIT. -/
theorem exec_outside_read {i : Instr} {s t : State} (hi : i.context = .hostOp) (hne : i ≠ .readdata) (h : exec i s = .next t) :
    KeepsMeasurement s t ∧ t.phase.ofRead = false := by
  refine exec_keeps (P := fun u => KeepsMeasurement s u ∧ u.phase.ofRead = false) h (fun _ => ⟨⟨⟨rfl, rfl, rfl⟩, rfl⟩, rfl⟩)
    (fun _ => ⟨⟨⟨rfl, rfl, rfl⟩, rfl⟩, rfl⟩) (fun _ _ _ => ⟨⟨⟨rfl, rfl, rfl⟩, rfl⟩, rfl⟩) (fun hr => absurd hr hne)
    (fun _ _ => ⟨⟨⟨rfl, rfl, rfl⟩, rfl⟩, rfl⟩) (fun _ _ => ⟨⟨⟨rfl, rfl, rfl⟩, rfl⟩, rfl⟩) (fun _ hc => ?_)
    (fun hc => absurd hi hc) (fun u v hu _ hv => ?_)
  · rw [hi] at hc; cases hc
  · obtain ⟨hm, hp⟩ := hu
    exact ⟨tick_keepsMeasurement hm hv (by intro hc; rw [hc] at hp; cases hp), tick_not_ofRead hv hp⟩

/-- READDATA leaves the measurement unless it has ended with STATUS = 1. -/
theorem exec_readdata_measurement {s t : State} (h : exec .readdata s = .next t) :
    KeepsMeasurement s t ∨ (t.phase = .idle ∧ t.status = true) := by
  have hp := idle_of_exec rfl h
  rw [exec_readdata hp] at h
  refine runToIdle_keeps (P := fun u => KeepsMeasurement s u ∨ (u.phase = .idle ∧ u.status = true)) h
    (.inl (startRead_measurement s)) fun u v hu hi hv => ?_
  have hm := hu.resolve_right fun hu => hi hu.1
  by_cases hc : u.phase = .commit
  · simp only [tick, hc, commitTick] at hv
    injection hv with hv
    subst hv
    exact .inr ⟨rfl, rfl⟩
  · exact .inl (tick_keepsMeasurement hm hv hc)

/-- Settles O19: only COMMIT writes the measurement; no other operation comes to it, and READDATA ends there with STATUS = 1. -/
theorem onlyASuccessfulReadWritesTheMeasurement : Obligations.OnlyASuccessfulReadWritesTheMeasurement := by
  intro i s t hi h hne
  by_cases hr : i = .readdata
  · subst hr
    refine (exec_readdata_measurement h).resolve_right fun ⟨hp, hst⟩ => ?_
    rcases hne with hne | hne | hne
    · exact hne rfl
    · exact hne hp
    · rw [hst] at hne; cases hne
  · exact (exec_outside_read hi hr h).1

/-- Only a mode switch writes MODE or FS (R11, R13). -/
theorem exec_mode_fs {i : Instr} {s t : State} (hi : ∀ m, ¬ SwitchesTo i m) (h : exec i s = .next t) :
    t.mode = s.mode ∧ t.fs = s.fs := by
  refine exec_keeps (P := fun u => u.mode = s.mode ∧ u.fs = s.fs) h (fun _ => ⟨rfl, rfl⟩) (fun _ => ⟨rfl, rfl⟩)
    (fun m hm => absurd hm (hi m)) (fun _ _ => ?_) (fun _ _ => ⟨rfl, rfl⟩) (fun _ _ => ⟨rfl, rfl⟩) (fun _ _ => ⟨rfl, rfl⟩)
    (fun _ _ => ⟨rfl, rfl⟩) (fun u v hu _ hv => ?_)
  · obtain ⟨hm, hf, -⟩ := startRead_same s
    exact ⟨hm, hf⟩
  · obtain ⟨-, hm, hf, -⟩ := tick_same hv
    exact ⟨hm.trans hu.1, hf.trans hu.2⟩

/-! ## Mode switches (R70 to R72) -/

/-- A mode switch in progress is in SENDCMD or in its last RXFLUSH; it ends with success and RXQ empty (R142). -/
def Switching (s : State) : Prop :=
  (s.phase = .cmdtx ∧ s.act = .setmode) ∨ s.phase = .drain ∨
    (s.phase = .idle ∧ s.status = true ∧ s.errkind = .none ∧ s.data = 0 ∧ s.rxq = [])

theorem tick_switching {s t : State} (hs : Switching s) (hp : s.phase ≠ .idle) (h : tick s = .next t) : Switching t := by
  rcases hs with ⟨hc, ha⟩ | hd | ⟨hi, -⟩
  · cases tick_cases h with
    | sent a r => exact .inr (.inl (by simp [afterSend, hc, ha]))
    | _ => simp_all [Switching]
  · cases tick_cases h with
    | drainSettled a k r => exact .inr (.inl hd)
    | drainDiscarded a k r b q => exact .inr (.inl hd)
    | drainFinished a k r _ _ _ hx => exact .inr (.inr ⟨rfl, rfl, rfl, rfl, hx⟩)
    | _ => simp_all [State.Sending]
  · exact absurd hi hp

theorem Switching.phase {s : State} (h : Switching s) : s.phase = .cmdtx ∨ s.phase = .drain ∨ s.phase = .idle := by
  rcases h with ⟨h, -⟩ | h | ⟨h, -⟩
  · exact .inl h
  · exact .inr (.inl h)
  · exact .inr (.inr h)

/-- A mode switch that is over has succeeded, with RXQ empty. -/
theorem Switching.over {s : State} (h : Switching s) (hp : s.phase = .idle) :
    s.status = true ∧ s.errkind = .none ∧ s.data = 0 ∧ s.rxq = [] := by
  rcases h with ⟨hc, -⟩ | hd | ⟨-, h⟩
  · rw [hp] at hc; cases hc
  · rw [hp] at hd; cases hd
  · exact h

theorem SwitchesTo.context {i : Instr} {m : Mode} (h : SwitchesTo i m) : i.context = .hostOp := by
  rcases h with rfl | ⟨rfl, -⟩ | ⟨rfl, -⟩ <;> rfl

theorem SwitchesTo.ne_readdata {i : Instr} {m : Mode} (h : SwitchesTo i m) : i ≠ .readdata := by
  rcases h with rfl | ⟨rfl, -⟩ | ⟨rfl, -⟩ <;> simp

/-- A mode switch leaves BUF as it was, and when it is over it has succeeded and RXQ is empty. -/
theorem exec_switch_result {i : Instr} {m : Mode} {s t : State} (hi : SwitchesTo i m) (h : exec i s = .next t) :
    Switching t ∧ t.mode = m ∧ t.buf = s.buf := by
  have hp := idle_of_exec hi.context h
  rw [exec_switch hi hp] at h
  refine runToIdle_keeps (P := fun u => Switching u ∧ u.mode = m ∧ u.buf = s.buf) h ⟨.inl ⟨rfl, rfl⟩, rfl, rfl⟩
    fun u v ⟨hs, hm, hb⟩ hi hv => ?_
  obtain ⟨-, hmv, -⟩ := tick_same hv
  refine ⟨tick_switching hs hi hv, hmv.trans hm, ?_⟩
  have hph := hs.phase
  rw [tick_buffer hv (by intro e; simp [e] at hph) (by intro e; simp [e] at hph) (by intro e; simp [e] at hph), hb]

theorem modeCommand_frame (m : Mode) : commandFrame (modeCommand m).c1 (modeCommand m).c2 = commandWire (modeCommand m) := by
  cases m <;> decide

/-- Settles O25: `Switching` gives the results and RXQ, `beginSend_transmits` the transport, and the rest is what no tick
outside READDATA writes. -/
theorem modeSwitchFrame : Obligations.ModeSwitchFrame := by
  intro i m s t hi h
  have hi : SwitchesTo i m := hi
  have hp := idle_of_exec hi.context h
  obtain ⟨⟨hmeas, hlm⟩, -⟩ := exec_outside_read hi.context hi.ne_readdata h
  obtain ⟨hvar, hto⟩ := exec_variant_rxto h
  obtain ⟨hres, hm, hb⟩ := exec_switch_result hi h
  rw [exec_switch hi hp] at h
  have hg : t.Geometry := runToIdle_keeps h (s.switching_geometry m) fun _ _ hu _ hv => geometry_of_tick hv hu
  refine ⟨hm, hg, hmeas, hlm, hvar, hto, fun a => by rw [hb], fun ht => ?_⟩
  obtain ⟨hq, hl⟩ := beginSend_transmits (modeCommand_frame m) h ht
  obtain ⟨hst, hk, hdata, hrx⟩ := hres.over ht
  exact ⟨hst, hk, hdata, hrx, hq, hl⟩

/-- Settles O18: a mode switch does not fail, and no other operation writes MODE or FS, or the measurement when it fails. -/
theorem failureLeavesTheRegisters : Obligations.FailureLeavesTheRegisters := by
  intro i s t hi h hp hst
  have hswitch : ∀ m, ¬ SwitchesTo i m := by
    intro m hm
    obtain ⟨hres, -⟩ := exec_switch_result hm h
    obtain ⟨hok, -⟩ := hres.over hp
    rw [hst] at hok
    cases hok
  obtain ⟨⟨h1, h2, h3⟩, hlm⟩ := onlyASuccessfulReadWritesTheMeasurement i s t hi h (.inr (.inr hst))
  obtain ⟨hm, hf⟩ := exec_mode_fs hswitch h
  obtain ⟨hv, -⟩ := exec_variant_rxto h
  exact ⟨⟨h1, h2, h3, hm, hf, hv⟩, hlm⟩

/-! ## SLEEP and WAKEUP (R131 to R133) -/

/-- Outside READDATA only ACKREAD writes BUF, below offset 9 (R130). -/
theorem tick_buf_beyond_ack {s t : State} (h : tick s = .next t) (hp : s.phase.ofRead = false) (hw : s.buf.wf = true) :
    t.buf.wf = true ∧ ∀ a, params.ackLen ≤ a → t.buf.read a = s.buf.read a := by
  by_cases hack : s.phase = .ackwait
  · cases tick_cases h with
    | ackByte x k r b q _ _ hc _ _ ht =>
      subst ht
      refine ⟨Memory.wf_write _ _ hw, fun a ha => ?_⟩
      change (s.buf.write s.ackCount b).read a = _
      rw [Memory.read_write _ _ _ hw, if_neg (by omega)]
    | _ => simp_all [State.Sending]
  · have hb : t.buf = s.buf :=
      tick_buffer h (by intro e; simp [e, Phase.ofRead] at hp) (by intro e; simp [e, Phase.ofRead] at hp) hack
    exact ⟨hb ▸ hw, fun a _ => by rw [hb]⟩

/-- Settles O40: each is a run from SENDCMD of its own command, in which only ACKREAD writes BUF. -/
theorem powerOperationsFrame : Obligations.PowerOperationsFrame := by
  intro i c s t hi hw h
  have hhost : i.context = .hostOp := by rcases hi with ⟨rfl, -⟩ | ⟨rfl, -⟩ <;> rfl
  have hread : i ≠ .readdata := by rcases hi with ⟨rfl, -⟩ | ⟨rfl, -⟩ <;> simp
  have hswitch : ∀ m, ¬ SwitchesTo i m := by
    rcases hi with ⟨rfl, -⟩ | ⟨rfl, -⟩ <;> simp [SwitchesTo]
  obtain ⟨⟨⟨h1, h2, h3⟩, hlm⟩, -⟩ := exec_outside_read hhost hread h
  obtain ⟨hm, hf⟩ := exec_mode_fs hswitch h
  obtain ⟨hv, hto⟩ := exec_variant_rxto h
  have hp := idle_of_exec hhost h
  have run : ∃ a, a ≠ .readdata ∧ runToIdle (s.beginSend a c) = .next t ∧ commandFrame c.c1 c.c2 = commandWire c := by
    rcases hi with ⟨rfl, rfl⟩ | ⟨rfl, rfl⟩
    · exact ⟨.sleep, by simp, exec_sleep hp ▸ h, by decide⟩
    · exact ⟨.wakeup, by simp, exec_wakeup hp ▸ h, by decide⟩
  obtain ⟨a, ha, hrun, hc⟩ := run
  refine ⟨⟨h1, h2, h3, hm, hf, hv⟩, hlm, hto, ?_, beginSend_transmits hc hrun⟩
  obtain ⟨-, -, hbeyond⟩ : t.phase.ofRead = false ∧ t.buf.wf = true ∧ ∀ o, params.ackLen ≤ o → t.buf.read o = s.buf.read o := by
    refine runToIdle_keeps
      (P := fun u => u.phase.ofRead = false ∧ u.buf.wf = true ∧ ∀ o, params.ackLen ≤ o → u.buf.read o = s.buf.read o) hrun
      ⟨by simp [ha, Phase.ofRead], hw, fun _ _ => rfl⟩ fun u v ⟨hp, hw, hb⟩ _ hv => ?_
    obtain ⟨hw', hb'⟩ := tick_buf_beyond_ack hv hp hw
    exact ⟨tick_not_ofRead hv hp, hw', fun o ho => (hb' o ho).trans (hb o ho)⟩
  exact hbeyond

/-! ## READDATA (R80 to R85, R100) -/

/-- READDATA up to CAPTURE, which is the first to write BUF, or ended with one of the two failures before it (R84). -/
def BeforeCapture (s : State) : Prop :=
  s.phase = .qreq ∨ s.phase = .qwait ∨ s.phase = .sync ∨ s.phase = .lenchk ∨ s.phase = .capture ∨
    (s.phase = .idle ∧ (s.errkind = .syncMiss ∨ s.errkind = .shortFrame))

/-- What READDATA, started at `s`, has done to BUF at `u`. -/
structure ReadBuffer (s u : State) : Prop where
  inside : u.phase.ofRead = true ∨ u.phase = .idle
  geometry : u.Geometry
  fs : u.fs = s.fs
  wf : u.buf.wf = true
  beyond : ∀ a, s.fs.toNat ≤ a → u.buf.read a = s.buf.read a
  untouched : BeforeCapture u → u.buf = s.buf

/-- Nothing leads back to a place before CAPTURE. -/
theorem beforeCapture_of_tick {s t : State} (h : tick s = .next t) (hp : s.phase.ofRead = true) (ht : BeforeCapture t) :
    BeforeCapture s ∧ s.phase ≠ .capture := by
  by_cases hs : s.Sending
  · have hq : s.phase = .qreq := hs.resolve_left (by intro e; simp [e, Phase.ofRead] at hp)
    exact ⟨.inl hq, by simp [hq]⟩
  cases tick_cases h with
  | captured _ _ _ _ _ _ _ _ ht' => subst ht'; simp [BeforeCapture] at ht
  | committed _ _ ht' => subst ht'; simp [BeforeCapture] at ht
  | _ => simp_all [BeforeCapture]

/-- READDATA writes BUF below offset FS only: the captured frame, and the pairs that SWAP exchanges (R85, R100). -/
theorem tick_buf_beyond_frame {s t : State} (h : tick s = .next t) (hp : s.phase.ofRead = true) (hg : s.Geometry)
    (hw : s.buf.wf = true) : t.buf.wf = true ∧ ∀ a, s.fs.toNat ≤ a → t.buf.read a = s.buf.read a := by
  have outside : ∀ {p : Phase}, p.ofRead = false → s.phase ≠ p := by
    rintro p hq rfl
    rw [hp] at hq
    cases hq
  by_cases hc : s.phase = .capture
  · cases tick_cases h with
    | captured x k r _ _ _ _ hx ht =>
      subst ht
      refine ⟨Memory.wf_writeList _ _ hw, fun a ha => ?_⟩
      change (s.buf.writeList 0 _).read a = _
      rw [Memory.read_writeList _ _ _ hw, if_neg]
      rw [List.length_take]
      omega
    | _ => simp_all [State.Sending]
  by_cases hs : s.phase = .swap
  · cases tick_cases h with
    | swapped _ _ => exact ⟨wf_swapBuf _ _ hw, fun a ha => read_swapBuf_beyond hg hw ha⟩
    | _ => simp_all [State.Sending]
  have hb := tick_buffer h hc hs (outside rfl)
  exact ⟨hb ▸ hw, fun a _ => by rw [hb]⟩

theorem tick_readBuffer {s u t : State} (hu : ReadBuffer s u) (hi : u.phase ≠ .idle) (h : tick u = .next t) :
    ReadBuffer s t := by
  have hp := hu.inside.resolve_right hi
  obtain ⟨hw, hbeyond⟩ := tick_buf_beyond_frame h hp hu.geometry hu.wf
  obtain ⟨-, -, hf, -⟩ := tick_same h
  refine ⟨tick_ofRead h hp, geometry_of_tick h hu.geometry, hf.trans hu.fs, hw,
    fun a ha => (hbeyond a (hu.fs ▸ ha)).trans (hu.beyond a ha), fun ht => ?_⟩
  obtain ⟨hbefore, hc⟩ := beforeCapture_of_tick h hp ht
  have hs : u.phase ≠ .swap := by intro e; simp [BeforeCapture, e] at hbefore
  have hack : u.phase ≠ .ackwait := by intro e; simp [Phase.ofRead, e] at hp
  rw [tick_buffer h hc hs hack, hu.untouched hbefore]

theorem startRead_query {s : State} (h : s.mode = .query) : startRead s = s.beginSend .readdata params.cmdQuery := by
  simp [startRead, h]

/-- What READDATA, whatever the environment does, has done to BUF. -/
theorem exec_readdata_buffer {s t : State} (hg : s.Geometry) (hw : s.buf.wf = true) (h : exec .readdata s = .next t) :
    ReadBuffer s t := by
  rw [exec_readdata (idle_of_exec rfl h)] at h
  obtain ⟨-, hf, -, -, hb⟩ := startRead_same s
  refine runToIdle_keeps h ⟨?_, startRead_geometry hg, hf, hb ▸ hw, fun a _ => by rw [hb], fun _ => hb⟩
    fun u v hu hi hv => tick_readBuffer hu hi hv
  unfold startRead
  split <;> exact .inl rfl

/-- In PushMode READDATA starts in SYNC and never comes into SENDCMD, so it writes nothing to the transport (R80, R143). -/
theorem exec_readdata_push_transmits {s t : State} (hm : s.mode = .push) (h : exec .readdata s = .next t) :
    t.txlog ++ t.txq = s.txlog ++ s.txq := by
  rw [exec_readdata (idle_of_exec rfl h)] at h
  have start : ¬ (startRead s).Sending ∧ (startRead s).txlog ++ (startRead s).txq = s.txlog ++ s.txq := by
    simp [startRead, hm, State.Sending]
  have run : ¬ t.Sending ∧ t.txlog ++ t.txq = s.txlog ++ s.txq :=
    runToIdle_keeps (P := fun u => ¬ u.Sending ∧ u.txlog ++ u.txq = s.txlog ++ s.txq) h start
      fun u v ⟨hn, hu⟩ _ hv => ⟨tick_not_sending hv hn, (tick_transmits hv hn).trans hu⟩
  exact run.2

/-- Settles O31: `ReadBuffer` says what becomes of BUF, and in QueryMode the run starts with SENDCMD of the query request. -/
theorem readFrame : Obligations.ReadFrame := by
  intro s t hg hw h
  obtain ⟨hm, hf⟩ := exec_mode_fs (by simp [SwitchesTo]) h
  obtain ⟨hv, hto⟩ := exec_variant_rxto h
  have hb := exec_readdata_buffer hg hw h
  refine ⟨hm, hf, hv, hto, hb.beyond, fun hp hk a => ?_, fun hne => ?_, fun hpush => exec_readdata_push_transmits hpush h,
    fun hquery hp => ?_⟩
  · rw [hb.untouched (.inr (.inr (.inr (.inr (.inr ⟨hp, hk⟩)))))]
  · exact onlyASuccessfulReadWritesTheMeasurement .readdata s t rfl h (.inr hne)
  · rw [exec_readdata (idle_of_exec rfl h), startRead_query hquery] at h
    exact beginSend_transmits (by decide) h hp

end Sys2Proof.Machine
end

section
/-! What stands next, and that from the invariant nothing but a word that names no operation stops the machine
(spec/30_encoding.md rule R61, spec/41_readdata_sync.md rule R85, spec/60_exceptions.md rule R152). -/

namespace Sys2Proof.Machine

/-- A word of the host is refused for one reason (R61). -/
theorem decodeOpw_error {w : Byte} {e : DecodeError} (h : decodeOpw w = .error e) : e = .noOperation := by
  unfold decodeOpw at h
  repeat' split at h
  all_goals cases h
  rfl

/-- Everything that can stand next (log entries 5, 9, 10 and 11). -/
inductive FetchTo (s : State) : Fetched → Prop where
  | host (w : Byte) (r : List Input) (i : Instr) (hp : s.phase = .idle) (hr : s.inputs = .host w :: r)
      (hd : decode .hostOp [w] = .ok i) : FetchTo s (.instr i { s with inputs := r })
  | command (i : Instr) (hp : s.Sending) (hq : s.point = .flushBefore)
      (hd : decode .outbound (commandFrame s.cmd1 s.cmd2) = .ok i) : FetchTo s (.instr i s)
  | inbound (bs : List Byte) (r : List Input) (c : Context) (i : Instr) (hr : s.inputs = .rx bs :: r)
      (hc : inboundContext s = some c) (hd : decode c bs = .ok i) : FetchTo s (.instr i { s with inputs := r })
  | unknown (w : Byte) (r : List Input) (hp : s.phase = .idle) (hr : s.inputs = .host w :: r)
      (hd : decode .hostOp [w] = .error .noOperation) : FetchTo s (.unknown w)
  | engine : FetchTo s .engine
  | environment : FetchTo s .environment

theorem fetchHost_cases {s : State} (hp : s.phase = .idle) : FetchTo s (fetchHost s) := by
  unfold fetchHost
  split
  · split
    · exact .host _ _ _ hp ‹_› ‹_›
    · next e hd => exact .unknown _ _ hp ‹_› (by rw [hd, decodeOpw_error hd])
  · exact .environment

theorem fetchCommand_cases {s : State} (hs : s.Sending) : FetchTo s (fetchCommand s) := by
  unfold fetchCommand
  split
  · split
    · exact .command _ hs ‹_› ‹_›
    · exact .engine
  · exact .engine

theorem fetchInbound_cases (s : State) : FetchTo s (fetchInbound s) := by
  unfold fetchInbound
  split
  · split
    · split
      · exact .inbound _ _ _ _ ‹_› ‹_› ‹_›
      · exact .engine
    · exact .engine
  · exact .engine

/-- What stands next is one of these. -/
theorem fetch_cases (s : State) : FetchTo s (fetch s) := by
  unfold fetch
  split
  · exact fetchHost_cases ‹_›
  · exact fetchCommand_cases (.inl ‹_›)
  · exact fetchCommand_cases (.inr ‹_›)
  · exact fetchInbound_cases s

/-- From the invariant no run of ticks stops by a fault: RXQ is never read empty, and CAPTURE finds a whole frame. -/
theorem runUntil_next {s : State} (stop : State → Bool) (n : Nat) (h : s.Inv) : ∃ t, runUntil stop n s = .next t := by
  obtain ⟨t, ht, -⟩ := runUntil_total (stop := stop) n h fun _ hu => tick_inv hu
  exact ⟨t, ht⟩

theorem readMeasurement_total (v : Half) (s : State) : ∃ t, readMeasurement v s = .next t := by
  unfold readMeasurement
  split <;> exact ⟨_, rfl⟩

/-- From the invariant in IDLE every host operation answers a next state. -/
theorem exec_hostOp_total {i : Instr} {s : State} (h : s.Inv) (hi : i.context = .hostOp) (hp : s.phase = .idle) :
    ∃ t, exec i s = .next t := by
  have accessor : ∀ v : State → Half, ∃ t, whenIdle s (fun u => readMeasurement (v u) u) = .next t := fun v => by
    rw [whenIdle_of_idle hp]
    exact readMeasurement_total _ s
  have power : ∀ a c, a = .sleep ∨ a = .wakeup → commandOf a s.mode = some c → c.tail = commandTail c.c1 c.c2 →
      ∃ t, runToIdle (s.beginSend a c) = .next t := fun a c ha hc ht =>
    runUntil_next _ _ (State.inv_beginSend h (by rcases ha with rfl | rfl <;> decide)
      (by rcases ha with rfl | rfl <;> exact nofun) hc ht)
  have switch : ∀ m, SwitchesTo i m → ∃ t, exec i s = .next t := fun m hm => by
    rw [exec_switch hm hp]
    exact runUntil_next _ _ (State.inv_switching m h)
  cases i with
  | getmode => exact ⟨_, show execGetmode s = _ from whenIdle_of_idle hp⟩
  | setmode m => exact switch m (.inl rfl)
  | setinitiative => exact switch .push (.inr (.inl ⟨rfl, rfl⟩))
  | setqanda => exact switch .query (.inr (.inr ⟨rfl, rfl⟩))
  | readdata =>
    rw [exec_readdata hp]
    exact runUntil_next _ _ (startRead_inv h)
  | getpm1_0 => exact accessor State.pm1_0
  | getpm2_5 => exact accessor State.pm2_5
  | getpm10_0 => exact accessor State.pm10
  | sleep =>
    rw [exec_sleep hp]
    exact power .sleep _ (.inl rfl) rfl rfl
  | wakeup =>
    rw [exec_wakeup hp]
    exact power .wakeup _ (.inr rfl) rfl rfl
  | _ => simp [Instr.context] at hi

/-- An inbound row is the arrival of its bytes, and the operation in progress goes on (log entry 10). -/
theorem exec_inbound {i : Instr} (s : State) (h1 : i.context ≠ .hostOp) (h2 : i.context ≠ .outbound) :
    exec i s = runToIdle (s.arrive (encode i)) := by
  cases i with
  | framePushA f => rfl
  | framePushB f => rfl
  | frameQuery f => rfl
  | ackSleep a => rfl
  | ackWake a => rfl
  | _ => simp [Instr.context] at h1 h2

/-- An outbound row is SENDCMD of the command that it encodes (log entry 9). -/
theorem exec_outbound {i : Instr} (h : i.context = .outbound) :
    ∃ c, encode i = commandWire c ∧ commandFrame c.c1 c.c2 = commandWire c ∧
      ∀ s, exec i s = runUntil State.notSending (budget (s.sending c)) (s.sending c) := by
  cases i with
  | cmdSetPush => exact ⟨params.cmdSetPush, rfl, by decide, fun _ => rfl⟩
  | cmdSetQuery => exact ⟨params.cmdSetQuery, rfl, by decide, fun _ => rfl⟩
  | cmdQuery => exact ⟨params.cmdQuery, rfl, by decide, fun _ => rfl⟩
  | cmdSleep => exact ⟨params.cmdSleep, rfl, by decide, fun _ => rfl⟩
  | cmdWake => exact ⟨params.cmdWake, rfl, by decide, fun _ => rfl⟩
  | _ => simp [Instr.context] at h

/-- The row of the command frame that SENDCMD is about to send is the run of SENDCMD from the state as it is. -/
theorem exec_fetched_command {i : Instr} {s : State} (h : s.Inv) (hs : s.Sending) (hq : s.point = .flushBefore)
    (hd : decode .outbound (commandFrame s.cmd1 s.cmd2) = .ok i) :
    exec i s = runUntil State.notSending (budget s) s := by
  obtain ⟨c, hc, hx⟩ := exec_of_decode_outbound hd
  rw [hx]
  change runUntil _ (budget (s.sending c)) (s.sending c) = _
  rw [sending_eq_self h hs hq hc]

/-- Settles O11: every instruction that can stand next answers a next state, because every tick from the invariant does; what
is left is the word that names no operation. -/
theorem onlyUnknownWordsStopTheMachine : Obligations.OnlyUnknownWordsStopTheMachine := by
  intro s h
  unfold step
  generalize hf : fetch s = f
  have hc : FetchTo s f := hf ▸ fetch_cases s
  cases hc with
  | host w r i hp _ hd => exact .inl (exec_hostOp_total (State.inv_withInputs r h) (context_of_decode hd) hp)
  | command i hs hq hd =>
    left
    simp only [exec_fetched_command h hs hq hd]
    exact runUntil_next _ _ h
  | inbound bs r c i _ hc hd =>
    left
    obtain ⟨h1, h2⟩ := inboundContext_inbound hc
    rw [← context_of_decode hd] at h1 h2
    simp only [exec_inbound _ h1 h2, State.arrive_eq_moved]
    exact runUntil_next _ _ (State.inv_moved _ _ _ (State.inv_withInputs r h))
  | unknown w r hp hr hd => exact .inr ⟨w, r, hp, hr, hd, rfl⟩
  | engine => exact .inl (runUntil_next _ _ h)
  | environment => exact .inl ⟨_, rfl⟩

end Sys2Proof.Machine
end

section
/-! The transport over whole instructions and steps (spec/20_memory.md rules R35, R39 and R44, spec/60_exceptions.md rule R155):
bytes leave and are read in order, and in IDLE they only accumulate. -/

namespace Sys2Proof.Machine

@[simp] theorem afterSend_rxq (s : State) : (afterSend s).rxq = s.rxq := by unfold afterSend; split <;> rfl
@[simp] theorem afterSend_inputs (s : State) : (afterSend s).inputs = s.inputs := by unfold afterSend; split <;> rfl

theorem startRead_transport (s : State) :
    (startRead s).rxq = s.rxq ∧ (startRead s).txq = s.txq ∧ (startRead s).txlog = s.txlog ∧
      (startRead s).inputs = s.inputs := by
  unfold startRead; split <;> exact ⟨rfl, rfl, rfl, rfl⟩

/-! ## Transmission (R35, R44) -/

theorem Transmits.moved (s : State) (a : List Byte) (k : Nat) (r : List Input) : Transmits s (s.moved a k r) := by
  simp [Transmits]

/-- What was transmitted stays in front, and what was written stays in order in front of what is written later. -/
abbrev KeepsOrder (s t : State) : Prop := s.txlog <+: t.txlog ∧ s.txlog ++ s.txq <+: t.txlog ++ t.txq

theorem KeepsOrder.refl (s : State) : KeepsOrder s s := ⟨List.prefix_rfl, List.prefix_rfl⟩

/-- Only SENDCMD's nine writes add to what was written, and they add behind it (R140). -/
theorem tick_keepsOrder {s t : State} (h : tick s = .next t) : KeepsOrder s t := by
  refine ⟨tick_prefix h, ?_⟩
  by_cases hs : s.Sending
  · cases tick_cases h with
    | captured _ _ _ _ _ _ _ _ ht => subst ht; simp
    | committed _ _ ht => subst ht; simp
    | ackByte _ _ _ _ _ _ _ _ _ _ ht => subst ht; simp
    | _ => simp
  · rw [tick_transmits h hs]

/-- Settles O15: no operation's start touches the transport, and every tick keeps the order. -/
theorem transmissionIsFirstInFirstOut : Obligations.TransmissionIsFirstInFirstOut := by
  intro i s t h
  have start : KeepsOrder s s := KeepsOrder.refl s
  refine exec_keeps (P := KeepsOrder s) h (fun _ => start) (fun _ => start) (fun _ _ _ => start) (fun _ _ => ?_)
    (fun _ _ => start) (fun _ _ => start) (fun _ _ => start) (fun _ _ => start) (fun u v hu _ hv => ?_)
  · obtain ⟨-, hq, hl, -⟩ := startRead_transport s
    rw [KeepsOrder, hq, hl]
    exact start
  · obtain ⟨hlog, hall⟩ := tick_keepsOrder hv
    exact ⟨hu.1.trans hlog, hu.2.trans hall⟩

/-! ## Reception (R33, R44) -/

/-- From `q` and the timeline `l` on, bytes arrived, and RXQ is the end of `q` followed by them. -/
def Received (q : List Byte) (l : List Input) (t : State) : Prop :=
  ∃ a, Brought l a t.inputs ∧ t.rxq <:+ q ++ a

theorem Received.refl (s : State) : Received s.rxq s.inputs s := ⟨[], Brought.refl _, by simp⟩

theorem tick_received {q : List Byte} {l : List Input} {s t : State} (hs : Received q l s) (h : tick s = .next t) :
    Received q l t := by
  obtain ⟨a, hb, hx⟩ := hs
  obtain ⟨a', ht, hx'⟩ := tick_receives h
  refine ⟨a ++ a', hb.trans ht.brought, hx'.trans ?_⟩
  obtain ⟨d, hd⟩ := hx
  exact ⟨d, by rw [← List.append_assoc, ← List.append_assoc, hd]⟩

/-- A run of ticks receives in order. -/
theorem runToIdle_received {q : List Byte} {l : List Input} {s t : State} (hs : Received q l s) (h : runToIdle s = .next t) :
    Received q l t :=
  runToIdle_keeps h hs fun _ _ hu _ hv => tick_received hu hv

/-- The bytes that an instruction itself brings: those of an inbound row (log entry 10). -/
def inboundBytes (i : Instr) : List Byte := if i.context = .hostOp ∨ i.context = .outbound then [] else encode i

theorem exec_received {i : Instr} {s t : State} (h : exec i s = .next t) : Received (s.rxq ++ inboundBytes i) s.inputs t := by
  have start : ∀ q, Received q s.inputs (s.withRxq q) := fun q => Received.refl (s.withRxq q)
  by_cases hi : i.context = .hostOp ∨ i.context = .outbound
  · rw [inboundBytes, if_pos hi, List.append_nil]
    refine exec_keeps h (fun _ => start s.rxq) (fun _ => start s.rxq) (fun _ _ _ => start s.rxq) (fun _ _ => ?_)
      (fun _ _ => start s.rxq) (fun _ _ => start s.rxq) (fun _ _ => start s.rxq) (fun h1 h2 => absurd hi (not_or.2 ⟨h1, h2⟩))
      fun _ _ hu _ hv => tick_received hu hv
    obtain ⟨hr, -, -, hl⟩ := startRead_transport s
    rw [Received, hr, hl]
    exact start s.rxq
  · obtain ⟨h1, h2⟩ := not_or.1 hi
    rw [exec_inbound s h1 h2] at h
    rw [inboundBytes, if_neg hi]
    exact runToIdle_received (start _) h

/-! ## What the decoder reads of an inbound frame stood on the wire (R50, R53 to R57) -/

theorem pushWire_of_decodePush {n : Nat} {bs : List Byte} {f : PushFrame} (h : decodePush n bs = .ok f) : pushWire f = bs := by
  unfold decodePush at h
  repeat' split at h
  all_goals cases h
  next hlead _ _ _ _ htrail =>
    obtain ⟨hl, -⟩ := halvesWire_of_takeHalves hlead
    obtain ⟨ht, -⟩ := halvesWire_of_takeHalves htrail
    simp_all [pushWire, halvesWire, halvesWire_append]

theorem queryWire_of_decodeQuery {bs : List Byte} {f : QueryFrame} (h : decodeQuery bs = .ok f) : queryWire f = bs := by
  unfold decodeQuery at h
  repeat' split at h
  all_goals cases h
  simp_all [queryWire, halvesWire]

theorem ackWire_of_decodeAck {e : AckExpect} {bs : List Byte} {a : AckFrame} (h : decodeAck e bs = .ok a) :
    ackWire e a = bs := by
  unfold decodeAck at h
  repeat' split at h
  all_goals cases h
  simp_all [ackWire]

/-- The bytes of an inbound frame are what its instruction encodes to: none is dropped. -/
theorem encode_of_decode_inbound {c : Context} {bs : List Byte} {i : Instr} (hc : c ≠ .hostOp ∧ c ≠ .outbound)
    (h : decode c bs = .ok i) : encode i = bs := by
  have mapped : ∀ {α : Type} {e : Except DecodeError α} {f : α → Instr}, (∀ a, e = .ok a → encode (f a) = bs) →
      e.map f = .ok i → encode i = bs := by
    intro α e f hf h
    cases e with
    | error _ => cases h
    | ok a => injection h with h; exact h ▸ hf a rfl
  cases c with
  | hostOp => exact absurd rfl hc.1
  | outbound => exact absurd rfl hc.2
  | pushA => exact mapped (fun _ => pushWire_of_decodePush) h
  | pushB => exact mapped (fun _ => pushWire_of_decodePush) h
  | query => exact mapped (fun _ => queryWire_of_decodeQuery) h
  | ackSleep => exact mapped (fun _ => ackWire_of_decodeAck) h
  | ackWake => exact mapped (fun _ => ackWire_of_decodeAck) h

/-- Settles O16: RXQ only grows at its end and shrinks at its front; where the step fetched an inbound frame, the bytes that it
took from the timeline are those that its instruction brings. -/
theorem receptionIsFirstInFirstOut : Obligations.ReceptionIsFirstInFirstOut := by
  refine ⟨fun i s t h => exec_received h, fun s t h => ?_⟩
  cases step_cases h with
  | host w r i _ hr hd he =>
    obtain ⟨a, hb, hx⟩ := exec_received he
    refine ⟨a, .inr ⟨w, r, hr, hb⟩, ?_⟩
    simpa [inboundBytes, context_of_decode hd] using hx
  | command i _ _ hd he =>
    obtain ⟨a, hb, hx⟩ := exec_received he
    refine ⟨a, .inl hb, ?_⟩
    simpa [inboundBytes, context_of_decode hd] using hx
  | inbound bs r c i hr hc hd he =>
    have hin := inboundContext_inbound hc
    obtain ⟨a, hb, hx⟩ := exec_received he
    have hbs : inboundBytes i = bs := by
      rw [inboundBytes, if_neg (by rw [context_of_decode hd]; exact not_or.2 hin), encode_of_decode_inbound hin hd]
    rw [hbs, List.append_assoc] at hx
    refine ⟨bs ++ a, .inl ?_, hx⟩
    rw [hr]
    simpa [arrivals] using Brought.cons (i := .rx bs) rfl hb
  | engine he =>
    obtain ⟨a, hb, hx⟩ := runToIdle_received (Received.refl s) he
    exact ⟨a, .inl hb, hx⟩
  | environment ht =>
    obtain ⟨a, k, r, e, -, he⟩ := s.turn_effect
    rw [ht, e]
    exact ⟨a, .inl he.brought, List.suffix_rfl⟩

/-! ## IDLE (R155) -/

/-- In IDLE, with no operation issued, only the environment moves. -/
theorem step_idle {s : State} (hp : s.phase = .idle) (hi : ∀ w r, s.inputs ≠ .host w :: r) : step s = .next s.turn := by
  have hf : fetch s = fetchHost s := by rw [fetch, hp]
  have hn : fetchHost s = .environment := by
    unfold fetchHost
    split
    · exact absurd ‹_› (hi _ _)
    · rfl
  rw [step, hf, hn]

/-- Settles O7: the step is one turn of the environment, which moves bytes of the transport and nothing else. -/
theorem idleMovesTouchTheTransportOnly : Obligations.IdleMovesTouchTheTransportOnly := by
  intro s hp hi
  obtain ⟨a, k, r, e, -, he⟩ := s.turn_effect
  exact ⟨s.moved a k r, a, by rw [step_idle hp hi, e], rfl, he.brought, Transmits.moved s a k r⟩

/-- Settles O49: in IDLE no operation is in progress that could go on. -/
theorem inboundFramesAccumulateInIdle : Obligations.InboundFramesAccumulateInIdle := by
  intro i s h1 h2 hp
  rw [exec_inbound s h1 h2]
  exact runUntil_stop _ (by simp [State.isIdle, hp])

end Sys2Proof.Machine
end

section
/-! SENDCMD as a row of its own, whatever the environment does (spec/46_helpers.md rules R140 to R142), and its hold without
TxProgress (spec/60_exceptions.md rule R164). -/

namespace Sys2Proof.Machine

/-! ## SENDCMD up to its return -/

/-- SENDCMD, entered at `s`, has come to `u`: it is still inside, or it has returned with TXQ empty. -/
inductive SendTo (s u : State) : Prop where
  | inside (a d : List Byte) (h : SendAt s u a d)
  | returned (w : State) (a d : List Byte) (hu : u = afterSend w) (h : SendAt s w a d) (hp : w.point = .flushAfter)
      (hq : w.txq = [])

theorem State.notSending_eq_false {s : State} : s.notSending = false ↔ s.Sending := by
  simp only [State.notSending, State.Sending, Bool.and_eq_false_iff, bne_eq_false_iff_eq]

/-- A run of SENDCMD from its start, for as many ticks as it is given. -/
theorem runUntil_sendTo {s u : State} {n : Nat} (hs : s.Sending) (hq : s.point = .flushBefore)
    (h : runUntil State.notSending n s = .next u) : SendTo s u := by
  refine runUntil_keeps h (.inside [] [] (SendAt.start hs hq)) fun v t hv hstop ht => ?_
  cases hv with
  | inside a d hv =>
    rcases tick_sendAt hv ht with ⟨b, e, hb⟩ | ⟨w, b, hw, hb, hp, hx⟩
    · exact .inside b e hb
    · exact .returned w b d hw hb hp hx
  | returned w a d hv hw hp hx =>
    subst hv
    exact absurd (State.notSending_eq_false.1 hstop) (afterSend_not_sending hw.inside)

/-- What SENDCMD has transmitted when it returns (R140, R142). -/
theorem SendAt.transmitted {s w : State} {a d : List Byte} (h : SendAt s w a d) (hp : w.point = .flushAfter)
    (hq : w.txq = []) : w.txlog = s.txlog ++ s.txq ++ commandFrame s.cmd1 s.cmd2 := by
  have hsent := h.sent hp
  rwa [hq, List.append_nil] at hsent

/-- What SENDCMD leaves as it was: the registers, the results and BUF. -/
structure Undisturbed (s t : State) : Prop where
  registers : SameRegisters s t
  lmWritten : t.lmWritten = s.lmWritten
  buf : t.buf = s.buf
  rxto : t.rxto = s.rxto
  status : t.status = s.status
  errkind : t.errkind = s.errkind
  data : t.data = s.data

theorem SendAt.undisturbed {s u : State} {a d : List Byte} (h : SendAt s u a d) : Undisturbed s u := by
  rw [h.rest]
  exact ⟨⟨rfl, rfl, rfl, rfl, rfl, rfl⟩, rfl, rfl, rfl, rfl, rfl, rfl⟩

theorem Undisturbed.afterSend {s u : State} (h : Undisturbed s u) : Undisturbed s (afterSend u) := by
  obtain ⟨hr, hl, hb, ht, hs, he, hd⟩ := h
  unfold Machine.afterSend
  split <;> exact ⟨hr, hl, hb, ht, hs, he, hd⟩

theorem SendTo.undisturbed {s u : State} (h : SendTo s u) : Undisturbed s u := by
  cases h with
  | inside a d h => exact h.undisturbed
  | returned w a d hu h => exact hu ▸ h.undisturbed.afterSend

theorem State.sending_inside (s : State) (c : CommandBytes) : (s.sending c).Sending := by
  change (if s.act = .readdata then Phase.qreq else .cmdtx) = _ ∨ (if s.act = .readdata then Phase.qreq else .cmdtx) = _
  split
  · exact .inr rfl
  · exact .inl rfl

/-- Settles O43: `SendAt` at SENDCMD's return says what was transmitted, received and discarded. -/
theorem commandsAreOrderedInTheLog : Obligations.CommandsAreOrderedInTheLog := by
  intro i s t hi h
  obtain ⟨c, henc, hframe, hexec⟩ := exec_outbound hi
  rw [hexec] at h
  have hto := runUntil_sendTo (s.sending_inside c) rfl h
  have hu := hto.undisturbed
  refine ⟨hu.registers, hu.lmWritten, fun a => by rw [hu.buf]; rfl, hu.rxto, hu.status, hu.errkind, hu.data, fun hout => ?_⟩
  cases hto with
  | inside a d hin => exact (hin.inside.elim hout.1 hout.2).elim
  | returned w a d ht hw hp hq =>
    have hcount : (afterSend w).flushCount = w.flushCount := by unfold afterSend; split <;> rfl
    have hlog := hw.transmitted hp hq
    subst ht
    refine ⟨?_, by rw [afterSend_txq, hq], a, d, ?_, ?_, ?_, hw.emptied (.inr hp)⟩
    · rw [afterSend_txlog, hlog, henc, ← hframe]
      rfl
    · rw [afterSend_inputs]
      exact hw.turns.brought
    · rw [afterSend_rxq]
      exact hw.received
    · rw [hcount]
      exact hw.counted (.inr (.inr hp))

/-! ## The hold without TxProgress (R164, U19) -/

/-- A TxFlush that waits while nothing departs. -/
theorem txFlush_stuck {s : State} (hs : s.still = true) (hx : s.line.txProgress = false) (hq : s.txq ≠ []) :
    txFlush s = (false, s) := by
  simp [txFlush, State.turn_still hs, hx, hq]

/-- An engine that a tick leaves as it is stays so for any number of ticks. -/
theorem runUntil_stuck {s : State} (stop : State → Bool) (n : Nat) (h : tick s = .next s) : runUntil stop n s = .next s := by
  obtain ⟨t, ht, rfl⟩ := runUntil_total (P := (· = s)) (stop := stop) n rfl fun u hu => ⟨s, hu ▸ h, rfl⟩
  exact ht

/-- Without TxProgress and with no move of the environment, SENDCMD is stuck in its first TxFlush, or, where TXQ was empty, in
its last. -/
theorem send_stuck {stop : State → Bool} {s : State} (hp : s.Sending) (hq : s.point = .flushBefore) (hs : s.still = true)
    (hx : s.line.txProgress = false) (hstop : ∀ u : State, u.Sending → stop u = false) :
    ∃ n t, n ≤ s.rxq.length + 4 ∧ Reaches stop n s t ∧ tick t = .next t ∧ t.txq ≠ [] ∧ t.phase = s.phase ∧
      (t = s ∨ t.point = .flushAfter) := by
  by_cases hempty : s.txq = []
  · obtain ⟨s1, h1⟩ : ∃ s1, s1 = s.atPoint .settle := ⟨_, rfl⟩
    obtain ⟨s2, h2⟩ : ∃ s2, s2 = s1.startDrain.discarded.atPoint .write := ⟨_, rfl⟩
    obtain ⟨s3, h3⟩ : ∃ s3, s3 = (s2.withTxq (s2.txq ++ commandFrame s2.cmd1 s2.cmd2)).atPoint .flushAfter := ⟨_, rfl⟩
    have p1 : s1.phase = s.phase := by subst h1; rfl
    have p2 : s2.phase = s.phase := by subst h2; exact p1
    have p3 : s3.phase = s.phase := by subst h3; exact p2
    have i1 : s1.inputs = s.inputs := by subst h1; rfl
    have i2 : s2.inputs = s.inputs := by subst h2; exact i1
    have i3 : s3.inputs = s.inputs := by subst h3; exact i2
    have inside : ∀ {u : State}, u.phase = s.phase → u.Sending := fun hu => by rwa [State.Sending, hu]
    have r1 : Reaches stop 1 s s1 := by
      refine Reaches.one (hstop s hp) ?_
      rw [tick_sending hp, sendTick, hq, h1]
      simp [txFlush, State.turn_still hs, hempty]
    have r2 := send_drain_still (inside p1) (by rw [h1]; rfl) (State.still_congr hs i1 p1) hstop
    have r3 := send_write_still (inside p2) (by rw [h2]; rfl) (State.still_congr hs i2 p2) hstop
    rw [← h2] at r2
    rw [← h3] at r3
    have hx3 : s3.line.txProgress = false := by subst h3 h2 h1; exact hx
    have hq3 : s3.txq ≠ [] := by rw [h3]; simp [commandFrame]
    have o3 : s3.point = .flushAfter := by rw [h3]; rfl
    refine ⟨_, s3, ?_, r1.trans (r2.trans r3), ?_, hq3, p3, .inr o3⟩
    · rw [h1, State.atPoint_rxq]
      omega
    · rw [tick_sending (inside p3), sendTick, o3]
      simp [txFlush_stuck (State.still_congr hs i3 p3) hx3 hq3]
  · refine ⟨0, s, Nat.zero_le _, Reaches.refl _ _, ?_, hempty, rfl, .inl rfl⟩
    rw [tick_sending hp, sendTick, hq]
    simp [txFlush_stuck hs hx hempty]

/-- The command of a mode switch is a row of R52's table, and the switch stands where SENDCMD of that row starts. -/
theorem fetch_switching (s : State) (m : Mode) :
    ∃ i, fetch (s.switching m) = .instr i (s.switching m) ∧
      exec i (s.switching m) = runUntil State.notSending (budget (s.switching m)) (s.switching m) := by
  have fetched : ∀ i, decode .outbound (commandFrame (modeCommand m).c1 (modeCommand m).c2) = .ok i →
      fetch (s.switching m) = .instr i (s.switching m) := fun i hd => by
    simp [fetch, fetchCommand, hd]
  cases m with
  | push => exact ⟨.cmdSetPush, fetched _ (by decide), rfl⟩
  | query => exact ⟨.cmdSetQuery, fetched _ (by decide), rfl⟩

/-- Settles O50: the switch comes to a state that every tick leaves as it is, and the next step only makes such ticks. -/
theorem sendHoldsWithoutTxProgress : Obligations.SendHoldsWithoutTxProgress := by
  intro m s hp hf hx
  have hs : (s.switching m).still = true := State.still_of_frozen hf rfl (by simp)
  obtain ⟨n, t, hn, hr, ht, hq, hph, hpt⟩ := send_stuck (stop := State.isIdle) (.inl (s.switching_phase m)) rfl hs hx
    fun u hu => by rcases hu with hu | hu <;> simp [State.isIdle, hu]
  refine ⟨t, ?_, hph, hq, ?_⟩
  · obtain ⟨k, hk⟩ := Nat.exists_eq_add_of_le (show n ≤ budget (s.switching m) by unfold budget; omega)
    rw [exec_switch (.inl rfl) hp, runToIdle, hk, hr]
    exact runUntil_stuck _ _ ht
  · rcases hpt with rfl | hpt
    · obtain ⟨i, hfetch, hexec⟩ := fetch_switching s m
      rw [step, hfetch]
      exact hexec.trans (runUntil_stuck _ _ ht)
    · have hfetch : fetch t = .engine := by
        rw [fetch, hph, State.switching_phase]
        simp [fetchCommand, hpt]
      rw [step, hfetch]
      exact runUntil_stuck _ _ ht

end Sys2Proof.Machine
end

section
/-! SLEEP and WAKEUP: ACKREAD to its end, whatever the environment does and for an acknowledgment in one burst
(spec/45_power.md rules R130 to R134). -/

namespace Sys2Proof.Machine

/-! ## ACKREAD and its test -/

/-- Where ACKREAD, entered at `y`, leaves the transport and BUF when `reply` is there to be read (R130). -/
def State.acknowledged (y : State) (reply : List Byte) (r : List Input) : State :=
  { y with
    inputs := r, rxq := reply.drop params.ackLen, buf := y.buf.writeList 0 (reply.take params.ackLen) }

/-- The end of the operation: nine bytes that pass the test, or a failure (R131, R132). -/
def State.ackEnd (y : State) (reply : List Byte) (r : List Input) : State :=
  if params.ackLen ≤ reply.length ∧ ackOk (ackExpect y.act) (y.acknowledged reply r).buf = true then
    (y.acknowledged reply r).done 0
  else (y.acknowledged reply r).fail .cmdNotConfirmed

theorem State.ackEnd_phase (y : State) (reply : List Byte) (r : List Input) : (y.ackEnd reply r).phase = .idle := by
  unfold State.ackEnd; split <;> rfl

/-- ACKREAD, entered at `y`, has come to `u`: it is reading, or has read nine bytes, or the operation is over. -/
inductive AckTo (y u : State) : Prop where
  | reading (x g : List Byte) (h : AckAt y u x g)
  | complete (z : State) (x g : List Byte) (h : AckAt y z x g) (hg : g.length = params.ackLen) (hu : u = z.goto .ackchk)
  | finished (x : List Byte) (r : List Input) (h : Turns .ackwait y.inputs x r) (hu : u = y.ackEnd (y.rxq ++ x) r)

theorem AckAt.now {y z : State} {x g : List Byte} (h : AckAt y z x g) : z.phase = .ackwait := by
  rw [h.rest]; exact h.phase

theorem AckTo.phase {y u : State} (h : AckTo y u) : u.phase = .ackwait ∨ u.phase = .ackchk ∨ u.phase = .idle := by
  cases h with
  | reading x g h => exact .inl h.now
  | complete z x g h hg hu => exact .inr (.inl (by rw [hu]; rfl))
  | finished x r h hu => exact .inr (.inr (hu ▸ State.ackEnd_phase _ _ _))

/-- ACKREAD ended by a Timeout: fewer than nine bytes were there, and all were read. -/
theorem ackEnd_timedOut {y : State} {g : List Byte} {r : List Input} (n : Nat) (h : g.length < params.ackLen) :
    State.fail { y with rxq := [], inputs := r, buf := y.buf.writeList 0 g, ackCount := n } .cmdNotConfirmed =
      y.ackEnd g r := by
  rw [State.ackEnd, if_neg fun hc => absurd hc.1 (Nat.not_le_of_lt h), State.acknowledged, List.drop_of_length_le h.le,
    List.take_of_length_le h.le]
  rfl

/-- ACKREAD ended with nine bytes read. -/
theorem ackEnd_complete {y z : State} {x g : List Byte} (h : AckAt y z x g) (hg : g.length = params.ackLen) :
    y.ackEnd (y.rxq ++ x) z.inputs =
      if ackOk (ackExpect z.act) z.buf = true then z.done 0 else z.fail .cmdNotConfirmed := by
  have hack : y.acknowledged (y.rxq ++ x) z.inputs = { z with ackCount := y.ackCount } := by
    rw [State.acknowledged, h.read, List.take_left' hg, List.drop_left' hg, h.rest]
  have hlen : params.ackLen ≤ (y.rxq ++ x).length := by rw [h.read, List.length_append]; omega
  have hact : z.act = y.act := by rw [h.rest]
  rw [State.ackEnd, hack, hact]
  simp only [hlen, true_and]
  rfl

/-- The test of the three bytes. -/
theorem tick_ackchk (z : State) : tick (z.goto .ackchk) =
    .next (if ackOk (ackExpect z.act) z.buf = true then z.done 0 else z.fail .cmdNotConfirmed) := rfl

/-- A tick of ACKREAD or of its test. -/
theorem tick_ackTo {y u t : State} (h : AckTo y u) (hu : u.phase ≠ .idle) (ht : tick u = .next t) : AckTo y t := by
  cases h with
  | reading x g h =>
    rcases tick_ackAt h ht with ⟨a, f, hf, -⟩ | ⟨rfl, hg⟩ | ⟨a, r, rfl, hr, hread, hg⟩
    · exact .reading _ f hf
    · exact .complete u x g h hg rfl
    · refine .finished (x ++ a) r (h.turns.trans hr) ?_
      rw [hread, ← ackEnd_timedOut g.length hg, h.rest]
  | complete z x g h hg hz =>
    subst hz
    rw [tick_ackchk] at ht
    injection ht with ht
    exact .finished x z.inputs h.turns (ht ▸ (ackEnd_complete h hg).symm)
  | finished x r h hu' => exact absurd (hu' ▸ State.ackEnd_phase _ _ _) hu

/-- Neither ACKREAD nor its test faults. -/
theorem tick_ack_next {u : State} (h : u.phase = .ackwait ∨ u.phase = .ackchk) : ∃ t, tick u = .next t := by
  unfold tick
  rcases h with h | h <;> rw [h]
  · simp only [ackwaitTick]
    split
    · exact ⟨_, rfl⟩
    · split <;> exact ⟨_, rfl⟩
  · exact ⟨_, rfl⟩

/-- An operation in ACKREAD that is over. -/
theorem AckTo.ended {y t : State} (h : AckTo y t) (ht : t.phase = .idle) :
    ∃ x, Turns .ackwait y.inputs x t.inputs ∧ t = y.ackEnd (y.rxq ++ x) t.inputs := by
  cases h with
  | reading x g h => rw [h.now] at ht; cases ht
  | complete z x g h hg hu => rw [hu] at ht; cases ht
  | finished x r h hu =>
    have hr : t.inputs = r := by rw [hu]; unfold State.ackEnd; split <;> rfl
    exact ⟨x, hr ▸ h, hr ▸ hu⟩

/-- What ACKREAD has written to BUF at the end of the operation, and how the operation ended, in terms of the bytes read. -/
theorem ackEnd_reads {y t : State} {reply : List Byte} {r : List Input} (hw : y.buf.wf = true) (h : t = y.ackEnd reply r) :
    BufReads y t (min 9 reply.length) (fun o => reply.getD o 0) ∧
      (if 9 ≤ reply.length ∧ reply.getD 1 0 = (ackExpect y.act).e1 ∧ reply.getD 2 0 = (ackExpect y.act).e2 ∧
          reply.getD 8 0 = (ackExpect y.act).e8 then
        t = State.done { y with inputs := r, rxq := reply.drop 9, buf := t.buf } 0
      else t = State.fail { y with inputs := r, rxq := reply.drop 9, buf := t.buf } .cmdNotConfirmed) := by
  have hbuf : t.buf = y.buf.writeList 0 (reply.take 9) := by rw [h, State.ackEnd]; split <;> rfl
  have hread : ∀ a, t.buf.read a = if a < min 9 reply.length then reply.getD a 0 else y.buf.read a := by
    intro a
    rw [hbuf, Memory.read_writeList _ _ _ hw, List.length_take]
    by_cases ha : a < min 9 reply.length
    · rw [if_pos ha, if_pos (by omega), Nat.sub_zero, List.getD_eq_getElem?_getD, List.getD_eq_getElem?_getD,
        List.getElem?_take_of_lt (by omega)]
    · rw [if_neg ha, if_neg (by omega)]
  refine ⟨⟨hbuf ▸ Memory.wf_writeList _ _ hw, hread⟩, ?_⟩
  have htest : (params.ackLen ≤ reply.length ∧ ackOk (ackExpect y.act) (y.acknowledged reply r).buf = true) ↔
      (9 ≤ reply.length ∧ reply.getD 1 0 = (ackExpect y.act).e1 ∧ reply.getD 2 0 = (ackExpect y.act).e2 ∧
          reply.getD 8 0 = (ackExpect y.act).e8) := by
    refine and_congr_right fun hl => ?_
    have hl : 9 ≤ reply.length := hl
    change ackOk _ (y.buf.writeList 0 (reply.take 9)) = true ↔ _
    rw [← hbuf, ackOk, hread, hread, hread, if_pos (by omega), if_pos (by omega), if_pos (by omega)]
    simp only [Bool.and_eq_true, beq_iff_eq, and_assoc]
  have hack : { y with inputs := r, rxq := reply.drop 9, buf := t.buf } = y.acknowledged reply r := by rw [hbuf]; rfl
  rw [hack]
  by_cases hc : params.ackLen ≤ reply.length ∧ ackOk (ackExpect y.act) (y.acknowledged reply r).buf = true
  · rw [if_pos (htest.1 hc), h, State.ackEnd, if_pos hc]
  · rw [if_neg (mt htest.2 hc), h, State.ackEnd, if_neg hc]

/-! ## Any environment (R130 to R134) -/

/-- A run of ACKREAD from its start to the end of the operation. -/
theorem runUntil_ackEnd {y t : State} {n : Nat} (hp : y.phase = .ackwait) (hq : y.txq = []) (hc : y.ackCount = 0)
    (h : runUntil State.isIdle n y = .next t) (ht : t.phase = .idle) :
    ∃ x, Turns .ackwait y.inputs x t.inputs ∧ t = y.ackEnd (y.rxq ++ x) t.inputs := by
  have hto : AckTo y t := runUntil_keeps h (.reading [] [] (AckAt.start hp hq hc)) fun u v hu hi hv =>
    tick_ackTo hu (isIdle_false hi) hv
  exact hto.ended ht

/-- Where SENDCMD leads SLEEP and WAKEUP (R81). -/
theorem afterSend_power {w : State} (hp : w.phase = .cmdtx) (ha : w.act = .sleep ∨ w.act = .wakeup) :
    afterSend w = { w with phase := .ackwait, point := .start, ackCount := 0 } := by
  rcases ha with ha | ha <;> simp [afterSend, hp, ha]

/-- SLEEP or WAKEUP, once over, has passed through SENDCMD's return, `u`, and read what was in RXQ then and arrived after. -/
theorem beginSend_acknowledged {a : Activity} {c : CommandBytes} {s t : State} (ha : a = .sleep ∨ a = .wakeup)
    (h : runToIdle (s.beginSend a c) = .next t) (ht : t.phase = .idle) :
    ∃ u x, runUntil State.notSending (budget (s.beginSend a c)) (s.beginSend a c) = .next u ∧ u.phase = .ackwait ∧
      u.act = a ∧ u.buf = s.buf ∧ Brought u.inputs x t.inputs ∧ t = u.ackEnd (u.rxq ++ x) t.inputs := by
  have hph : (s.beginSend a c).phase = .cmdtx := by rcases ha with rfl | rfl <;> rfl
  have hover : t.isIdle = true := by simp [State.isIdle, ht]
  have hfirst : ∀ u : State, u.isIdle = true → u.notSending = true := fun u hu => by
    simp [State.notSending, isIdle_true hu]
  obtain ⟨k, u, hk, hu, hout, hrest⟩ := runUntil_split h hover hfirst
  have hbuf := (runUntil_sendTo (.inl hph) rfl hu).undisturbed.buf
  cases runUntil_sendTo (.inl hph) rfl hu with
  | inside b d hin =>
    rw [State.notSending_eq_false.2 hin.inside] at hout
    cases hout
  | returned w b d hw hat _ hq =>
    obtain ⟨hwp, hwa, -⟩ := hat.same
    have hw' := hw.trans (afterSend_power (hwp.trans hph) (by rw [hwa]; exact ha))
    have hup : u.phase = .ackwait := by rw [hw']
    obtain ⟨x, hx, hend⟩ := runUntil_ackEnd hup (by rw [hw']; exact hq) (by rw [hw']) hrest ht
    exact ⟨u, x, runUntil_mono hu hout hk, hup, by rw [hw']; exact hwa, hbuf, hx.brought, hend⟩

/-- Settles O39: the run of the operation is that of the command's row up to SENDCMD's return, and then ACKREAD's. -/
theorem acknowledgmentsAreReadInAnyPieces : Obligations.AcknowledgmentsAreReadInAnyPieces := by
  intro i k a e s t hi hw h ht
  have run : ∃ c, (a = .sleep ∨ a = .wakeup) ∧ runToIdle (s.beginSend a c) = .next t ∧
      exec k (s.serving a) = runUntil State.notSending (budget (s.beginSend a c)) (s.beginSend a c) ∧
      e = ((ackExpect a).e1, (ackExpect a).e2, (ackExpect a).e8) := by
    rcases hi with ⟨rfl, rfl, rfl, rfl⟩ | ⟨rfl, rfl, rfl, rfl⟩
    · exact ⟨params.cmdSleep, .inl rfl, exec_sleep (idle_of_exec rfl h) ▸ h, rfl, rfl⟩
    · exact ⟨params.cmdWake, .inr rfl, exec_wakeup (idle_of_exec rfl h) ▸ h, rfl, rfl⟩
  obtain ⟨c, ha, hrun, hrow, rfl⟩ := run
  obtain ⟨u, x, hu, hup, hact, hbuf, hx, hend⟩ := beginSend_acknowledged ha hrun ht
  obtain ⟨hreads, hresult⟩ := ackEnd_reads (hbuf ▸ hw) hend
  rw [BufReads, hbuf] at hreads
  rw [hact] at hresult
  exact ⟨u, _, x, _, hrow.trans hu, hup, hx, rfl, hreads, rfl, hresult⟩

/-! ## An acknowledgment in one burst -/

/-- The first round of ACKREAD's loop where the timeline waits for it with one burst: the burst arrives, then what `r` brings. -/
theorem rxReadRound_burst {y : State} {bs : List Byte} {r : List Input} (hp : y.phase = .ackwait) (hq : y.txq = [])
    (hi : y.inputs = .waitFor .ackwait :: .rx bs :: r) :
    ∃ a r' z, z = { y with rxq := y.rxq ++ bs ++ a, inputs := r' } ∧ Turns .ackwait r a r' ∧
      ((z.rxq = [] ∧ (rxReadRound y = (.timedOut, z) ∨ rxReadRound y = (.waiting, z))) ∨
        ∃ b q, z.rxq = b :: q ∧ rxReadRound y = (.byte b, z.withRxq q)) := by
  have hmoves : envMoves true y.inputs y = envMoves true r (y.arrive bs) := by
    rw [hi]; simp [envMoves, hp]
  obtain ⟨a, k, r', he, -, hturns, htime⟩ := envMoves_effect true r (y.arrive bs)
  obtain ⟨z, hz⟩ : ∃ z : State, z = { y with rxq := y.rxq ++ bs ++ a, inputs := r' } := ⟨_, rfl⟩
  have hmoved : (envMoves true y.inputs y).2 = z := by
    rw [hmoves, he, hz]
    simp [State.moved, State.arrive, hq]
  have hempty : (envMoves true y.inputs y).1 = true → z.rxq = [] := fun h => by
    rw [hmoves] at h
    rw [hz]
    exact htime h
  refine ⟨a, r', z, hz, hp ▸ hturns, ?_⟩
  simp only [rxReadRound, hmoved]
  split
  · exact .inl ⟨hempty ‹_›, .inl rfl⟩
  · split
    · exact .inr ⟨_, _, ‹_›, rfl⟩
    · refine .inl ⟨‹_›, ?_⟩
      split
      · exact .inl rfl
      · exact .inr rfl

/-- ACKREAD's first tick where the timeline waits for it with one burst leads where ACKREAD could be with the burst in RXQ. -/
theorem tick_ack_burst {y t : State} {bs : List Byte} {r : List Input} (hp : y.phase = .ackwait) (hq : y.txq = [])
    (hc : y.ackCount = 0) (hi : y.inputs = .waitFor .ackwait :: .rx bs :: r) (ht : tick y = .next t) :
    AckTo { y with rxq := y.rxq ++ bs, inputs := r } t := by
  obtain ⟨a, r', z, hz, hturns, h⟩ := rxReadRound_burst hp hq hi
  have hrx : z.rxq = y.rxq ++ bs ++ a := by rw [hz]
  simp only [tick, hp, ackwaitTick, hc, if_neg (show ¬ params.ackLen ≤ 0 by decide)] at ht
  rcases h with ⟨hx, h | h⟩ | ⟨b, q, hx, h⟩ <;> rw [h] at ht <;> injection ht with ht <;> rw [hrx] at hx
  · refine .finished a r' hturns ?_
    rw [← ht, hz]
    simp only [hx]
    rw [← ackEnd_timedOut 0 (by decide)]
    rfl
  · refine .reading a [] ⟨?_, hp, hq, ?_, hrx.symm.trans ?_, Nat.zero_le _⟩
    · rw [← ht, hz]
      cases y
      simp only at hc
      subst hc
      rfl
    · rw [← ht, hz]
      exact hturns
    · rw [ht]; rfl
  · refine .reading a [b] ⟨?_, hp, hq, ?_, ?_, show 1 ≤ 9 by decide⟩
    · rw [← ht, hz]
      simp [State.withRxq, Memory.writeList, hc]
    · rw [← ht, hz]
      exact hturns
    · rw [← ht]
      exact hx

/-- ACKREAD, entered at `y` with one burst waiting for it, after which `y'` goes on: not yet begun, or begun; what is still to
come ends, and a lasting Timeout happens. -/
structure AckBurst (y y' u : State) : Prop where
  place : u = y ∨ AckTo y' u
  finite : finiteInputs u.inputs = true
  timesOut : u.line.timesOut = true

/-- A tick of ACKREAD with one burst waiting for it never faults and uses something up. -/
theorem tick_ackBurst {y u : State} {bs : List Byte} {r : List Input} (hp : y.phase = .ackwait) (hq : y.txq = [])
    (hc : y.ackCount = 0) (hi : y.inputs = .waitFor .ackwait :: .rx bs :: r)
    (hu : AckBurst y { y with rxq := y.rxq ++ bs, inputs := r } u) (gu : u.phase ≠ .idle) :
    ∃ v, tick u = .next v ∧ AckBurst y { y with rxq := y.rxq ++ bs, inputs := r } v ∧
      v.work + v.rank < u.work + u.rank := by
  obtain ⟨hu, hf, ht⟩ := hu
  have hph : u.phase = .ackwait ∨ u.phase = .ackchk := by
    rcases hu with rfl | hu
    · exact .inl hp
    · rcases hu.phase with h | h | h
      · exact .inl h
      · exact .inr h
      · exact absurd h gu
  have hn : ¬ u.Sending := by rcases hph with h | h <;> simp [State.Sending, h]
  obtain ⟨v, hv⟩ := tick_ack_next hph
  obtain ⟨hl, hf', hw⟩ := tick_uses hf (fun h => absurd h hn) (fun _ _ _ => ht) gu hv
  refine ⟨v, hv, ⟨.inr ?_, hf', by rw [hl]; exact ht⟩, hw⟩
  rcases hu with rfl | hu
  · exact tick_ack_burst hp hq hc hi hv
  · exact tick_ackTo hu gu hv

/-- ACKREAD where the timeline waits for it with one burst, and nothing else is to arrive: the operation ends with the burst
as the reply. -/
theorem ackBurst_ends {y : State} {bs : List Byte} {r : List Input} (hp : y.phase = .ackwait) (hq : y.txq = [])
    (hc : y.ackCount = 0) (hi : y.inputs = .waitFor .ackwait :: .rx bs :: r) (hr : quietInputs r = true)
    (ht : y.line.timesOut = true) {n : Nat} (hn : y.work + y.rank ≤ n) :
    ∃ t, runUntil State.isIdle n y = .next t ∧ Brought r [] t.inputs ∧
      t = State.ackEnd { y with rxq := y.rxq ++ bs, inputs := r } (y.rxq ++ bs) t.inputs := by
  have hfin : finiteInputs y.inputs = true := by
    rw [hi]
    exact Bool.or_eq_true_iff.2 (.inr (show finiteInputs r = true from finiteInputs_of_quiet hr))
  have start : AckBurst y { y with rxq := y.rxq ++ bs, inputs := r } y := ⟨.inl rfl, hfin, ht⟩
  obtain ⟨k, t, pt, gt, hk, hrun⟩ := runUntil_reaches (G := fun u => u.phase = .idle) start
    fun u => tick_ackBurst hp hq hc hi
  obtain ⟨x, hx, hend⟩ := (pt.place.resolve_left fun e => by rw [e, hp] at gt; cases gt).ended gt
  obtain ⟨rfl, -⟩ := hx.quiet (by simp) hr
  rw [List.append_nil] at hend
  obtain ⟨d, rfl⟩ := Nat.exists_eq_add_of_le (show k ≤ n by omega)
  refine ⟨t, ?_, hx.brought, hend⟩
  rw [hrun _ fun u _ hu => by simpa [State.isIdle] using hu]
  exact runUntil_stop d (by simpa [State.isIdle] using gt)

/-- SENDCMD of SLEEP or WAKEUP with nothing arriving, up to ACKREAD's start. -/
theorem beginSend_reaches_ackwait {a : Activity} {c : CommandBytes} {s : State} {r : List Input}
    (ha : a = .sleep ∨ a = .wakeup) (hi : s.inputs = .waitFor .ackwait :: r) (hx : s.line.txProgress = true) :
    Reaches State.isIdle (s.txq.length + s.rxq.length + 14) (s.beginSend a c)
      { (s.beginSend a c).commanded with phase := .ackwait, point := .start, ackCount := 0 } := by
  have hph : (s.beginSend a c).phase = .cmdtx := by rcases ha with rfl | rfl <;> rfl
  have hsend := send_still (stop := State.isIdle) (s := s.beginSend a c) (.inl hph) rfl
    (State.still_of_waitFor hi (by rw [hph]; decide)) hx
    fun u hu => by rcases hu with hu | hu <;> simp [State.isIdle, hu]
  rwa [afterSend_power (by exact hph) ha] at hsend

/-- SLEEP or WAKEUP with its acknowledgment in one burst in ACKWAIT and nothing else arriving; `f` is the command's frame and
`e` the three bytes that confirm it. -/
theorem beginSend_ackBurst {a : Activity} {c : CommandBytes} {f : List Byte} {e : AckExpect} {s : State} {reply : List Byte}
    {r : List Input} (ha : a = .sleep ∨ a = .wakeup) (hf : commandFrame c.c1 c.c2 = f) (he : ackExpect a = e)
    (hi : s.inputs = .waitFor .ackwait :: .rx reply :: r) (hr : quietInputs r = true) (hx : s.line.txProgress = true)
    (ht : s.line.timesOut = true) (hw : s.buf.wf = true) :
    ∃ t u, runToIdle (s.beginSend a c) = .next t ∧ Brought r [] t.inputs ∧
      BufReads s t (min 9 reply.length) (fun o => reply.getD o 0) ∧
      u = { s with
        inputs := t.inputs, rxq := reply.drop 9, txq := [], buf := t.buf, flushCount := s.rxq.length
        txlog := s.txlog ++ s.txq ++ f } ∧
      (if 9 ≤ reply.length ∧ reply.getD 1 0 = e.e1 ∧ reply.getD 2 0 = e.e2 ∧ reply.getD 8 0 = e.e8 then t = u.done 0
      else t = u.fail .cmdNotConfirmed) := by
  subst hf he
  obtain ⟨y, hy⟩ : ∃ y : State,
      y = { (s.beginSend a c).commanded with phase := .ackwait, point := .start, ackCount := 0 } := ⟨_, rfl⟩
  have hsend := beginSend_reaches_ackwait (c := c) ha hi hx
  rw [← hy] at hsend
  have hyq : y.phase = .ackwait ∧ y.rxq = [] ∧ y.txq = [] ∧ y.ackCount = 0 ∧ y.inputs = s.inputs ∧ y.line = s.line := by
    rw [hy]; exact ⟨rfl, rfl, rfl, rfl, rfl, rfl⟩
  obtain ⟨hyp, hyr, hyt, hyc, hyi, hyl⟩ := hyq
  have hwork : s.txq.length + s.rxq.length + 14 + (y.work + y.rank) ≤ budget (s.beginSend a c) := by
    have := y.rank_le
    simp only [State.work, hyr, hyt, hyi, List.length_nil, budget, State.beginSend_inputs, State.beginSend_rxq,
      State.beginSend_txq]
    omega
  obtain ⟨d, hd⟩ := Nat.exists_eq_add_of_le (show s.txq.length + s.rxq.length + 14 ≤ budget (s.beginSend a c) by omega)
  obtain ⟨t, hrun, hbr, hend⟩ := ackBurst_ends hyp hyt hyc (hyi.trans hi) hr (by rw [hyl]; exact ht)
    (show y.work + y.rank ≤ d by omega)
  rw [hyr, List.nil_append] at hend
  obtain ⟨hreads, hresult⟩ := ackEnd_reads (by rw [hy]; exact hw) hend
  rw [hy] at hreads hresult
  exact ⟨t, _, by rw [runToIdle, hd, hsend d, hrun], hbr, hreads, rfl, hresult⟩

/-- Settles O37: SENDCMD with nothing arriving, then ACKREAD with the burst as its reply. -/
theorem sleepReadsTheAcknowledgment : Obligations.SleepReadsTheAcknowledgment := by
  intro s reply r hp hi hr hx ht hw
  have hf : commandFrame params.cmdSleep.c1 params.cmdSleep.c2 =
      [0xFF, 0x01, 0xA7, 0x01, 0x00, 0x00, 0x00, 0x00, 0x57] := by decide
  obtain ⟨t, u, hrun, hrest⟩ := beginSend_ackBurst (.inl rfl) hf rfl hi hr hx ht hw
  exact ⟨t, u, (exec_sleep hp).trans hrun, hrest⟩

/-- Settles O38, as SLEEP with the command and the three bytes of WAKEUP. -/
theorem wakeupReadsTheAcknowledgment : Obligations.WakeupReadsTheAcknowledgment := by
  intro s reply r hp hi hr hx ht hw
  have hf : commandFrame params.cmdWake.c1 params.cmdWake.c2 =
      [0xFF, 0x01, 0xA7, 0x00, 0x00, 0x00, 0x00, 0x00, 0x58] := by decide
  obtain ⟨t, u, hrun, hrest⟩ := beginSend_ackBurst (.inr rfl) hf rfl hi hr hx ht hw
  exact ⟨t, u, (exec_wakeup hp).trans hrun, hrest⟩

end Sys2Proof.Machine
end

section
/-! What SWAP makes of a captured frame, and CHECK's two tests in terms of the frame (spec/42_parse.md rules R100 and R102,
spec/43_checksum.md rules R112, R114 and R115). -/

namespace Sys2Proof.Machine

/-! ## SWAP -/

theorem afterSwap_push (w : List Byte) (a : Nat) : afterSwap .push w a =
    if 2 ≤ a ∧ a < w.length then w.getD (if a % 2 = 0 then a + 1 else a - 1) 0 else w.getD a 0 := rfl

theorem afterSwap_query (w : List Byte) (a : Nat) : afterSwap .query w a =
    if 2 ≤ a ∧ a < 8 then w.getD (if a % 2 = 0 then a + 1 else a - 1) 0 else w.getD a 0 := rfl

/-- How long a frame is that SWAP can exchange: an even number of bytes in PushMode, nine in QueryMode (R13). -/
def FrameLength (m : Mode) (n : Nat) : Prop :=
  match m with
  | .push => n % 2 = 0 ∧ 16 ≤ n
  | .query => n = 9

theorem State.Geometry.frameLength {s : State} (h : s.Geometry) : FrameLength s.mode s.fs.toNat := by
  rw [h]
  cases s.mode <;> cases s.variant <;> simp [FrameLength, frameSize, pushLen, params]

/-- BUF after SWAP of a captured frame, byte by byte (R100). -/
theorem read_swapBuf_frame {m : Mode} {w : List Byte} {b : Memory} (hn : FrameLength m w.length) (hb : b.wf = true)
    (hr : ∀ a, a < w.length → b.read a = w.getD a 0) {a : Nat} (ha : a < w.length) :
    (swapBuf m w.length b).read a = afterSwap m w a := by
  cases m with
  | push =>
    obtain ⟨heven, h16⟩ : w.length % 2 = 0 ∧ 16 ≤ w.length := hn
    rw [read_swap_push a hb heven (by omega), afterSwap_push]
    split
    · exact hr _ (by split <;> omega)
    · exact hr a ha
  | query =>
    have h9 : w.length = 9 := hn
    rw [read_swap_query _ a hb, afterSwap_query]
    split
    · exact hr _ (by split <;> omega)
    · exact hr a ha

/-- The little-endian view of a field after SWAP is the field as captured (R102). -/
theorem read16_afterSwap {m : Mode} {w : List Byte} {b : Memory} (hr : ∀ a, a < w.length → b.read a = afterSwap m w a)
    {o : Nat} (h2 : 2 ≤ o) (ho : o % 2 = 0) (hw : o + 1 < w.length) (hm : m = .query → o + 1 < 8) :
    b.read16 o = fieldAt w o := by
  have hlo : afterSwap m w o = w.getD (o + 1) 0 := by
    cases m with
    | push => rw [afterSwap_push, if_pos (by omega), if_pos ho]
    | query =>
      have := hm rfl
      rw [afterSwap_query, if_pos (by omega), if_pos ho]
  have hhi : afterSwap m w (o + 1) = w.getD o 0 := by
    cases m with
    | push => rw [afterSwap_push, if_pos (by omega), if_neg (by omega)]; rfl
    | query =>
      have := hm rfl
      rw [afterSwap_query, if_pos (by omega), if_neg (by omega)]; rfl
  rw [Memory.read16, hr o (by omega), hr (o + 1) hw, hlo, hhi, le16_eq_be16]
  rfl

/-! ## The two tests -/

/-- The sum of the first bytes of a frame, by their offsets. -/
theorem sum_take (w : List Byte) {n : Nat} (hn : n ≤ w.length) :
    ((w.take n).map BitVec.toNat).sum = ((List.range n).map fun i => (w.getD i 0).toNat).sum := by
  congr 1
  refine List.ext_getElem (by simp [hn]) fun i h1 h2 => ?_
  have hi : i < w.length := by simp at h1; omega
  simp [hi]

/-- SWAP does not change the sum of the bytes in front of a push frame's checksum field (R115). -/
theorem sum_afterSwap_push {w : List Byte} (hn : FrameLength .push w.length) :
    ((List.range (w.length - 2)).map fun i => (afterSwap .push w i).toNat).sum =
      ((List.range (w.length - 2)).map fun i => (w.getD i 0).toNat).sum := by
  obtain ⟨heven, h16⟩ : w.length % 2 = 0 ∧ 16 ≤ w.length := hn
  obtain ⟨k, hk⟩ : ∃ k, w.length - 2 = 2 + 2 * k := ⟨(w.length - 4) / 2, by omega⟩
  have hfirst : ∀ i ∈ List.range 2, (afterSwap .push w i).toNat = (w.getD i 0).toNat := fun i hi => by
    rw [afterSwap_push, if_neg (by have := List.mem_range.1 hi; omega)]
  have hrest : ∀ i ∈ List.range (2 * k), (afterSwap .push w (2 + i)).toNat =
      (w.getD (2 + if i % 2 = 0 then i + 1 else i - 1) 0).toNat := fun i hi => by
    have hlt := List.mem_range.1 hi
    rw [afterSwap_push, if_pos (by omega)]
    congr 2
    split <;> split <;> omega
  rw [hk, List.range_add]
  simp only [List.map_append, List.map_map, List.sum_append, Function.comp_def]
  rw [List.map_congr_left hfirst, List.map_congr_left hrest, sum_pairs fun j => (w.getD (2 + j) 0).toNat]

/-- CHECK's test in PushMode, in terms of the frame as captured (R112). -/
theorem pushValid_of_checksumOk {w : List Byte} {b : Memory} (hn : FrameLength .push w.length)
    (hr : ∀ a, a < w.length → b.read a = afterSwap .push w a) (hc : checksumOk .push w.length b = true) :
    pushValid w = true := by
  obtain ⟨heven, h16⟩ : w.length % 2 = 0 ∧ 16 ≤ w.length := hn
  have hfield : b.read16 (w.length - 2) = fieldAt w (w.length - 2) :=
    read16_afterSwap hr (by omega) (by omega) (by omega) nofun
  have hsum : (ck16 b w.length).toNat = ((w.take (w.length - 2)).map BitVec.toNat).sum % 65536 := by
    rw [ck16_toNat, sum_take w (Nat.sub_le _ _), ← sum_afterSwap_push ⟨heven, h16⟩,
      List.map_congr_left fun i hi => by rw [hr i (by have := List.mem_range.1 hi; omega)]]
  rw [checksumOk, beq_iff_eq, hfield] at hc
  rw [pushValid, beq_iff_eq, ← hsum, hc, fieldAt, be16_toNat, show w.length - 2 + 1 = w.length - 1 by omega]

/-- CHECK's test in QueryMode, in terms of the frame as captured (R114). -/
theorem queryValid_of_checksumOk {w : List Byte} {b : Memory} (hn : w.length = 9)
    (hr : ∀ a, a < w.length → b.read a = afterSwap .query w a) (hc : checksumOk .query w.length b = true) :
    queryValid w = true := by
  have hck := congrArg BitVec.toNat (beq_iff_eq.1 hc)
  rw [hn, ck8_toNat, hr 8 (by omega),
    List.map_congr_left fun i hi => by rw [hr (i + 1) (by have := List.mem_range.1 hi; omega)]] at hck
  rw [queryValid, beq_iff_eq]
  match w, hn with
  | [b0, b1, b2, b3, b4, b5, b6, b7, b8], _ =>
    simp [List.range_succ, afterSwap_query] at hck ⊢
    omega

end Sys2Proof.Machine
end

section
/-! READDATA from SYNC to its end, whatever the environment does: which run of the bytes received an accepted measurement comes
from (spec/41_readdata_sync.md rules R83 to R87, spec/44_commit_access.md rules R120, R121 and R125). -/

namespace Sys2Proof.Machine

/-- From `q` and the timeline `l` on, bytes arrived, and the captured frame `w` followed by RXQ is the end of `q` and them. -/
def Framed (q : List Byte) (l : List Input) (w : List Byte) (u : State) : Prop :=
  w.length = u.fs.toNat ∧ ∃ a, Brought l a u.inputs ∧ w ++ u.rxq <:+ q ++ a

theorem Framed.length {q : List Byte} {l : List Input} {w : List Byte} {u : State} (h : Framed q l w u) :
    w.length = u.fs.toNat := h.1

/-- What an accepted measurement says of its frame: the checksum of the mode, and the field router's three fields (R112, R114,
R121). -/
def Measures (m : Mode) (w : List Byte) (u : State) : Prop :=
  match m with
  | .push => pushValid w = true ∧ u.pm1_0 = fieldAt w 10 ∧ u.pm2_5 = fieldAt w 12 ∧ u.pm10 = fieldAt w 14
  | .query => queryValid w = true ∧ u.pm1_0 = fieldAt w 6 ∧ u.pm2_5 = fieldAt w 2 ∧ u.pm10 = fieldAt w 4

/-- Where READDATA has come to from `q` and the timeline `l` on, once it sends nothing any more. -/
inductive ReadAt (q : List Byte) (l : List Input) (u : State) : Prop where
  | seeking (hp : u.phase = .qwait ∨ u.phase = .sync ∨ u.phase = .lenchk ∨ u.phase = .capture) (hr : Received q l u)
  | captured (w : List Byte) (hp : u.phase = .swap) (hf : Framed q l w u)
      (hb : ∀ a, a < w.length → u.buf.read a = w.getD a 0)
  | swapped (w : List Byte) (hp : u.phase = .check) (hf : Framed q l w u)
      (hb : ∀ a, a < w.length → u.buf.read a = afterSwap u.mode w a)
  | checked (w : List Byte) (hp : u.phase = .commit) (hf : Framed q l w u)
      (hb : ∀ a, a < w.length → u.buf.read a = afterSwap u.mode w a) (hc : checksumOk u.mode w.length u.buf = true)
  | accepted (w : List Byte) (hp : u.phase = .idle) (hf : Framed q l w u) (hm : Measures u.mode w u)
      (hl : u.lmWritten = true)
  | failed (hp : u.phase = .idle) (hs : u.status = false)

/-- CAPTURE takes the frame from the front of what was received (R85). -/
theorem tick_seeking {q : List Byte} {l : List Input} {u t : State} (hw : u.buf.wf = true)
    (hp : u.phase = .qwait ∨ u.phase = .sync ∨ u.phase = .lenchk ∨ u.phase = .capture) (hr : Received q l u)
    (h : tick u = .next t) : ReadAt q l t := by
  have hr' := tick_received hr h
  have hn : ¬ u.Sending := by rcases hp with hp | hp | hp | hp <;> simp [State.Sending, hp]
  cases tick_cases h with
  | queryWaited => exact .seeking (.inr (.inl rfl)) hr'
  | syncExhausted => exact .seeking (.inr (.inr (.inl rfl))) hr'
  | syncFound => exact .seeking (.inr (.inr (.inl rfl))) hr'
  | syncDiscarded => exact .seeking hp hr'
  | tooShort => exact .failed rfl rfl
  | longEnough => exact .seeking (.inr (.inr (.inr rfl))) hr'
  | captured a k r _ _ ha _ hx ht =>
    subst ht
    obtain ⟨b, hb, hsuf⟩ := hr
    have hlen : ((u.rxq ++ a).take u.fs.toNat).length = u.fs.toNat := List.length_take_of_le hx
    refine .captured _ rfl ⟨hlen, b ++ a, hb.trans ha.2.brought, ?_⟩ fun o ho => ?_
    · change (u.rxq ++ a).take u.fs.toNat ++ (u.rxq ++ a).drop u.fs.toNat <:+ _
      rw [List.take_append_drop]
      obtain ⟨d, hd⟩ := hsuf
      exact ⟨d, by rw [← List.append_assoc, ← List.append_assoc, hd]⟩
    · change (u.buf.writeList 0 _).read o = _
      rw [Memory.read_writeList _ _ _ hw, if_pos ⟨Nat.zero_le o, by omega⟩, Nat.sub_zero]
  | _ => simp_all [State.Sending]

/-- A frame that passes CHECK is measured by COMMIT (R120, R121). -/
theorem measures_of_checked {w : List Byte} {u t : State} (hn : FrameLength u.mode w.length)
    (hb : ∀ a, a < w.length → u.buf.read a = afterSwap u.mode w a) (hc : checksumOk u.mode w.length u.buf = true)
    (h1 : t.pm1_0 = u.buf.read16 (route u.mode).pm1_0) (h2 : t.pm2_5 = u.buf.read16 (route u.mode).pm2_5)
    (h3 : t.pm10 = u.buf.read16 (route u.mode).pm10) : Measures u.mode w t := by
  have field : ∀ o, 2 ≤ o → o % 2 = 0 → o + 1 < w.length → (u.mode = .query → o + 1 < 8) →
      u.buf.read16 o = fieldAt w o := fun o => read16_afterSwap hb
  cases hm : u.mode with
  | push =>
    rw [hm] at hn hb hc h1 h2 h3 field
    have h16 : 16 ≤ w.length := hn.2
    exact ⟨pushValid_of_checksumOk hn hb hc, h1.trans (field 10 (by decide) rfl (by omega) nofun),
      h2.trans (field 12 (by decide) rfl (by omega) nofun), h3.trans (field 14 (by decide) rfl (by omega) nofun)⟩
  | query =>
    rw [hm] at hn hb hc h1 h2 h3 field
    have h9 : w.length = 9 := hn
    exact ⟨queryValid_of_checksumOk hn hb hc, h1.trans (field 6 (by decide) rfl (by omega) fun _ => by decide),
      h2.trans (field 2 (by decide) rfl (by omega) fun _ => by decide),
      h3.trans (field 4 (by decide) rfl (by omega) fun _ => by decide)⟩

/-- One tick of READDATA from SYNC on. -/
theorem tick_readAt {q : List Byte} {l : List Input} {u t : State} (hg : u.Geometry) (hw : u.buf.wf = true)
    (hu : ReadAt q l u) (hi : u.phase ≠ .idle) (h : tick u = .next t) : ReadAt q l t := by
  cases hu with
  | seeking hp hr => exact tick_seeking hw hp hr h
  | captured w hp hf hb =>
    cases tick_cases h with
    | swapped =>
      refine .swapped w rfl hf fun a ha => ?_
      have hn : FrameLength u.mode w.length := hf.length ▸ hg.frameLength
      change (swapBuf u.mode u.fs.toNat u.buf).read a = _
      rw [← hf.length, read_swapBuf_frame hn hw hb ha]
    | _ => simp_all [State.Sending]
  | swapped w hp hf hb =>
    cases tick_cases h with
    | checkPassed _ hc => exact .checked w rfl hf hb (hf.length ▸ hc)
    | checkFailed => exact .failed rfl rfl
    | _ => simp_all [State.Sending]
  | checked w hp hf hb hc =>
    cases tick_cases h with
    | committed _ _ ht =>
      subst ht
      exact .accepted w rfl hf (measures_of_checked (hf.length ▸ hg.frameLength) hb hc rfl rfl rfl) rfl
    | _ => simp_all [State.Sending]
  | accepted w hp => exact absurd hp hi
  | failed hp => exact absurd hp hi

/-- Once RXFLUSH is over, RXQ holds only bytes that arrived since SENDCMD's start (R44, R142). -/
theorem SendAt.rxq_arrived {s u : State} {a d : List Byte} (h : SendAt s u a d)
    (hp : u.point = .write ∨ u.point = .flushAfter) : u.rxq <:+ a := by
  have hall : u.rxq <:+ s.rxq ++ a := h.received ▸ List.suffix_append d u.rxq
  refine List.suffix_of_suffix_length_le hall (List.suffix_append s.rxq a) ?_
  have hlen := congrArg List.length h.received
  have hempty := h.emptied hp
  simp only [List.length_append] at hlen
  omega

/-- READDATA started at `s`: in the query request's SENDCMD, or past it. In QueryMode what counts is what arrived after the
start, because SENDCMD's RXFLUSH empties RXQ (R44). -/
structure Reading (q : List Byte) (s u : State) : Prop where
  buffer : ReadBuffer s u
  place : (∃ a d, s.mode = .query ∧ SendAt (startRead s) u a d) ∨ ReadAt q s.inputs u

theorem tick_reading {q : List Byte} {s u t : State} (hq : s.mode = .query → q = []) (hu : Reading q s u)
    (hi : u.phase ≠ .idle) (h : tick u = .next t) : Reading q s t := by
  obtain ⟨hb, ⟨a, d, hm, hat⟩ | hat⟩ := hu
  · refine ⟨tick_readBuffer hb hi h, ?_⟩
    rcases tick_sendAt hat h with ⟨b, e, hat⟩ | ⟨w, b, rfl, hat, hp, -⟩
    · exact .inl ⟨b, e, hm, hat⟩
    · right
      have hph : (startRead s).phase = .qreq := by rw [startRead_query hm]; rfl
      obtain ⟨hwp, -⟩ := hat.same
      have hnext : (afterSend w).phase = .qwait := by simp [afterSend, hwp.trans hph]
      refine .seeking (.inl hnext) ⟨b, ?_, ?_⟩
      · rw [afterSend_inputs, ← (startRead_transport s).2.2.2]
        exact hat.turns.brought
      · rw [hq hm, List.nil_append, afterSend_rxq]
        exact hat.rxq_arrived (.inr hp)
  · exact ⟨tick_readBuffer hb hi h, .inr (tick_readAt hb.geometry hb.wf hat hi h)⟩

/-- What the stream starts with: in PushMode what RXQ held, in QueryMode nothing of it. -/
def streamStart (s : State) : List Byte :=
  match s.mode with
  | .push => s.rxq
  | .query => []

theorem startRead_reading {s : State} (hg : s.Geometry) (hw : s.buf.wf = true) :
    Reading (streamStart s) s (startRead s) := by
  obtain ⟨-, hf, -, -, hb⟩ := startRead_same s
  obtain ⟨hr, -, -, hl⟩ := startRead_transport s
  refine ⟨⟨?_, startRead_geometry hg, hf, hb ▸ hw, fun a _ => by rw [hb], fun _ => hb⟩, ?_⟩
  · unfold startRead
    split <;> exact .inl rfl
  · cases hm : s.mode with
    | push =>
      have hp : (startRead s).phase = .sync := by simp [startRead, hm]
      refine .inr (.seeking (.inr (.inl hp)) ⟨[], hl ▸ Brought.refl _, ?_⟩)
      simp [streamStart, hm, hr]
    | query =>
      refine .inl ⟨[], [], rfl, SendAt.start ?_ ?_⟩ <;> rw [startRead_query hm]
      · exact .inr rfl
      · rfl

/-- Settles O32: `Reading` is kept by every tick, and an operation that is over with STATUS = 1 came from COMMIT. -/
theorem acceptedMeasurementIsOneValidFrame : Obligations.AcceptedMeasurementIsOneValidFrame := by
  intro s t hg hw h hp hst
  obtain ⟨hm, hf⟩ := exec_mode_fs (by simp [SwitchesTo]) h
  rw [exec_readdata (idle_of_exec rfl h)] at h
  have hread : Reading (streamStart s) s t :=
    runToIdle_keeps h (startRead_reading hg hw) fun u v hu hi hv =>
      tick_reading (fun hm => by rw [streamStart, hm]) hu hi hv
  rcases hread.place with ⟨a, d, -, hat⟩ | hat
  · rcases hat.inside with hin | hin <;> rw [hp] at hin <;> cases hin
  · cases hat with
    | accepted w _ hframe hmeas hl =>
      obtain ⟨hlen, a, hb, hsuf⟩ := hframe
      refine ⟨a, w, hb, hlen.trans (by rw [hf]), hl, ?_⟩
      rw [hm] at hmeas
      cases hmode : s.mode
      all_goals
        rw [hmode] at hmeas
        rw [streamStart, hmode] at hsuf
        exact ⟨hsuf, hmeas⟩
    | failed _ hs => rw [hst] at hs; cases hs
    | seeking hq => simp [hp] at hq
    | captured w hq => rw [hp] at hq; cases hq
    | swapped w hq => rw [hp] at hq; cases hq
    | checked w hq => rw [hp] at hq; cases hq

end Sys2Proof.Machine
end

section
/-! The encoder and the decoder against each other (spec/30_encoding.md rules R50 to R60 and R64): frame by frame, then for
every instruction in both directions. -/

namespace Sys2Proof

open Sys2Proof.Machine (params)

/-! ## What stands on the wire is read back -/

theorem decodePush_pushWire {n : Nat} {f : PushFrame} (hl : f.lead.length = 3) (ht : f.trail.length = n) :
    decodePush n (pushWire f) = .ok f := by
  have hbody : pushWire f = params.markerPush :: f.marker1 :: hiByte f.declLen :: loByte f.declLen ::
      (halvesWire f.lead ++ (halvesWire [f.pm1_0, f.pm2_5, f.pm10] ++
        (halvesWire f.trail ++ [hiByte f.checksum, loByte f.checksum]))) := by
    simp [pushWire, halvesWire, halvesWire_append]
  have hlead := takeHalves_halvesWire f.lead (halvesWire [f.pm1_0, f.pm2_5, f.pm10] ++
    (halvesWire f.trail ++ [hiByte f.checksum, loByte f.checksum]))
  have htrail := takeHalves_halvesWire f.trail [hiByte f.checksum, loByte f.checksum]
  rw [hl] at hlead
  rw [ht] at htrail
  rw [hbody, decodePush, hlead]
  simp [halvesWire, htrail]

theorem decodeQuery_queryWire (f : QueryFrame) : decodeQuery (queryWire f) = .ok f := by
  simp [decodeQuery, queryWire, halvesWire]

/-- Five bytes, each by name. -/
theorem AckFrame.fill_of_wf {a : AckFrame} (h : a.wf = true) : ∃ v w x y z, a.fill = [v, w, x, y, z] := by
  have h5 : a.fill.length = 5 := by simpa [AckFrame.wf] using h
  match hf : a.fill, h5 with
  | [v, w, x, y, z], _ => exact ⟨v, w, x, y, z, rfl⟩

theorem decodeAck_ackWire (e : AckExpect) {a : AckFrame} (h : a.wf = true) : decodeAck e (ackWire e a) = .ok a := by
  obtain ⟨v, w, x, y, z, hf⟩ := AckFrame.fill_of_wf h
  cases a
  cases hf
  simp [decodeAck, ackWire]

/-- Settles O1: a word or a command is one of finitely many, and each frame is read back by its own lemma. -/
theorem encodeDecodeRoundTrip : Obligations.EncodeDecodeRoundTrip := by
  intro i h
  cases i with
  | framePushA f =>
    obtain ⟨hl, ht⟩ : f.lead.length = 3 ∧ f.trail.length = 3 := by simpa [Instr.wf, PushFrame.wfA] using h
    exact congrArg (Except.map Instr.framePushA) (decodePush_pushWire hl ht)
  | framePushB f =>
    obtain ⟨hl, ht⟩ : f.lead.length = 3 ∧ f.trail.length = 7 := by simpa [Instr.wf, PushFrame.wfB] using h
    exact congrArg (Except.map Instr.framePushB) (decodePush_pushWire hl ht)
  | frameQuery f => exact congrArg (Except.map Instr.frameQuery) (decodeQuery_queryWire f)
  | ackSleep a => exact congrArg (Except.map Instr.ackSleep) (decodeAck_ackWire params.ackSleep h)
  | ackWake a => exact congrArg (Except.map Instr.ackWake) (decodeAck_ackWire params.ackWake h)
  | setmode m => cases m <;> rfl
  | _ => rfl

/-- Settles O3: the six words are the encodings of the six rows. -/
theorem writtenOutWordsDecode : Obligations.WrittenOutWordsDecode :=
  ⟨encodeDecodeRoundTrip .getmode rfl, encodeDecodeRoundTrip (.setmode .query) rfl, encodeDecodeRoundTrip .wakeup rfl,
    encodeDecodeRoundTrip .cmdSetQuery rfl,
    encodeDecodeRoundTrip (.frameQuery { marker1 := 0x86, pm2_5 := 35, pm10 := 40, pm1_0 := 12, checksum := 0x23 }) rfl,
    encodeDecodeRoundTrip (.ackSleep { marker0 := 0xFF, fill := [0, 0, 0, 0, 0] }) rfl⟩

/-! ## What is read stood on the wire -/

theorem lengths_of_decodePush {n : Nat} {bs : List Byte} {f : PushFrame} (h : decodePush n bs = .ok f) :
    f.lead.length = 3 ∧ f.trail.length = n := by
  unfold decodePush at h
  repeat' split at h
  all_goals cases h
  next hlead _ _ _ _ htrail => exact ⟨(halvesWire_of_takeHalves hlead).2, (halvesWire_of_takeHalves htrail).2⟩

theorem wf_of_decodeAck {e : AckExpect} {bs : List Byte} {a : AckFrame} (h : decodeAck e bs = .ok a) : a.wf = true := by
  unfold decodeAck at h
  repeat' split at h
  all_goals cases h
  rfl

/-- The two words of SETMODE: bit 4 is its operand, every other bit is fixed (R59, R60). -/
theorem setmode_word_iff : ∀ w : Byte, w &&& 0xEF = 0x01 ↔ w = 0x01 ∨ w = 0x11 := by decide

theorem decodeOpw_ok {w : Byte} {i : Instr} (h : decodeOpw w = .ok i) : i.wf = true ∧ encode i = [w] := by
  unfold decodeOpw at h
  split at h
  · next hw =>
    rcases (setmode_word_iff w).1 hw with rfl | rfl <;> cases h <;> exact ⟨rfl, rfl⟩
  · repeat' split at h
    all_goals cases h
    all_goals exact ⟨rfl, by simp only [encode, *]⟩

theorem decodeCommand_ok {bs : List Byte} {i : Instr} (h : decodeCommand bs = .ok i) : i.wf = true ∧ encode i = bs := by
  unfold decodeCommand at h
  split at h
  · cases h
  · repeat' split at h
    all_goals cases h
    all_goals exact ⟨rfl, Eq.symm ‹bs = _›⟩

theorem exists_of_map_ok {α : Type} {e : Except DecodeError α} {f : α → Instr} {i : Instr} (h : e.map f = .ok i) :
    ∃ a, e = .ok a ∧ f a = i := by
  cases e with
  | error _ => cases h
  | ok a => injection h with h; exact ⟨a, rfl, h⟩

theorem wf_of_decode_inbound {c : Context} {bs : List Byte} {i : Instr} (hc : c ≠ .hostOp ∧ c ≠ .outbound)
    (h : decode c bs = .ok i) : i.wf = true := by
  cases c with
  | hostOp => exact absurd rfl hc.1
  | outbound => exact absurd rfl hc.2
  | pushA =>
    obtain ⟨f, hf, rfl⟩ := exists_of_map_ok h
    simp [Instr.wf, PushFrame.wfA, lengths_of_decodePush hf]
  | pushB =>
    obtain ⟨f, hf, rfl⟩ := exists_of_map_ok h
    simp [Instr.wf, PushFrame.wfB, lengths_of_decodePush hf]
  | query =>
    obtain ⟨f, -, rfl⟩ := exists_of_map_ok h
    rfl
  | ackSleep =>
    obtain ⟨a, ha, rfl⟩ := exists_of_map_ok h
    exact wf_of_decodeAck ha
  | ackWake =>
    obtain ⟨a, ha, rfl⟩ := exists_of_map_ok h
    exact wf_of_decodeAck ha

/-- Settles O2: a word, a command, or an inbound frame. -/
theorem decodedBytesAreTheEncoding : Obligations.DecodedBytesAreTheEncoding := by
  intro c bs i h
  have hcontext : i.context = c := Machine.context_of_decode h
  have key : i.wf = true ∧ encode i = bs := by
    cases c with
    | hostOp =>
      simp only [decode] at h
      split at h
      · exact decodeOpw_ok h
      · cases h
    | outbound => exact decodeCommand_ok h
    | _ => exact ⟨wf_of_decode_inbound (by decide) h, Machine.encode_of_decode_inbound (by decide) h⟩
  exact ⟨key.1, hcontext, key.2⟩

end Sys2Proof
end

section
/-! Which operation words name an operation, and that a step runs what it fetched (spec/30_encoding.md rules R51, R59, R61 and
R63; log entries 5, 9, 10 and 11). -/

namespace Sys2Proof.Machine

/-- The words that name an operation (R60, R61): the eight numbers with bits 7 to 4 zero, and SETMODE with m = 1. -/
theorem decodeOpw_ok_iff (w : Byte) : (∃ i, decodeOpw w = .ok i) ↔ w.toNat < 8 ∨ w = 0x11 := by
  constructor
  · rintro ⟨i, h⟩
    unfold decodeOpw at h
    split at h
    · next hw => rcases (setmode_word_iff w).1 hw with rfl | rfl <;> decide
    · repeat' split at h
      all_goals cases h
      all_goals subst w; decide
  · have named : ∀ n < 8, ∃ i, decodeOpw (BitVec.ofNat 8 n) = .ok i := by
      intro n hn
      interval_cases n <;> exact ⟨_, rfl⟩
    rintro (h | rfl)
    · simpa using named w.toNat h
    · exact ⟨_, rfl⟩

/-- R61's condition on the fields of an operation word, in terms of the word. -/
theorem namesNoOperation_iff (w : Byte) :
    (8 ≤ w.toNat % 16 ∨ 32 ≤ w.toNat ∨ (w.getLsbD 4 = true ∧ w.toNat % 16 ≠ 1)) ↔ ¬ (w.toNat < 8 ∨ w = 0x11) := by
  have hbit : w.getLsbD 4 = true ↔ w.toNat / 16 % 2 = 1 := by
    rw [BitVec.getLsbD, Nat.testBit_eq_decide_div_mod_eq, decide_eq_true_eq]
  have heq : w = 0x11 ↔ w.toNat = 17 := BitVec.toNat_inj.symm
  rw [hbit, heq]
  omega

/-- The step refuses by name a word that the decoder refuses. -/
theorem step_of_unknown {s : State} {w : Byte} {r : List Input} {e : DecodeError} (hp : s.phase = .idle)
    (hi : s.inputs = .host w :: r) (hd : decode .hostOp [w] = .error e) : step s = .refused (.noOperation w) := by
  simp only [step, fetch, hp, fetchHost, hi, hd]

/-- Settles O4: the words that name an operation are `decodeOpw_ok_iff`'s, and every other one is refused for one reason. -/
theorem wordsNamingNoOperationAreRefused : Obligations.WordsNamingNoOperationAreRefused := by
  intro w s r hp hi
  split
  · next hw =>
    rw [namesNoOperation_iff, ← decodeOpw_ok_iff] at hw
    have hd : decode .hostOp [w] = .error .noOperation := by
      cases h : decodeOpw w with
      | ok i => exact absurd ⟨i, h⟩ hw
      | error e => exact h.trans (congrArg _ (decodeOpw_error h))
    exact ⟨hd, step_of_unknown hp hi hd⟩
  · next hw =>
    rw [namesNoOperation_iff, not_not] at hw
    exact (decodeOpw_ok_iff w).2 hw

theorem step_of_host {s : State} {w : Byte} {r : List Input} {i : Instr} (hp : s.phase = .idle)
    (hi : s.inputs = .host w :: r) (hd : decode .hostOp [w] = .ok i) : step s = exec i { s with inputs := r } := by
  simp only [step, fetch, hp, fetchHost, hi, hd]

theorem step_of_command {s : State} {i : Instr} (hs : s.Sending) (hq : s.point = .flushBefore)
    (hd : decode .outbound (commandFrame s.cmd1 s.cmd2) = .ok i) : step s = exec i s := by
  rcases hs with hp | hp <;> simp only [step, fetch, hp, fetchCommand, hq, hd]

/-- No operation waits for a frame in IDLE or inside SENDCMD. -/
theorem fetch_of_inboundContext {s : State} {c : Context} (h : inboundContext s = some c) : fetch s = fetchInbound s := by
  unfold fetch
  cases hp : s.phase
  case idle | cmdtx | qreq => cases ha : s.act <;> simp [inboundContext, ha, hp] at h
  all_goals rfl

theorem step_of_inbound {s : State} {bs : List Byte} {r : List Input} {c : Context} {i : Instr} (hi : s.inputs = .rx bs :: r)
    (hc : inboundContext s = some c) (hd : decode c bs = .ok i) : step s = exec i { s with inputs := r } := by
  simp only [step, fetch_of_inboundContext hc, fetchInbound, hi, hc, hd]

/-- Settles O5: what stands next is the host's word, the command of SENDCMD, or the frame that an operation waits for. -/
theorem stepRunsTheDecodedInstruction : Obligations.StepRunsTheDecodedInstruction :=
  ⟨fun _ _ _ _ => step_of_host, fun _ _ => step_of_command, fun _ _ _ _ _ => step_of_inbound⟩

end Sys2Proof.Machine
end

section
/-! SENDCMD as a row of its own when nothing arrives (spec/30_encoding.md R51 and R52, spec/46_helpers.md R140 and R141), and
the tail that it computes (R116). -/

namespace Sys2Proof.Machine

/-! ## The five commands transmitted -/

/-- An outbound row with nothing arriving and TXQ draining: SENDCMD returns, with only the timeline used up besides what it
leaves by itself. -/
theorem exec_outbound_quiet {i : Instr} {s : State} (hi : i.context = .outbound) (hq : s.quiescent = true)
    (hx : s.line.txProgress = true) :
    ∃ c r, encode i = commandFrame c.c1 c.c2 ∧ Brought s.inputs [] r ∧
      exec i s = .next (afterSend { (s.sending c).commanded with inputs := r }) := by
  obtain ⟨c, henc, hframe, hexec⟩ := exec_outbound hi
  obtain ⟨n, w, a, d, hw, hp, htx, hn, hrun⟩ :=
    send_returns (s := s.sending c) (s.sending_inside c) rfl (finiteInputs_of_quiet hq) hx
  obtain ⟨hwe, hb, -⟩ := hw.quiet hq hp htx
  refine ⟨c, w.inputs, henc.trans hframe.symm, hb, ?_⟩
  obtain ⟨m, hm⟩ := Nat.exists_eq_add_of_le
    (show n ≤ budget (s.sending c) by have := work_rank_le_budget (s.sending c); omega)
  have hout : (afterSend w).notSending = true := by
    rw [← Bool.not_eq_false, State.notSending_eq_false]
    exact afterSend_not_sending hw.inside
  rw [hexec, hm, hrun _ fun u => State.notSending_eq_false.2, runUntil_stop m hout, ← hwe]

@[simp] theorem afterSend_flushCount (s : State) : (afterSend s).flushCount = s.flushCount := by
  unfold afterSend; split <;> rfl

/-- Where SENDCMD of a row leads, by the operation in progress (R81; log entry 9). -/
theorem afterSend_sending_phase {s w : State} {c : CommandBytes} (hp : w.phase = (s.sending c).phase) (ha : w.act = s.act) :
    (afterSend w).phase = match s.act with
      | .none => .idle
      | .readdata => .qwait
      | .setmode => .drain
      | .sleep => .ackwait
      | .wakeup => .ackwait := by
  have hs : (s.sending c).phase = if s.act = .readdata then .qreq else .cmdtx := rfl
  rw [hs] at hp
  cases hact : s.act <;> rw [hact] at hp ha <;> simp [afterSend, hp, ha]

/-- Settles O42: what SENDCMD leaves is `State.commanded`, with its caller gone on. -/
theorem commandFramesAreTransmitted : Obligations.CommandFramesAreTransmitted := by
  intro s hq hx p hp
  have hrow : p.1.context = .outbound ∧ encode p.1 = p.2 := by
    revert p
    decide
  obtain ⟨hi, henc⟩ := hrow
  obtain ⟨c, r, hframe, hb, hexec⟩ := exec_outbound_quiet hi hq hx
  obtain ⟨w, hw⟩ : ∃ w : State, w = { (s.sending c).commanded with inputs := r } := ⟨_, rfl⟩
  rw [← hw] at hexec
  have hu : Undisturbed s (afterSend w) := Undisturbed.afterSend <| by
    rw [hw]
    exact ⟨⟨rfl, rfl, rfl, rfl, rfl, rfl⟩, rfl, rfl, rfl, rfl, rfl, rfl⟩
  refine ⟨afterSend w, hexec, ?_, ?_, ?_, ?_, afterSend_sending_phase (c := c) (by rw [hw]; rfl) (by rw [hw]; rfl),
    hu.registers, hu.lmWritten, fun a => by rw [hu.buf], hu.rxto, ?_, hu.status, hu.errkind, hu.data⟩
  · rw [afterSend_txlog, hw, ← henc, hframe]
    rfl
  · rw [afterSend_txq, hw]
    rfl
  · rw [afterSend_rxq, hw]
    rfl
  · rw [afterSend_flushCount, hw]
    rfl
  · rw [afterSend_inputs, hw]
    exact hb

/-! ## The tail -/

/-- The tail of a command as a number (R116). -/
theorem commandTail_toNat (c1 c2 : Byte) :
    (commandTail c1 c2).toNat = (256 - (0x01 + c1.toNat + c2.toNat) % 256) % 256 := by
  have h1 : params.cmdFixed.toNat = 1 := rfl
  rw [commandTail, neg8_toNat, BitVec.toNat_add, BitVec.toNat_add, h1]
  omega

/-- The tail is the checksum of the frame that it ends (R113, R116): the four bytes in front of it are zero. -/
theorem commandTail_eq_ck8 (c1 c2 : Byte) {m : Memory} (hm : m.wf = true) :
    commandTail c1 c2 = ck8 (m.writeList 0 (commandFrame c1 c2)) 9 := by
  have hread : ∀ i ∈ List.range 7, ((m.writeList 0 (commandFrame c1 c2)).read (i + 1)).toNat =
      ((commandFrame c1 c2).getD (i + 1) 0).toNat := fun i hi => by
    have hlt : i + 1 < 0 + (commandFrame c1 c2).length := by
      have := List.mem_range.1 hi
      simp only [commandFrame, List.length_cons, List.length_nil]; omega
    rw [Memory.read_writeList _ _ _ hm, if_pos ⟨Nat.zero_le _, hlt⟩, Nat.sub_zero]
  have hsum : ((List.range 7).map fun i => ((commandFrame c1 c2).getD (i + 1) 0).toNat).sum = 1 + c1.toNat + c2.toNat := by
    simp [List.range_succ, commandFrame, params, Nat.add_assoc]
  apply BitVec.eq_of_toNat_eq
  rw [ck8_toNat, List.map_congr_left hread, hsum, commandTail_toNat]

/-- Settles O44: the general law of the tail, and the table's five rows evaluated. -/
theorem commandTailsAreChecksums : Obligations.CommandTailsAreChecksums :=
  ⟨fun c1 c2 _ hm => ⟨commandTail_eq_ck8 c1 c2 hm, commandTail_toNat c1 c2⟩, by decide⟩

end Sys2Proof.Machine
end

section
/-! The inbound rows (spec/30_encoding.md rules R53 to R56, log entry 10): a frame's bytes arrive, nothing else does, and the
operation that waits for the frame goes on to its end. -/

namespace Sys2Proof.Machine

/-! ## CHECK and SWAP in terms of the frame captured -/

/-- The frame passes CHECK (R112, R114). -/
def frameValid (m : Mode) (w : List Byte) : Bool :=
  match m with
  | .push => pushValid w
  | .query => queryValid w

/-- CHECK's test of a swapped frame is that of the frame as captured. -/
theorem checksumOk_eq_frameValid {m : Mode} {w : List Byte} {b : Memory} (hn : FrameLength m w.length)
    (hr : ∀ a, a < w.length → b.read a = afterSwap m w a) : checksumOk m w.length b = frameValid m w := by
  rw [Bool.eq_iff_iff]
  cases m with
  | push =>
    obtain ⟨heven, h16⟩ : w.length % 2 = 0 ∧ 16 ≤ w.length := hn
    have hfield : b.read16 (w.length - 2) = fieldAt w (w.length - 2) :=
      read16_afterSwap hr (by omega) (by omega) (by omega) nofun
    have hsum : (ck16 b w.length).toNat = ((w.take (w.length - 2)).map BitVec.toNat).sum % 65536 := by
      rw [ck16_toNat, sum_take w (Nat.sub_le _ _), ← sum_afterSwap_push ⟨heven, h16⟩,
        List.map_congr_left fun i hi => by rw [hr i (by have := List.mem_range.1 hi; omega)]]
    rw [checksumOk, frameValid, pushValid, beq_iff_eq, beq_iff_eq, ← BitVec.toNat_inj, hsum, hfield, fieldAt, be16_toNat,
      show w.length - 2 + 1 = w.length - 1 by omega]
  | query =>
    have h9 : w.length = 9 := hn
    rw [checksumOk, frameValid, queryValid, beq_iff_eq, beq_iff_eq, ← BitVec.toNat_inj, h9, ck8_toNat, hr 8 (by omega),
      List.map_congr_left fun i hi => by rw [hr (i + 1) (by have := List.mem_range.1 hi; omega)]]
    match w, h9 with
    | [b0, b1, b2, b3, b4, b5, b6, b7, b8], _ =>
      simp [List.range_succ, afterSwap_query]
      omega

/-- BUF as CHECK finds it, where RXQ held exactly one frame (R85, R100). -/
theorem read_captured {s : State} (hg : s.Geometry) (hl : s.rxq.length = s.fs.toNat) (hb : s.buf.wf = true) (a : Nat) :
    s.captured.read a = if a < s.rxq.length then afterSwap s.mode s.rxq a else s.buf.read a := by
  have hn : FrameLength s.mode s.rxq.length := hl ▸ hg.frameLength
  have hwf := Memory.wf_writeList 0 s.rxq hb
  rw [State.captured, ← hl, List.take_length]
  split
  · refine read_swapBuf_frame hn hwf (fun x hx => ?_) ‹_›
    rw [Memory.read_writeList _ _ _ hb, if_pos (by omega), Nat.sub_zero]
  · rw [hl, read_swapBuf_beyond hg hwf (by omega), Memory.read_writeList _ _ _ hb, if_neg (by omega)]

/-- The three fields that COMMIT's router takes from a swapped frame are those of the frame as captured (R102, R121). -/
theorem read16_route {m : Mode} {w : List Byte} {b : Memory} (hn : FrameLength m w.length)
    (hr : ∀ a, a < w.length → b.read a = afterSwap m w a) :
    b.read16 (route m).pm1_0 = fieldAt w (route m).pm1_0 ∧ b.read16 (route m).pm2_5 = fieldAt w (route m).pm2_5 ∧
      b.read16 (route m).pm10 = fieldAt w (route m).pm10 := by
  cases m with
  | push =>
    have h16 : 16 ≤ w.length := hn.2
    have field : ∀ o, 2 ≤ o → o % 2 = 0 → o + 1 < w.length → b.read16 o = fieldAt w o :=
      fun o h2 he hl => read16_afterSwap hr h2 he hl nofun
    exact ⟨field 10 (by decide) rfl (by omega), field 12 (by decide) rfl (by omega), field 14 (by decide) rfl (by omega)⟩
  | query =>
    have h9 : w.length = 9 := hn
    have field : ∀ o, 2 ≤ o → o % 2 = 0 → o + 1 < 8 → b.read16 o = fieldAt w o :=
      fun o h2 he hl => read16_afterSwap hr h2 he (by omega) fun _ => hl
    exact ⟨field 6 (by decide) rfl (by decide), field 2 (by decide) rfl (by decide), field 4 (by decide) rfl (by decide)⟩

/-! ## A frame arrives while READDATA scans -/

/-- Only the timeline and the transmit side are lost by `State.calm`. -/
theorem State.eq_lined_of_calm {t v : State} (h : t.calm = v) : t = v.lined t := by
  rw [← h]; rfl

/-- READDATA in SYNC with exactly one frame in RXQ, nothing arriving: the frame is captured and accepted, or rejected. -/
theorem scan_frame {y : State} (hp : y.phase = .sync) (hg : y.Geometry) (hf : y.frozen = true)
    (hl : y.rxq.length = y.fs.toNat) (hm : y.rxq.head? = some (marker y.mode)) :
    ∃ n, runUntil State.isIdle n y = .next (if checksumOk y.mode y.fs.toNat y.captured then y.accepted else y.rejected) := by
  have hscan : y.rxq.dropWhile (· != marker y.mode) = y.rxq := by
    obtain ⟨q, hq⟩ := List.head?_eq_some_iff.1 hm
    rw [hq, List.dropWhile_cons_of_neg (by simp)]
  obtain ⟨n, -, hreach⟩ := sync_still (stop := State.isIdle) hp (State.still_of_frozen hf rfl (by simp [hp]))
    fun u hu => by simp [State.isIdle, hu]
  rw [hscan] at hreach
  obtain ⟨z, hz⟩ : ∃ z, z = (y.withRxq y.rxq).sought (y.rxq != []) := ⟨_, rfl⟩
  have hlen : ¬ z.rxq.length < z.fs.toNat := by rw [hz]; exact Nat.not_lt_of_le hl.ge
  refine ⟨n + 5, ?_⟩
  rw [hreach 5, ← hz, read_still (by rw [hz]; rfl) (by rw [hz]; exact hf) (by rw [hz]; exact hg) (Nat.le_refl 5),
    if_neg hlen, hz]
  rfl

/-- How READDATA ends with the frame that `w` brings, in terms of BUF as CHECK finds it. -/
theorem receive_frame_ends {s : State} {w : List Byte} (hp : s.phase = .sync) (hg : s.Geometry) (hx : s.rxq = [])
    (hq : s.quiescent = true) (hl : w.length = s.fs.toNat) (hm : w.head? = some (marker s.mode)) :
    ∃ t, runToIdle (s.arrive w) = .next t ∧ Brought s.inputs [] t.inputs ∧ Transmits s t ∧
      t.buf = (s.arrive w).captured ∧
      t = (if checksumOk s.mode s.fs.toNat t.buf then
        State.done { s.lined t with
          buf := t.buf, lmWritten := true, pm1_0 := t.buf.read16 (route s.mode).pm1_0
          pm2_5 := t.buf.read16 (route s.mode).pm2_5, pm10 := t.buf.read16 (route s.mode).pm10 } 0
      else State.fail { s.lined t with buf := t.buf } .checksumMismatch) := by
  obtain ⟨y, hy⟩ : ∃ y, y = (s.arrive w).calm := ⟨_, rfl⟩
  have hyw : y.rxq = w := by rw [hy]; simp [State.arrive, hx]
  have hdrop : y.rxq.drop y.fs.toNat = s.rxq := by
    rw [hyw, hx]
    exact List.drop_of_length_le (by rw [hl, hy]; exact Nat.le_refl _)
  obtain ⟨n, hscan⟩ := scan_frame (y := y) (by rw [hy]; exact hp) (by rw [hy]; exact hg) (by rw [hy]; rfl)
    (by rw [hyw, hl, hy]; rfl) (by rw [hyw, hm, hy]; rfl)
  have hok : checksumOk y.mode y.fs.toNat y.captured = checksumOk s.mode s.fs.toNat (s.arrive w).captured := by rw [hy]; rfl
  rw [hok] at hscan
  have hsync : s.phase ≠ .idle ∧ ¬ s.Sending ∧ s.phase ≠ .ackwait := by simp [State.Sending, hp]
  obtain ⟨hi, hn, ha⟩ := hsync
  obtain ⟨t, hrun, -, hcalm, hbr, -, htr⟩ := run_quiet (s := s.arrive w) hi hn hq (fun h => absurd h ha) (hy ▸ hscan)
    (by split <;> rfl) (work_rank_le_budget _)
  have hend := State.eq_lined_of_calm hcalm
  have hbuf : t.buf = (s.arrive w).captured := by rw [hend]; split <;> rfl
  refine ⟨t, hrun, hbr, htr, hbuf, hend.trans ?_⟩
  rw [← hy, State.accepted, State.rejected, hdrop, hbuf, hy]
  split <;> rfl

/-- The bytes of a frame arrive while READDATA scans an empty RXQ, and nothing else arrives (R83 to R87, R100, R110, R120). -/
theorem receive_frame {s : State} {w : List Byte} (hp : s.phase = .sync) (hg : s.Geometry) (hx : s.rxq = [])
    (hq : s.quiescent = true) (hb : s.buf.wf = true) (hl : w.length = s.fs.toNat) (hm : w.head? = some (marker s.mode)) :
    ∃ t, runToIdle (s.arrive w) = .next t ∧ Brought s.inputs [] t.inputs ∧ Transmits s t ∧
      BufReads s t s.fs.toNat (afterSwap s.mode w) ∧
      (if frameValid s.mode w then
        t = State.done { s.lined t with
          buf := t.buf, lmWritten := true, pm1_0 := fieldAt w (route s.mode).pm1_0
          pm2_5 := fieldAt w (route s.mode).pm2_5, pm10 := fieldAt w (route s.mode).pm10 } 0
      else t = State.fail { s.lined t with buf := t.buf } .checksumMismatch) := by
  obtain ⟨t, hrun, hbr, htr, hbuf, hend⟩ := receive_frame_ends hp hg hx hq hl hm
  have hrx : (s.arrive w).rxq = w := by simp [State.arrive, hx]
  have hframe : FrameLength s.mode w.length := hl ▸ hg.frameLength
  have hread : ∀ a, t.buf.read a = if a < w.length then afterSwap s.mode w a else s.buf.read a := by
    have h := read_captured (s := s.arrive w) hg (by rw [hrx]; exact hl) hb
    rwa [← hbuf, hrx] at h
  have hfirst : ∀ a, a < w.length → t.buf.read a = afterSwap s.mode w a := fun a ha => by rw [hread, if_pos ha]
  have hwf : t.buf.wf = true := hbuf ▸ wf_swapBuf _ _ (Memory.wf_writeList _ _ hb)
  obtain ⟨h1, h2, h3⟩ := read16_route hframe hfirst
  refine ⟨t, hrun, hbr, htr, ⟨hwf, hl ▸ hread⟩, ?_⟩
  rw [← hl, checksumOk_eq_frameValid hframe hfirst, h1, h2, h3] at hend
  split
  · next hv => rwa [if_pos hv] at hend
  · next hv => rwa [if_neg hv] at hend

/-- The three values of a push frame stand where the router looks for them, behind three reserved fields (R53, R54, R121). -/
theorem fieldAt_pushWire {f : PushFrame} (h : f.lead.length = 3) : fieldAt (pushWire f) 10 = f.pm1_0 ∧
    fieldAt (pushWire f) 12 = f.pm2_5 ∧ fieldAt (pushWire f) 14 = f.pm10 := by
  match hf : f.lead, h with
  | [a, b, c], _ => simp [fieldAt, pushWire, hf, halvesWire]

/-- A query frame has the same three values in another order (R55, R121). -/
theorem fieldAt_queryWire (f : QueryFrame) : fieldAt (queryWire f) 6 = f.pm1_0 ∧
    fieldAt (queryWire f) 2 = f.pm2_5 ∧ fieldAt (queryWire f) 4 = f.pm10 := by
  simp [fieldAt, queryWire, halvesWire]

/-- A push frame arrives while READDATA scans in PushMode, of whichever variant has frames of its length. -/
theorem receive_pushFrame {f : PushFrame} {s : State} (hlead : f.lead.length = 3) (hl : (pushWire f).length = s.fs.toNat)
    (hp : s.phase = .sync) (hm : s.mode = .push) (hg : s.Geometry) (hx : s.rxq = []) (hq : s.quiescent = true)
    (hb : s.buf.wf = true) :
    ∃ t, receive (pushWire f) s = .next t ∧ Brought s.inputs [] t.inputs ∧ Transmits s t ∧
      BufReads s t s.fs.toNat (afterSwap .push (pushWire f)) ∧
      (if pushValid (pushWire f) then
        t = State.done { s.lined t with buf := t.buf, lmWritten := true, pm1_0 := f.pm1_0, pm2_5 := f.pm2_5, pm10 := f.pm10 } 0
      else t = State.fail { s.lined t with buf := t.buf } .checksumMismatch) := by
  obtain ⟨h1, h2, h3⟩ := fieldAt_pushWire hlead
  rw [← h1, ← h2, ← h3]
  have h := receive_frame hp hg hx hq hb hl (by rw [hm]; rfl)
  rwa [hm] at h

/-- Settles O45: 24 bytes are the frame size of PushMode in variant A. -/
theorem pushFrameAIsReceived : Obligations.PushFrameAIsReceived := by
  intro f s hf hp _ hm hv hg hx hq hb
  have hsize : s.fs.toNat = 24 := by rw [hg, hm, hv]; rfl
  have hlead : f.lead.length = 3 ∧ f.trail.length = 3 := by simpa [PushFrame.wfA] using hf
  have h := receive_pushFrame hlead.1 ((Laws.EncodedLength.framePushA f hf).1.trans hsize.symm) hp hm hg hx hq hb
  rwa [hsize] at h

/-- Settles O46: 32 bytes are the frame size of PushMode in variant B. -/
theorem pushFrameBIsReceived : Obligations.PushFrameBIsReceived := by
  intro f s hf hp _ hm hv hg hx hq hb
  have hsize : s.fs.toNat = 32 := by rw [hg, hm, hv]; rfl
  have hlead : f.lead.length = 3 ∧ f.trail.length = 7 := by simpa [PushFrame.wfB] using hf
  have h := receive_pushFrame hlead.1 ((Laws.EncodedLength.framePushB f hf).1.trans hsize.symm) hp hm hg hx hq hb
  rwa [hsize] at h

/-- Settles O47: nine bytes are the frame size of QueryMode. -/
theorem queryFrameIsReceived : Obligations.QueryFrameIsReceived := by
  intro f s hp _ hm hg hx hq hb
  have hsize : s.fs.toNat = 9 := by rw [hg, hm]; rfl
  obtain ⟨h1, h2, h3⟩ := fieldAt_queryWire f
  rw [← h1, ← h2, ← h3]
  have h := receive_frame (w := queryWire f) hp hg hx hq hb hsize.symm (by rw [hm]; rfl)
  rwa [hsize, hm] at h

/-! ## An acknowledgment arrives while SLEEP or WAKEUP waits for one -/

/-- ACKREAD with nine bytes in RXQ, none read before and nothing more arriving, ends as `State.ackEnd` says. -/
theorem ackread_nine {y : State} (hp : y.phase = .ackwait) (hc : y.ackCount = 0) (hf : y.frozen = true)
    (hl : y.rxq.length = 9) : runUntil State.isIdle 11 y = .next (y.ackEnd y.rxq y.inputs) := by
  have hlen : ¬ y.rxq.length < params.ackLen := by rw [hl]; decide
  have hle : params.ackLen ≤ y.rxq.length := Nat.le_of_not_lt hlen
  have hread : y.ackRead params.ackLen = { y.acknowledged y.rxq y.inputs with ackCount := params.ackLen } := by
    rw [State.ackRead, State.acknowledged, hc]
    rfl
  rw [ack_still hp hf (fun h => absurd h hlen) hc (Nat.le_refl _), if_neg hlen, hread, State.ackEnd]
  simp only [hle, true_and]
  rfl

/-- Nine bytes arrive while SLEEP or WAKEUP waits for them, and nothing else arrives (R130 to R132, R134). -/
theorem receive_ack {s : State} {w : List Byte} (hp : s.phase = .ackwait) (hc : s.ackCount = 0) (hx : s.rxq = [])
    (hq : s.quiescent = true) (hb : s.buf.wf = true) (hl : w.length = 9) :
    ∃ t, receive w s = .next t ∧ Brought s.inputs [] t.inputs ∧ Transmits s t ∧
      BufReads s t 9 (fun x => w.getD x 0) ∧
      (if w.getD 1 0 = (ackExpect s.act).e1 ∧ w.getD 2 0 = (ackExpect s.act).e2 ∧ w.getD 8 0 = (ackExpect s.act).e8 then
        t = State.done { s.lined t with buf := t.buf } 0
      else t = State.fail { s.lined t with buf := t.buf } .cmdNotConfirmed) := by
  have hrx : (s.arrive w).rxq = w := by simp [State.arrive, hx]
  have hrun := ackread_nine (y := (s.arrive w).calm) hp hc rfl (by rw [State.calm_rxq, hrx, hl])
  rw [State.calm_rxq, hrx] at hrun
  have hwait : s.phase ≠ .idle ∧ ¬ s.Sending := by simp [State.Sending, hp]
  obtain ⟨hi, hn⟩ := hwait
  have hfed : (s.arrive w).Fed := fun _ => .inr (by rw [hrx, hl]; exact Nat.le_add_left _ _)
  obtain ⟨t, ht, -, hcalm, hbr, -, htr⟩ := run_quiet (s := s.arrive w) hi hn hq hfed hrun
    (State.ackEnd_phase _ _ _) (work_rank_le_budget _)
  have hend : t = (s.lined t).ackEnd w t.inputs :=
    (State.eq_lined_of_calm hcalm).trans (apply_ite (State.lined · t) _ _ _)
  have hdrop : w.drop 9 = s.rxq := by rw [hx, List.drop_of_length_le hl.le]
  obtain ⟨hreads, hresult⟩ := ackEnd_reads (y := s.lined t) hb hend
  rw [hl] at hreads
  simp only [hl, Nat.le_refl, true_and, hdrop] at hresult
  exact ⟨t, ht, hbr, htr, hreads, hresult⟩

/-- The three bytes that are tested say which acknowledgment it is (R131, R132). -/
theorem ackWire_tested (e : AckExpect) {a : AckFrame} (h : a.wf = true) :
    (ackWire e a).length = 9 ∧ (ackWire e a).getD 1 0 = e.e1 ∧ (ackWire e a).getD 2 0 = e.e2 ∧
      (ackWire e a).getD 8 0 = e.e8 := by
  obtain ⟨v, w, x, y, z, hf⟩ := AckFrame.fill_of_wf h
  simp [ackWire, hf]

/-- An acknowledgment of either kind arrives while SLEEP or WAKEUP waits for its own: `own` says whether it is that one. -/
theorem receive_ackWire {a : AckFrame} {e : AckExpect} {s : State} {own : Prop} [Decidable own] (ha : a.wf = true)
    (hp : s.phase = .ackwait) (hc : s.ackCount = 0) (hx : s.rxq = []) (hq : s.quiescent = true) (hb : s.buf.wf = true)
    (hown : (e.e1 = (ackExpect s.act).e1 ∧ e.e2 = (ackExpect s.act).e2 ∧ e.e8 = (ackExpect s.act).e8) ↔ own) :
    ∃ t, receive (ackWire e a) s = .next t ∧ Brought s.inputs [] t.inputs ∧ Transmits s t ∧
      BufReads s t 9 (fun x => (ackWire e a).getD x 0) ∧
      (if own then t = State.done { s.lined t with buf := t.buf } 0
      else t = State.fail { s.lined t with buf := t.buf } .cmdNotConfirmed) := by
  obtain ⟨hl, h1, h2, h8⟩ := ackWire_tested e ha
  have h := receive_ack hp hc hx hq hb hl
  simp only [h1, h2, h8, hown] at h
  exact h

/-- Settles O48: of the three bytes tested, the one at offset 2 tells the two acknowledgments apart. -/
theorem acknowledgmentsAreReceived : Obligations.AcknowledgmentsAreReceived := by
  intro a s ha hp hact hc hx hq hb
  constructor
  · exact receive_ackWire ha hp hc hx hq hb (by rcases hact with h | h <;> rw [h] <;> decide)
  · exact receive_ackWire ha hp hc hx hq hb (by rcases hact with h | h <;> rw [h] <;> decide)

end Sys2Proof.Machine
end

section
/-! Mode control (spec/40_mode_control.md rules R70 to R73 and R75): the exact end of a mode switch when nothing arrives, and
what GETMODE presents. -/

namespace Sys2Proof.Machine

/-! ## GETMODE (R73) -/

theorem exec_getmode {s : State} (hp : s.phase = .idle) : exec .getmode s = .next (s.done (modeWord s.mode)) := by
  rw [exec, execGetmode, whenIdle_of_idle hp]

theorem modeWord_eq_ite (m : Mode) : modeWord m = if m = .query then 0x0001 else 0x0000 := by
  cases m <;> rfl

/-- Settles O22: GETMODE presents the word of MODE, and its own word decodes to it. -/
theorem getmodeReturnsTheMode : Obligations.GetmodeReturnsTheMode := by
  refine ⟨rfl, fun s hp => ?_⟩
  rw [exec_getmode hp, modeWord_eq_ite]

/-- Settles O26: a mode switch, whatever happened during it, has written MODE, and GETMODE presents MODE. -/
theorem getmodeAfterSetmode : Obligations.GetmodeAfterSetmode := by
  intro m s t h hp
  obtain ⟨-, rfl, -⟩ := exec_switch_result (.inl rfl) h
  exact ⟨_, exec_getmode hp, rfl, modeWord_eq_ite _⟩

/-! ## The pseudo-operations (R71, R72) -/

/-- Settles O23: a pseudo-operation has SETMODE's word, and its meaning is SETMODE's. -/
theorem pseudoOperationsAreSetmode : Obligations.PseudoOperationsAreSetmode :=
  ⟨rfl, rfl, rfl, rfl, fun _ => rfl, fun _ => rfl⟩

/-! ## A mode switch with nothing arriving (R70, R75) -/

/-- The RXFLUSH that ends a mode switch, the environment making no move (R141): RXQ is discarded and counted. -/
theorem drain_ends {y : State} (hp : y.phase = .drain) (hq : y.point = .settle) (hs : y.still = true) :
    runUntil State.isIdle (y.rxq.length + 2) y = .next (y.startDrain.discarded.done 0) := by
  have busy : ∀ {u : State}, u.phase = .drain → u.isIdle = false := fun hu => by rw [State.isIdle, hu]; rfl
  have settle : Reaches State.isIdle 1 y y.startDrain := by
    refine Reaches.one (busy hp) ?_
    simp only [tick, hp, hq, delay, State.turn_still hs]
  have discard : Reaches State.isIdle (y.rxq.length + 1) y.startDrain (y.startDrain.discarded.done 0) := by
    refine drain_still (s := y.startDrain) (fun u => u.done 0) (State.still_congr hs rfl rfl) (fun _ _ => busy hp)
      fun q n => ?_
    have hphase : State.phase { y.startDrain with rxq := q, flushCount := n } = .drain := hp
    rw [tick, hphase]
    rfl
  exact (settle.trans discard).ends rfl (by omega)

/-- Where the last RXFLUSH of a mode switch to `m` starts when nothing has arrived, with `r` left of the timeline. -/
def State.commandedMode (s : State) (m : Mode) (r : List Input) : State :=
  afterSend { (s.switching m).commanded with inputs := r }

/-- SENDCMD of a mode switch, with nothing arriving and TXQ draining, leads to its last RXFLUSH; what it used up bounds
the run. -/
theorem switching_reaches_drain {s : State} (m : Mode) (hq : s.quiescent = true) (hx : s.line.txProgress = true) :
    ∃ n r, Brought s.inputs [] r ∧ quietInputs r = true ∧ Reaches State.isIdle n (s.switching m) (s.commandedMode m r) ∧
      n + ((s.commandedMode m r).work + (s.commandedMode m r).rank) ≤ budget (s.switching m) := by
  obtain ⟨n, w, a, d, hw, hp, htx, hn, hrun⟩ :=
    send_returns (s := s.switching m) (.inl rfl) rfl (finiteInputs_of_quiet hq) hx
  obtain ⟨he, hb, hr⟩ := hw.quiet hq hp htx
  have hend : afterSend w = s.commandedMode m w.inputs := by rw [he]; rfl
  rw [hend] at hn hrun
  have hstop : ∀ u : State, u.Sending → u.isIdle = false := fun u hu => by
    rcases hu with hu | hu <;> simp [State.isIdle, hu]
  exact ⟨n, w.inputs, hb, hr, hrun _ hstop, hn.trans (work_rank_le_budget _)⟩

/-- The exact end of a mode switch with nothing arriving and TXQ draining. -/
theorem switching_quiet {s : State} (m : Mode) (hq : s.quiescent = true) (hx : s.line.txProgress = true) :
    ∃ t, runToIdle (s.switching m) = .next t ∧ Brought s.inputs [] t.inputs ∧ t = State.done { s with
      mode := m, fs := BitVec.ofNat 6 (frameSize m s.variant), rxq := [], txq := [], flushCount := 0, inputs := t.inputs
      txlog := s.txlog ++ s.txq ++ commandWire (modeCommand m) } 0 := by
  obtain ⟨n, r, hb, hr, hreach, hn⟩ := switching_reaches_drain m hq hx
  obtain ⟨k, hk⟩ := Nat.exists_eq_add_of_le (show n ≤ budget (s.switching m) by omega)
  have hflush := drain_ends (y := (s.commandedMode m r).calm) rfl rfl rfl
  have hphase : (s.commandedMode m r).phase = .drain := rfl
  obtain ⟨t, hrun, ht, hcalm, hbt, -, -⟩ := run_quiet (s := s.commandedMode m r) (n := k) (by rw [hphase]; decide)
    (by rw [State.Sending, hphase]; decide) hr (fun h => by rw [hphase] at h; cases h) hflush rfl (by omega)
  have hexec : runToIdle (s.switching m) = .next t := by rw [runToIdle, hk, hreach, hrun]
  obtain ⟨htxq, hlog⟩ := beginSend_transmits (modeCommand_frame m) hexec ht
  refine ⟨t, hexec, hb.trans hbt, (State.eq_lined_of_calm hcalm).trans ?_⟩
  rw [State.lined, htxq, hlog]
  rfl

/-- Settles O24: `switching_quiet` for each mode, with FS and the command written out. -/
theorem quiescentModeSwitch : Obligations.QuiescentModeSwitch := by
  intro s hp hq hx
  constructor
  · intro i hi
    have hi : SwitchesTo i .push := by simpa [SwitchesTo] using hi
    have hfs : BitVec.ofNat 6 (frameSize .push s.variant) = (match s.variant with
        | .a => 24
        | .b => 32) := by cases s.variant <;> rfl
    obtain ⟨t, hrun, hb, ht⟩ := switching_quiet .push hq hx
    rw [hfs] at ht
    exact ⟨t, (exec_switch hi hp).trans hrun, hb, ht⟩
  · intro i hi
    have hi : SwitchesTo i .query := by simpa [SwitchesTo] using hi
    obtain ⟨t, hrun, hb, ht⟩ := switching_quiet .query hq hx
    exact ⟨t, (exec_switch hi hp).trans hrun, hb, ht⟩

end Sys2Proof.Machine
end

section
/-! READDATA from SYNC to its end when nothing more arrives (spec/41_readdata_sync.md rules R83 to R89): the closed form of R88,
in PushMode for what RXQ holds, in QueryMode for what arrives between the query request's RXFLUSH and the scan. -/

namespace Sys2Proof.Machine

/-! ## The scan and the frame that it finds -/

/-- RXQ as SYNC leaves it when nothing more arrives: the bytes from the first marker on (R83). -/
def State.scanned (y : State) : State := y.withRxq (fromMarker (marker y.mode) y.rxq)

/-- The end of a READDATA that scans `y`'s RXQ, nothing more arriving: a failure for want of bytes, or the frame at the front
accepted or rejected (R84 to R87). -/
def State.readEnd (y : State) : State :=
  if y.scanned.rxq.length < y.fs.toNat then y.scanned.fail (if y.scanned.rxq = [] then .syncMiss else .shortFrame)
  else if checksumOk y.mode y.fs.toNat y.scanned.captured then y.scanned.accepted else y.scanned.rejected

theorem State.readEnd_phase (y : State) : y.readEnd.phase = .idle := by
  unfold State.readEnd
  split
  · rfl
  · split <;> rfl

/-- READDATA's end looks at neither the timeline nor the transmit side. -/
theorem State.readEnd_lined (y t : State) : y.calm.readEnd.lined t = (y.lined t).readEnd := by
  rw [State.readEnd, apply_ite (State.lined · t), apply_ite (State.lined · t)]
  rfl

/-- READDATA in SYNC with the environment making no move. -/
theorem sync_ends {y : State} (hp : y.phase = .sync) (hg : y.Geometry) (hf : y.frozen = true) :
    ∃ n, runUntil State.isIdle n y = .next y.readEnd := by
  obtain ⟨n, -, hreach⟩ := sync_still (stop := State.isIdle) hp (State.still_of_frozen hf rfl (by simp [hp]))
    fun u hu => by simp [State.isIdle, hu]
  refine ⟨n + 5, ?_⟩
  rw [hreach 5, read_still rfl (by exact hf) (by exact hg) (Nat.le_refl 5)]
  have hkind : (if (y.scanned.sought (y.scanned.rxq != [])).found = true then ErrKind.shortFrame else .syncMiss) =
      if y.scanned.rxq = [] then .syncMiss else .shortFrame := by
    cases h : y.scanned.rxq <;> simp
  change Host.Outcome.next (if _ then State.fail _ (if (y.scanned.sought (y.scanned.rxq != [])).found = true then _ else _)
    else _) = _
  rw [hkind]
  rfl

/-- READDATA in QWAIT or SYNC, nothing more arriving: the environment's departures are all that differs. -/
theorem scan_quiet {s : State} {n : Nat} (hp : s.phase = .qwait ∨ s.phase = .sync) (hg : s.Geometry)
    (hq : s.quiescent = true) (hn : s.work + s.rank ≤ n) :
    ∃ t, runUntil State.isIdle n s = .next t ∧ Brought s.inputs [] t.inputs ∧ Transmits s t ∧
      t = (s.lined t).readEnd := by
  have hplace : s.phase ≠ .idle ∧ ¬ s.Sending ∧ s.phase ≠ .ackwait := by
    rcases hp with hp | hp <;> simp [State.Sending, hp]
  obtain ⟨hi, hs, ha⟩ := hplace
  have hcalm : ∃ m, runUntil State.isIdle m s.calm = .next s.calm.readEnd := by
    rcases hp with hp | hp
    · obtain ⟨m, hm⟩ := sync_ends (y := s.calm.goto .sync) rfl hg rfl
      have hwait : tick s.calm = .next (s.calm.goto .sync) := by
        simp only [tick, State.calm_phase, hp, delay, State.turn_calm]
      exact ⟨m + 1, (runUntil_step m (by simp [State.isIdle, hp]) hwait).trans hm⟩
    · exact sync_ends hp hg rfl
  obtain ⟨m, hm⟩ := hcalm
  obtain ⟨t, hrun, -, ht, hb, -, htr⟩ := run_quiet hi hs hq (fun h => absurd h ha) hm (State.readEnd_phase _) hn
  exact ⟨t, hrun, hb, htr, (State.eq_lined_of_calm ht).trans (s.readEnd_lined t)⟩

/-- BUF as CHECK finds it, where RXQ holds at least one frame (R85, R100). -/
theorem read_captured_take {y : State} {w : List Byte} (hg : y.Geometry) (hw : w = y.rxq.take y.fs.toNat)
    (hl : w.length = y.fs.toNat) (hb : y.buf.wf = true) (a : Nat) :
    y.captured.read a = if a < w.length then afterSwap y.mode w a else y.buf.read a := by
  have hcapt : (y.withRxq w).captured = y.captured := by
    change swapBuf y.mode y.fs.toNat (y.buf.writeList 0 (w.take y.fs.toNat)) = _
    rw [← hl, List.take_length, hl, hw]
    rfl
  rw [← hcapt]
  exact read_captured (s := y.withRxq w) hg hl hb a

/-- READDATA's end in terms of the bytes that the scan finds: `q` from the first marker on, `w` the frame at its front; mode `m`
and frame size `n` are `y`'s, and BUF is as `s` had it (R83 to R88). -/
theorem readEnd_reads {s y t : State} {m : Mode} {n : Nat} {q w : List Byte} (ht : t = y.readEnd) (hg : y.Geometry)
    (hm : y.mode = m) (hn : y.fs.toNat = n) (hs : y.buf = s.buf) (hb : s.buf.wf = true)
    (hq : q = fromMarker (marker m) y.rxq) (hw : w = q.take n) :
    if q = [] then t = State.fail { y with rxq := [] } .syncMiss
    else if q.length < n then t = State.fail { y with rxq := q } .shortFrame
    else BufReads s t n (afterSwap m w) ∧
      (if frameValid m w then
        t = State.done { y with
          rxq := q.drop n, buf := t.buf, lmWritten := true, pm1_0 := fieldAt w (route m).pm1_0
          pm2_5 := fieldAt w (route m).pm2_5, pm10 := fieldAt w (route m).pm10 } 0
      else t = State.fail { y with rxq := q.drop n, buf := t.buf } .checksumMismatch) := by
  subst hm hn
  have hscan : y.scanned = y.withRxq q := by rw [hq]; rfl
  obtain ⟨h9, -⟩ := hg.bounds
  rw [State.readEnd, hscan, State.withRxq_rxq] at ht
  by_cases h0 : q = []
  · rw [h0, if_pos (by simp only [List.length_nil]; omega), if_pos rfl] at ht
    rwa [if_pos h0]
  rw [if_neg h0]
  by_cases hl : q.length < y.fs.toNat
  · rw [if_pos hl, if_neg h0] at ht
    rwa [if_pos hl]
  rw [if_neg hl] at ht ⊢
  have hlen : w.length = y.fs.toNat := by rw [hw, List.length_take]; omega
  have hread := read_captured_take (y := y.withRxq q) hg hw hlen (hs ▸ hb)
  have hbuf : t.buf = (y.withRxq q).captured := by rw [ht]; split <;> rfl
  rw [← hbuf] at hread ht
  have hframe : FrameLength y.mode w.length := hlen ▸ hg.frameLength
  have hfirst : ∀ a, a < w.length → t.buf.read a = afterSwap y.mode w a := fun a ha => by
    rw [hread, if_pos ha]
    rfl
  obtain ⟨h1, h2, h3⟩ := read16_route hframe hfirst
  have hwf : t.buf.wf = true := hbuf ▸ wf_swapBuf _ _ (Memory.wf_writeList _ _ (hs ▸ hb))
  refine ⟨⟨hwf, fun a => ?_⟩, ?_⟩
  · rw [hread, hlen, ← hs]
    rfl
  · rw [← hlen, checksumOk_eq_frameValid hframe hfirst, State.accepted, State.rejected, ← hbuf] at ht
    rw [← h1, ← h2, ← h3]
    split
    · next hv => rwa [if_pos hv] at ht
    · next hv => rwa [if_neg hv] at ht

/-! ## PushMode -/

theorem startRead_push {s : State} (h : s.mode = .push) :
    startRead s = { s with phase := .sync, act := .readdata, point := .start, found := false, ackCount := 0 } := by
  simp [startRead, h]

/-- Settles O27: the scan starts at once, and `readEnd_reads` says how it ends. -/
theorem quiescentPushRead : Obligations.QuiescentPushRead := by
  intro s q w hp hq hm hg hb hqe hwe
  obtain ⟨t, hrun, hbr, htr, hend⟩ := scan_quiet (s := startRead s) (n := budget (startRead s))
    (by rw [startRead_push hm]; exact .inr rfl) (startRead_geometry hg) (by rw [startRead_push hm]; exact hq)
    (work_rank_le_budget _)
  rw [startRead_push hm] at hbr htr hend
  refine ⟨t, (exec_readdata hp).trans hrun, hbr, htr, ?_⟩
  exact readEnd_reads hend hg hm rfl rfl hb hqe hwe

/-! ## QueryMode -/

/-- What a turn of the environment does is told by its entries alone, not by the timeline that the state still shows. -/
theorem envMoves_withInputs (b : Bool) (l i : List Input) (s : State) :
    envMoves b l { s with inputs := i } = envMoves b l s := by
  induction l generalizing s with
  | nil => rfl
  | cons x l ih =>
    cases x with
    | rx bs => exact ih (s.arrive bs)
    | depart =>
      have hdep : State.depart { s with inputs := i } = { s.depart with inputs := i } := by
        cases h : s.txq <;> simp [State.depart, h]
      rw [envMoves, envMoves, hdep]
      exact ih s.depart
    | timeout =>
      simp only [envMoves]
      split
      · rfl
      · exact ih s
    | waitFor p =>
      simp only [envMoves]
      split
      · exact ih s
      · rfl
    | host w => rfl
    | pass => rfl
    | endless e => rfl

/-- Entries that the environment makes in one turn bring their bytes, and the turn goes on with what stands behind them. -/
theorem envMoves_oneTurn {u : State} (p r : List Input) (hx : u.txq = []) (hp : inOneTurn u.phase p = true) :
    envMoves false (p ++ r) u = envMoves false r { u with rxq := u.rxq ++ arrivals p } := by
  induction p generalizing u with
  | nil => simp [arrivals]
  | cons i p ih =>
    obtain ⟨hi, hrest⟩ := Bool.and_eq_true_iff.1 hp
    cases i with
    | rx bs =>
      refine (ih (u := u.arrive bs) hx hrest).trans ?_
      simp [State.arrive, arrivals]
    | depart =>
      have hdep : u.depart = u := by simp [State.depart, hx]
      rw [List.cons_append, envMoves, hdep]
      exact ih hx hrest
    | timeout => exact ih hx hrest
    | waitFor ph =>
      have hph : u.phase = ph := (beq_iff_eq.1 hi).symm
      rw [List.cons_append, envMoves, if_pos hph]
      exact ih hx hrest
    | pass => cases hi
    | host w => cases hi
    | endless e => cases hi

/-- A state in whose next turn the entries `p` are made stands as if their bytes had come already. -/
theorem State.turn_oneTurn {u : State} {p r : List Input} (hi : u.inputs = p ++ r) (hx : u.txq = [])
    (hp : inOneTurn u.phase p = true) : u.turn = State.turn { u with rxq := u.rxq ++ arrivals p, inputs := r } := by
  have h := envMoves_withInputs false r r { u with rxq := u.rxq ++ arrivals p }
  rw [State.turn, hi, envMoves_oneTurn p r hx hp, State.turn, ← h]

/-- Entries that the environment can leave behind reach no endless source by themselves. -/
theorem finiteInputs_append {p l : List Input} (hp : ∀ i ∈ p, i.passes = true) (hl : finiteInputs l = true) :
    finiteInputs (p ++ l) = true := by
  induction p with
  | nil => exact hl
  | cons i p ih =>
    have hrest := ih fun j hj => hp j (List.mem_cons_of_mem i hj)
    have hi := hp i List.mem_cons_self
    cases i with
    | waitFor ph => simp [finiteInputs, hrest]
    | host w => rfl
    | endless e => cases hi
    | rx bs => exact hrest
    | depart => exact hrest
    | timeout => exact hrest
    | pass => exact hrest

/-- A timeline that was reduced to a finite one was finite. -/
theorem finiteInputs_of_brought {l r : List Input} {a : List Byte} (h : Brought l a r) (hr : finiteInputs r = true) :
    finiteInputs l = true := by
  obtain ⟨p, hp, ⟨rfl, -⟩ | ⟨e, k, q, rfl, rfl, -⟩⟩ := h
  · exact finiteInputs_append hp hr
  · cases hr

theorem finiteInputs_of_oneTurn {ph : Phase} {p r : List Input} (hp : inOneTurn ph p = true) (hr : quietInputs r = true) :
    finiteInputs (p ++ r) = true := by
  refine finiteInputs_append (fun i hi => ?_) (finiteInputs_of_quiet hr)
  have h := List.all_eq_true.1 hp i hi
  cases i with
  | pass => rfl
  | host w => cases h
  | endless e => cases h
  | _ => rfl

/-- The query request's row, for a READDATA just issued, is the SENDCMD with which the operation starts (log entry 9). -/
theorem exec_cmdQuery_serving (s : State) : exec .cmdQuery (s.serving .readdata) =
    runUntil State.notSending (budget (s.beginSend .readdata params.cmdQuery)) (s.beginSend .readdata params.cmdQuery) := rfl

/-- SENDCMD of the query request returns, and READDATA goes on from there with enough of its budget left. -/
theorem query_returns {s : State} (hf : finiteInputs s.inputs = true) (hx : s.line.txProgress = true) :
    ∃ w a d, SendAt (s.beginSend .readdata params.cmdQuery) w a d ∧ w.point = .flushAfter ∧ w.txq = [] ∧
      exec .cmdQuery (s.serving .readdata) = .next (afterSend w) ∧
      (s.phase = .idle → s.mode = .query → ∃ n, (afterSend w).work + (afterSend w).rank ≤ n ∧
        exec .readdata s = runUntil State.isIdle n (afterSend w)) := by
  obtain ⟨n, w, a, d, hw, hwp, hwq, hn, hrun⟩ :=
    send_returns (s := s.beginSend .readdata params.cmdQuery) (.inr rfl) rfl hf hx
  have hbudget := work_rank_le_budget (s.beginSend .readdata params.cmdQuery)
  obtain ⟨k, hk⟩ := Nat.exists_eq_add_of_le (show n ≤ budget (s.beginSend .readdata params.cmdQuery) by omega)
  have hout : (afterSend w).notSending = true := by
    rw [← Bool.not_eq_false, State.notSending_eq_false]
    exact afterSend_not_sending hw.inside
  refine ⟨w, a, d, hw, hwp, hwq, ?_, fun hp hm => ⟨k, by omega, ?_⟩⟩
  · rw [exec_cmdQuery_serving, hk, hrun _ fun v => State.notSending_eq_false.2, runUntil_stop k hout]
  · have hbusy : ∀ v : State, v.Sending → v.isIdle = false := fun v hv => by
      rcases hv with hv | hv <;> simp [State.isIdle, hv]
    rw [exec_readdata hp, startRead_query hm, runToIdle, hk, hrun _ hbusy]

/-- The query request's SENDCMD was started with a timeline that is finite if what it left of it is. -/
theorem finiteInputs_of_cmdQuery {s u : State} (hu : exec .cmdQuery (s.serving .readdata) = .next u)
    (hf : finiteInputs u.inputs = true) : finiteInputs s.inputs = true := by
  cases runUntil_sendTo (.inr rfl) rfl (exec_cmdQuery_serving s ▸ hu) with
  | inside a d h => exact finiteInputs_of_brought h.turns.brought hf
  | returned w a d hw h => exact finiteInputs_of_brought h.turns.brought (by rwa [hw, afterSend_inputs] at hf)

/-- READDATA in QueryMode goes through the state `u` in which its SENDCMD returns, and what is left of its budget is enough
for what is left to do. -/
theorem exec_readdata_from_return {s u : State} (hp : s.phase = .idle) (hm : s.mode = .query)
    (hx : s.line.txProgress = true) (hu : exec .cmdQuery (s.serving .readdata) = .next u)
    (hf : finiteInputs u.inputs = true) :
    u.txq = [] ∧ SameRegisters s u ∧ u.buf = s.buf ∧
      ∃ n, u.work + u.rank ≤ n ∧ exec .readdata s = runUntil State.isIdle n u := by
  obtain ⟨w, a, d, hw, -, hwq, hret, hrun⟩ := query_returns (finiteInputs_of_cmdQuery hu hf) hx
  rw [hu] at hret
  injection hret with hret
  subst hret
  have hsame := hw.undisturbed.afterSend
  exact ⟨by rw [afterSend_txq, hwq], hsame.registers, hsame.buf, hrun hp hm⟩

/-- Where two states make the same tick, neither being one to stop at, the runs are the same from there. -/
theorem runUntil_congr {stop : State → Bool} {s t : State} {n : Nat} (hn : 0 < n) (hs : stop s = false)
    (ht : stop t = false) (h : tick s = tick t) : runUntil stop n s = runUntil stop n t := by
  obtain ⟨k, rfl⟩ := Nat.exists_eq_add_of_le' hn
  rw [runUntil, runUntil, hs, ht, h]
  rfl

/-- With nothing waiting in TXQ nothing departs. -/
theorem Transmits.of_empty {s t : State} (h : Transmits s t) (hq : s.txq = []) : t.txlog = s.txlog ∧ t.txq = [] := by
  obtain ⟨⟨l, hl⟩, hall⟩ := h
  rw [hq, List.append_nil, ← hl, List.append_assoc, List.append_right_eq_self] at hall
  obtain ⟨rfl, hnil⟩ := List.append_eq_nil_iff.1 hall
  exact ⟨by rw [← hl, List.append_nil], hnil⟩

/-- READDATA in QueryMode ends as `State.readEnd` says of what has arrived when SENDCMD returns and what the entries `p` bring
while QWAIT lasts. -/
theorem exec_readdata_query {s u : State} {p r : List Input} (hp : s.phase = .idle) (hm : s.mode = .query)
    (hx : s.line.txProgress = true) (hg : s.Geometry) (hu : exec .cmdQuery (s.serving .readdata) = .next u)
    (hph : u.phase = .qwait) (hi : u.inputs = p ++ r) (hturn : inOneTurn .qwait p = true) (hr : quietInputs r = true) :
    ∃ t y, exec .readdata s = .next t ∧ Brought r [] t.inputs ∧
      y = { u with inputs := t.inputs, rxq := u.rxq ++ arrivals p } ∧ y.Geometry ∧ y.mode = .query ∧ y.buf = s.buf ∧
      t = y.readEnd := by
  obtain ⟨hq, ⟨-, -, -, hmode, hfs, hvar⟩, hbuf, n, hn, hrun⟩ :=
    exec_readdata_from_return hp hm hx hu (hi ▸ finiteInputs_of_oneTurn hturn hr)
  have hug : u.Geometry := by rw [State.Geometry, hmode, hfs, hvar]; exact hg
  obtain ⟨v, hv⟩ : ∃ v : State, v = { u with rxq := u.rxq ++ arrivals p, inputs := r } := ⟨_, rfl⟩
  have hvp : v.phase = .qwait := by rw [hv]; exact hph
  have hvq : v.txq = [] := by rw [hv]; exact hq
  have htick : tick u = tick v := by
    have hsame : u.turn = v.turn := by rw [hv]; exact State.turn_oneTurn hi hq (by rw [hph]; exact hturn)
    simp only [tick, hph, hvp, delay, hsame]
  have hpos : 0 < u.rank := by simp [State.rank, hph]
  have hrest : runUntil State.isIdle n u = runUntil State.isIdle n v :=
    runUntil_congr (by omega) (by rw [State.isIdle, hph]; rfl) (by rw [State.isIdle, hvp]; rfl) htick
  have hwork : v.work ≤ u.work := by
    rw [hv]
    simp only [State.work, hi, arrivals_append, List.length_append]
    omega
  have hrank : v.rank = u.rank := State.rank_congr (hvp.trans hph.symm) (by rw [hv])
  obtain ⟨t, ht, hb, hsent, hend⟩ := scan_quiet (s := v) (n := n) (.inl hvp) (by rw [hv]; exact hug)
    (by rw [hv]; exact hr) (by omega)
  obtain ⟨htlog, htq⟩ := hsent.of_empty hvq
  refine ⟨t, v.lined t, hrun.trans (hrest.trans ht), by rw [hv] at hb; exact hb, ?_, ?_, ?_, ?_, hend⟩
  · rw [State.lined, htlog, htq, ← hvq, hv]
  · rw [hv]; exact hug
  · rw [hv]; exact hmode.trans hm
  · rw [hv]; exact hbuf

/-- Settles O30: `readEnd_reads` for what has arrived when the scan starts. -/
theorem queryReadOfAnyReply : Obligations.QueryReadOfAnyReply := by
  intro s u p r q w hp hx hm hg hb hu hph hi hturn hr hq hw
  obtain ⟨t, y, hrun, hbr, hy, hyg, hym, hyb, hend⟩ := exec_readdata_query hp hm hx hg hu hph hi hturn hr
  have hfs : y.fs.toNat = 9 := by rw [hyg, hym]; rfl
  have h := readEnd_reads hend hyg hym hfs hyb hb (by rw [hy]; exact hq) hw
  rw [hy] at h
  exact ⟨t, hrun, hbr, h⟩

/-- Where READDATA waits in QWAIT when nothing has arrived before, with `r` left of the timeline (R82). -/
def State.requested (s : State) (r : List Input) : State :=
  { s with
    phase := .qwait, act := .readdata, point := .start, found := false, ackCount := 0, cmd1 := params.cmdQuery.c1
    cmd2 := params.cmdQuery.c2, rxq := [], txq := [], flushCount := s.rxq.length, inputs := r
    txlog := s.txlog ++ s.txq ++ commandWire params.cmdQuery }

theorem afterSend_commanded_query (s : State) (r : List Input) :
    afterSend { (s.beginSend .readdata params.cmdQuery).commanded with inputs := r } = s.requested r := by
  have hframe : commandWire params.cmdQuery = commandFrame params.cmdQuery.c1 params.cmdQuery.c2 := by decide
  rw [State.requested, hframe]
  rfl

/-- Settles O29: nothing moves before QWAIT, in whose turn the burst arrives. -/
theorem queryReadOfAReply : Obligations.QueryReadOfAReply := by
  intro s reply q w r hp hi hr hx hm hg hb hq hw
  have hreach := send_still (stop := State.notSending) (s := s.beginSend .readdata params.cmdQuery) (.inr rfl) rfl
    (State.still_of_waitFor hi (by simp)) hx fun v => State.notSending_eq_false.2
  have hu : exec .cmdQuery (s.serving .readdata) = .next (s.requested s.inputs) := by
    rw [exec_cmdQuery_serving, ← afterSend_commanded_query]
    exact hreach.ends rfl (by rw [budget, State.beginSend_rxq, State.beginSend_txq]; omega)
  have harr : q = fromMarker 0xFF ((s.requested s.inputs).rxq ++ arrivals [.waitFor .qwait, .rx reply]) := by
    rw [hq]; simp [arrivals, State.requested]
  obtain ⟨t, hrun, hbr, hend⟩ := queryReadOfAnyReply s _ [.waitFor .qwait, .rx reply] r q w hp hx hm hg hb hu rfl hi rfl hr
    harr hw
  exact ⟨t, _, hrun, hbr, rfl, hend⟩

/-- READDATA's end with RXQ empty (R83, R84). -/
theorem readEnd_of_empty {y : State} (hg : y.Geometry) (h : y.rxq = []) : y.readEnd = y.fail .syncMiss := by
  have hscan : y.scanned = y := by
    rw [State.scanned, h]
    change y.withRxq [] = y
    rw [← h]
    rfl
  obtain ⟨h9, -⟩ := hg.bounds
  rw [State.readEnd, hscan, h, if_pos (by rw [List.length_nil]; omega), if_pos rfl]

/-- Settles O28: RXFLUSH leaves RXQ empty, so that the scan finds nothing. -/
theorem quiescentQueryReadMisses : Obligations.QuiescentQueryReadMisses := by
  intro s hp hq hx hm hg
  obtain ⟨w, a, d, hw, hwp, hwq, hret, -⟩ := query_returns (finiteInputs_of_quiet hq) hx
  obtain ⟨hwe, hb, hr⟩ := hw.quiet hq hwp hwq
  rw [hwe, afterSend_commanded_query] at hret
  obtain ⟨t, y, hrun, hbr, hy, hyg, -, -, hend⟩ :=
    exec_readdata_query (p := []) hp hm hx hg hret rfl rfl rfl hr
  rw [readEnd_of_empty hyg (by rw [hy]; rfl), hy] at hend
  exact ⟨t, hrun, hb.trans hbr, hend⟩

end Sys2Proof.Machine
end

section
/-! READDATA in PushMode while bytes other than the marker arrive for ever (spec/41_readdata_sync.md rule R83,
spec/60_exceptions.md rule R164, spec/93_implementation_defined.md U19; log entries 6 and 7). -/

namespace Sys2Proof.Machine

/-- From `e` on every burst brings something, and never the byte `b`. -/
def Endless.Avoids (e : Endless) (b : Byte) : Prop := ∀ k, (e.after k).now ≠ [] ∧ ∀ x ∈ (e.after k).now, x ≠ b

theorem Endless.Avoids.now_ne_nil {e : Endless} {b : Byte} (h : e.Avoids b) : e.now ≠ [] := (h 0).1

theorem Endless.Avoids.now_avoids {e : Endless} {b : Byte} (h : e.Avoids b) : ∀ x ∈ e.now, x ≠ b := (h 0).2

theorem Endless.Avoids.next {e : Endless} {b : Byte} (h : e.Avoids b) : e.next.Avoids b := fun k => h (k + 1)

/-- A turn of the environment where an endless source stands first: one burst (log entry 6). -/
theorem State.turn_endless {s : State} {e : Endless} {r : List Input} (h : s.inputs = .endless e :: r) :
    s.turn = { s.arrive e.now with inputs := .endless e.next :: r } := by
  rw [State.turn, h]
  rfl

/-- READDATA scanning for a marker that is neither in RXQ nor in what an endless source brings. -/
structure Scanning (s : State) : Prop where
  phase : s.phase = .sync
  rxq : ∀ x ∈ s.rxq, x ≠ marker s.mode
  source : ∃ e r, s.inputs = .endless e :: r ∧ e.Avoids (marker s.mode)

/-- The environment's turn leaves the scan where it is, with something in RXQ. -/
theorem Scanning.turn {s : State} (h : Scanning s) : Scanning s.turn ∧ s.turn.rxq ≠ [] := by
  obtain ⟨hp, hx, e, r, hi, he⟩ := h
  rw [State.turn_endless hi]
  refine ⟨⟨hp, fun x hm => ?_, e.next, r, rfl, he.next⟩, fun hnil => ?_⟩
  · exact (List.mem_append.1 hm).elim (hx x) (he.now_avoids x)
  · exact he.now_ne_nil (List.append_eq_nil_iff.1 hnil).2

/-- A round of the scan finds a byte, which is not the marker, and discards it (R83). -/
theorem tick_scanning {s : State} (h : Scanning s) : ∃ t, tick s = .next t ∧ Scanning t := by
  obtain ⟨h1, n1⟩ := h.turn
  obtain ⟨h2, n2⟩ := h1.turn
  obtain ⟨h3, n3⟩ := h2.turn
  obtain ⟨b, q, hb⟩ := List.exists_cons_of_ne_nil n2
  obtain ⟨c, l, hc⟩ := List.exists_cons_of_ne_nil n3
  have hpeek : rxPeek s.turn = some (b, s.turn.turn) := by simp only [rxPeek, hb]
  have hread : rxRead s.turn.turn = some (c, s.turn.turn.turn.withRxq l) := by simp only [rxRead, hc]
  have hne : b ≠ marker s.turn.turn.mode := h2.rxq b (hb ▸ List.mem_cons_self)
  refine ⟨s.turn.turn.turn.withRxq l, ?_, h3.phase, fun x hx => h3.rxq x (hc ▸ List.mem_cons_of_mem c hx), h3.source⟩
  rw [tick, h.phase]
  simp only [syncTick, rxAvail, List.length_eq_zero_iff, if_neg n1, hpeek, if_neg hne, hread]

/-- The next step only goes on with the scan: no frame can be fetched from an endless source (log entry 11). -/
theorem step_scanning {s : State} (h : Scanning s) : ∃ t, step s = .next t ∧ Scanning t := by
  obtain ⟨e, r, hi, -⟩ := h.source
  have hfetch : fetch s = .engine := by simp only [fetch, h.phase, fetchInbound, hi]
  rw [step, hfetch]
  exact runUntil_total _ h fun _ hu => tick_scanning hu

/-- A run takes its first step first. -/
theorem core_run_succ {M : Host.Core} {s t : M.State} (n : Nat) (h : M.step s = .next t) : M.run (n + 1) s = M.run n t := by
  rw [Host.Core.run, h]

/-- What every step from a set of states keeps, any number of steps keeps. -/
theorem run_total {P : State → Prop} (hk : ∀ u, P u → ∃ v, step u = .next v ∧ P v) (n : Nat) {s : State} (hs : P s) :
    ∃ t, Sys2Proof.core.run n s = .next t ∧ P t := by
  induction n generalizing s with
  | zero => exact ⟨s, rfl, hs⟩
  | succ n ih =>
    obtain ⟨u, hu, pu⟩ := hk s hs
    obtain ⟨t, ht, pt⟩ := ih pu
    exact ⟨t, (core_run_succ (M := Sys2Proof.core) n hu).trans ht, pt⟩

/-- Settles O51: READDATA starts scanning, and neither its ticks nor further steps leave the scan. -/
theorem endlessArrivalsHoldTheScan : Obligations.EndlessArrivalsHoldTheScan := by
  intro e r s n hp hm hi he hx
  have start : Scanning (startRead s) := by
    rw [startRead_push hm]
    exact ⟨rfl, by rw [hm]; exact hx, e, r, hi, by rw [hm]; exact he⟩
  obtain ⟨t, ht, st⟩ := runUntil_total (stop := State.isIdle) (budget (startRead s)) start fun _ hu => tick_scanning hu
  obtain ⟨u, hu, su⟩ := run_total (fun _ => step_scanning) n st
  exact ⟨t, (exec_readdata hp).trans ht, st.phase, u, hu, su.phase⟩

end Sys2Proof.Machine
end

section
/-! SWAP as a permutation of BUF's offsets (spec/42_parse.md rules R100 to R102; spec/95_test_vectors.md T8): each byte comes
from the offset that it goes to, and every field exchanged reads as its big-endian value. -/

namespace Sys2Proof.Machine

/-- The number of pairs that SWAP exchanges (R101), for every frame size. -/
def swapCount (m : Mode) (n : Nat) : Nat :=
  match m with
  | .push => (n - 2) / 2
  | .query => params.swapPairsQuery

@[simp] theorem swapCount_push (n : Nat) : swapCount .push n = (n - 2) / 2 := rfl
@[simp] theorem swapCount_query (n : Nat) : swapCount .query n = 3 := rfl

/-- The exchanged pairs stand one after another from offset 2 on (R101). -/
theorem swapOffsets_eq (m : Mode) (n : Nat) : swapOffsets m n = (List.range (swapCount m n)).map fun i => 2 + 2 * i := by
  cases m <;> rfl

/-- The offset from which SWAP takes the byte that it leaves at `x` (R100). -/
def swapSource (m : Mode) (n x : Nat) : Nat :=
  if 2 ≤ x ∧ x < 2 + 2 * swapCount m n then (if x % 2 = 0 then x + 1 else x - 1) else x

/-- The low byte of an exchanged pair comes from the high one. -/
theorem swapSource_even {m : Mode} {n x : Nat} (he : x % 2 = 0) (h2 : 2 ≤ x) (hx : x < 2 + 2 * swapCount m n) :
    swapSource m n x = x + 1 := by
  rw [swapSource, if_pos ⟨h2, hx⟩, if_pos he]

/-- The high byte of an exchanged pair comes from the low one. -/
theorem swapSource_even_succ {m : Mode} {n x : Nat} (he : x % 2 = 0) (h2 : 2 ≤ x) (hx : x < 2 + 2 * swapCount m n) :
    swapSource m n (x + 1) = x := by
  rw [swapSource, if_pos (by omega), if_neg (by omega), Nat.add_sub_cancel]

/-- Outside the exchanged pairs SWAP leaves every byte where it is. -/
theorem swapSource_outside {m : Mode} {n x : Nat} (h : x < 2 ∨ 2 + 2 * swapCount m n ≤ x) : swapSource m n x = x :=
  if_neg (by omega)

/-- The pairs are disjoint, so that exchanging them is its own inverse (R103). -/
theorem swapSource_swapSource (m : Mode) (n x : Nat) : swapSource m n (swapSource m n x) = x := by
  by_cases hin : 2 ≤ x ∧ x < 2 + 2 * swapCount m n
  · obtain ⟨h2, hx⟩ := hin
    obtain he | ho := Nat.mod_two_eq_zero_or_one x
    · rw [swapSource_even he h2 hx, swapSource_even_succ he h2 hx]
    · obtain ⟨y, rfl⟩ : ∃ y, x = y + 1 := ⟨x - 1, by omega⟩
      have hy : y % 2 = 0 ∧ 2 ≤ y ∧ y < 2 + 2 * swapCount m n := by omega
      obtain ⟨hye, hy2, hyx⟩ := hy
      rw [swapSource_even_succ hye hy2 hyx, swapSource_even hye hy2 hyx]
  · have hout : swapSource m n x = x := if_neg hin
    rw [hout, hout]

/-- BUF after SWAP, byte by byte, for either mode and every frame size (R100). -/
theorem read_swapBuf_source {b : Memory} (m : Mode) (n x : Nat) (hb : b.wf = true) :
    (swapBuf m n b).read x = b.read (swapSource m n x) := by
  rw [swapBuf, swapOffsets_eq, Memory.read_swapPairs _ _ hb, swapSource]
  split <;> rfl

/-- The little-endian view of an exchanged field is its big-endian value before SWAP (R102). -/
theorem read16_swapBuf {b : Memory} {m : Mode} {n o : Nat} (hb : b.wf = true) (he : o % 2 = 0) (h2 : 2 ≤ o)
    (ho : o < 2 + 2 * swapCount m n) : (swapBuf m n b).read16 o = be16 (b.read o) (b.read (o + 1)) := by
  rw [Memory.read16, read_swapBuf_source m n _ hb, read_swapBuf_source m n _ hb, swapSource_even he h2 ho,
    swapSource_even_succ he h2 ho, le16_eq_be16]

/-- SWAP changes no byte outside the exchanged pairs (R100, R101). -/
theorem read_swapBuf_outside {b : Memory} {m : Mode} {n a : Nat} (hb : b.wf = true)
    (ha : a < 2 ∨ 2 + 2 * swapCount m n ≤ a) : (swapBuf m n b).read a = b.read a := by
  rw [read_swapBuf_source m n a hb, swapSource_outside ha]

/-- Settles O53: every byte comes back to its offset, and canonical memories with the same bytes are the same. -/
theorem swapTwiceRestoresTheBuffer : Obligations.SwapTwiceRestoresTheBuffer := by
  intro m n b hb
  have hs : (swapBuf m n b).wf = true := wf_swapBuf m n hb
  refine Memory.ext_from (wf_swapBuf m n hs) hb fun x => ?_
  rw [read_swapBuf_source m n x hs, read_swapBuf_source m n _ hb, swapSource_swapSource]

/-- Settles O54: the pairs exchanged fill the offsets 2 to FS - 1 in PushMode, and 2 to 7 in QueryMode. -/
theorem swappedFieldsReadBigEndian : Obligations.SwappedFieldsReadBigEndian := by
  intro b hb
  refine ⟨fun n hn => ?_, fun o ho => ?_, fun a ha => read_swapBuf_outside hb ha⟩
  · have hpairs : 2 + 2 * swapCount .push n = n := by
      obtain rfl | rfl : n = 24 ∨ n = 32 := by simpa using hn
      · rfl
      · rfl
    exact ⟨fun o he h2 ho => read16_swapBuf hb he h2 (ho.trans_eq hpairs.symm),
      fun a ha => read_swapBuf_outside hb (ha.imp_right hpairs.le.trans)⟩
  · have hfield : o % 2 = 0 ∧ 2 ≤ o ∧ o < 2 + 2 * swapCount .query 9 := by
      obtain rfl | rfl | rfl : o = 2 ∨ o = 4 ∨ o = 6 := by simpa using ho
      · decide
      · decide
      · decide
    obtain ⟨he, h2, hlast⟩ := hfield
    exact read16_swapBuf hb he h2 hlast

end Sys2Proof.Machine
end

section
/-! CHECK in terms of the frame captured, and what it finds (spec/43_checksum.md rules R110 to R115, R118 and R119;
spec/95_test_vectors.md T13): SWAP changes neither sum, the 16-bit sum does not wrap, and a frame accepted is not accepted with
one byte changed. -/

namespace Sys2Proof.Machine

/-! ## The sums and SWAP (R115) -/

/-- A sum over consecutive offsets from `d` on, up to the end of a pair that SWAP exchanges, is the same before and after SWAP:
`p` of the offsets stand in front of the first pair. -/
theorem sum_swapSource (f : Nat → Nat) {m : Mode} {n k p d : Nat} (hk : k ≤ swapCount m n) (hp : p + d = 2) :
    ((List.range (p + 2 * k)).map fun i => f (swapSource m n (i + d))).sum =
      ((List.range (p + 2 * k)).map fun i => f (i + d)).sum := by
  have hfront : ∀ i ∈ List.range p, f (swapSource m n (i + d)) = f (i + d) := fun i hi => by
    rw [swapSource_outside (.inl (by have := List.mem_range.1 hi; omega))]
  have hpairs : ∀ i ∈ List.range (2 * k), f (swapSource m n (p + i + d)) =
      f (p + (if i % 2 = 0 then i + 1 else i - 1) + d) := fun i hi => by
    have hlt := List.mem_range.1 hi
    rw [swapSource, if_pos (by omega)]
    congr 1
    split <;> split <;> omega
  rw [List.range_add]
  simp only [List.map_append, List.map_map, List.sum_append, Function.comp_def]
  rw [List.map_congr_left hfront, List.map_congr_left hpairs, sum_pairs fun j => f (p + j + d)]

/-- CK16 over a frame of an even number of bytes is the same before and after SWAP. -/
theorem ck16_swapBuf {b : Memory} {n : Nat} (hb : b.wf = true) (he : n % 2 = 0) (h4 : 4 ≤ n) :
    ck16 (swapBuf .push n b) n = ck16 b n := by
  obtain ⟨k, hk⟩ : ∃ k, n - 2 = 2 + 2 * k := ⟨(n - 4) / 2, by omega⟩
  apply BitVec.eq_of_toNat_eq
  rw [ck16_toNat, ck16_toNat, hk]
  simp only [read_swapBuf_source _ _ _ hb]
  exact congrArg (· % 65536)
    (sum_swapSource (fun x => (b.read x).toNat) (d := 0) (by rw [swapCount_push]; omega) rfl)

/-- CK8 over a query frame is the same before and after SWAP. -/
theorem ck8_swapBuf {b : Memory} (n : Nat) (hb : b.wf = true) : ck8 (swapBuf .query n b) 9 = ck8 b 9 := by
  apply BitVec.eq_of_toNat_eq
  rw [ck8_toNat, ck8_toNat]
  simp only [read_swapBuf_source _ _ _ hb]
  exact congrArg (fun a => (256 - a % 256) % 256)
    (sum_swapSource (fun x => (b.read x).toNat) (k := 3) (p := 1) (d := 1) (by rw [swapCount_query]) rfl)

/-- Settles O55: the pairs that SWAP exchanges lie wholly inside what each sum covers. -/
theorem checksumsIgnoreTheSwap : Obligations.ChecksumsIgnoreTheSwap := fun _ hb =>
  ⟨ck16_swapBuf hb rfl (by decide), ck16_swapBuf hb rfl (by decide), ck8_swapBuf 9 hb⟩

/-! ## CHECK on BUF after CAPTURE and SWAP (R112, R114) -/

/-- CHECK's test after CAPTURE and SWAP of a frame says whether the frame is valid, whatever BUF held before. -/
theorem checksumOk_captured {m : Mode} {w : List Byte} {b : Memory} (hn : FrameLength m w.length) (hb : b.wf = true) :
    checksumOk m w.length (swapBuf m w.length (b.writeList 0 w)) = frameValid m w := by
  refine checksumOk_eq_frameValid hn fun a ha => read_swapBuf_frame hn (Memory.wf_writeList 0 w hb) (fun x hx => ?_) ha
  rw [Memory.read_writeList 0 x w hb, if_pos (by omega), Nat.sub_zero]

theorem frameLength_push {w : List Byte} (h : w.length = 24 ∨ w.length = 32) : FrameLength .push w.length := by
  rcases h with h | h <;> simp [FrameLength, h]

/-- The checksum byte stands in for the negated sum of the bytes before it (R114). -/
theorem queryValid_iff_checksumByte {w : List Byte} (hn : w.length = 9) : queryValid w = true ↔
    (256 - (((w.drop 1).take 7).map BitVec.toNat).sum % 256) % 256 = (w.getD 8 0).toNat := by
  have hsplit : w.drop 1 = (w.drop 1).take 7 ++ [w.getD 8 0] := by
    match w, hn with
    | [_, _, _, _, _, _, _, _, _], _ => rfl
  have hsum : ((w.drop 1).map BitVec.toNat).sum =
      (((w.drop 1).take 7).map BitVec.toNat).sum + (w.getD 8 0).toNat := by
    conv_lhs => rw [hsplit, List.map_append, List.sum_append, List.map_singleton, List.sum_singleton]
  have hbyte := (w.getD 8 0).isLt
  rw [queryValid, beq_iff_eq, hsum]
  omega

/-- Settles O56: the test of a captured frame is `pushValid`. -/
theorem pushCheckInTermsOfTheFrame : Obligations.PushCheckInTermsOfTheFrame := by
  intro b w hb hw
  rw [checksumOk_captured (frameLength_push hw) hb]
  exact beq_iff_eq

/-- Settles O57: the test of a captured frame is `queryValid`, in the form with the checksum byte apart. -/
theorem queryCheckInTermsOfTheFrame : Obligations.QueryCheckInTermsOfTheFrame := by
  intro b w hb hn
  have hcheck := checksumOk_captured (m := .query) hn hb
  rw [hn] at hcheck
  rw [hcheck]
  exact queryValid_iff_checksumByte hn

/-! ## The range of the two sums (R119) -/

theorem sum_toNat_le (l : List Byte) : (l.map BitVec.toNat).sum ≤ l.length * 255 := by
  have hbyte : ∀ v ∈ l.map BitVec.toNat, v ≤ 255 := fun v hv => by
    obtain ⟨b, -, rfl⟩ := List.mem_map.1 hv
    exact Nat.le_of_lt_succ b.isLt
  simpa using List.sum_le_card_nsmul _ 255 hbyte

/-- Up to 257 bytes do not make the 16-bit sum wrap. -/
theorem ck16_toNat_of_le (b : Memory) {n : Nat} (hn : n ≤ 259) :
    (ck16 b n).toNat = ((List.range (n - 2)).map fun i => (b.read i).toNat).sum ∧ (ck16 b n).toNat ≤ (n - 2) * 255 := by
  have hle := sum_toNat_le ((List.range (n - 2)).map b.read)
  rw [List.map_map, List.length_map, List.length_range] at hle
  have hplain : (ck16 b n).toNat = ((List.range (n - 2)).map fun i => (b.read i).toNat).sum := by
    rw [ck16_toNat]
    exact Nat.mod_eq_of_lt (hle.trans_lt (by omega))
  exact ⟨hplain, hplain.trans_le hle⟩

/-- The checksum field of a valid push frame is at most what its other bytes can sum to. -/
theorem fieldAt_le_of_pushValid {w : List Byte} {n : Nat} (hv : pushValid w = true) (hl : w.length = n + 2) :
    (fieldAt w n).toNat ≤ n * 255 := by
  have hle := sum_toNat_le (w.take n)
  rw [pushValid, beq_iff_eq, hl, Nat.add_sub_cancel, Nat.add_sub_assoc (by decide)] at hv
  rw [List.length_take, hl, Nat.min_eq_left (Nat.le_add_right n 2)] at hle
  rw [fieldAt, be16_toNat, ← hv]
  exact (Nat.mod_le _ _).trans hle

/-- Settles O58: the bounds from the general sum, and the frames of 0xFF that reach them. -/
theorem pushSumNeverWraps : Obligations.PushSumNeverWraps := by
  refine ⟨fun b => ?_, by decide, by decide, fun w hv => ⟨fieldAt_le_of_pushValid hv, fieldAt_le_of_pushValid hv⟩,
    by decide, by decide⟩
  obtain ⟨hsum24, hle24⟩ := ck16_toNat_of_le b (n := 24) (by decide)
  obtain ⟨hsum32, hle32⟩ := ck16_toNat_of_le b (n := 32) (by decide)
  exact ⟨hsum24, hle24, hsum32, hle32⟩

/-! ## A frame with one byte changed (R118) -/

/-- Changing one byte moves the sum of the bytes by the difference. -/
theorem sum_set_toNat (l : List Byte) (x : Byte) {i : Nat} (hi : i < l.length) :
    (l.getD i 0).toNat + ((l.set i x).map BitVec.toNat).sum = x.toNat + (l.map BitVec.toNat).sum := by
  have hperm := ((l.getD_set_perm_cons i x).map BitVec.toNat).sum_eq
  rw [List.getElem?_eq_getElem hi, Option.getD_some] at hperm
  rw [List.getD_eq_getElem l 0 hi]
  simpa only [List.map_cons, List.sum_cons] using hperm

/-- One byte changed changes the sum modulo 256, and so modulo every multiple of 256. -/
theorem sum_set_mod_ne {l : List Byte} {x : Byte} {i : Nat} (hi : i < l.length) (hx : x ≠ l.getD i 0) :
    ((l.set i x).map BitVec.toNat).sum % 256 ≠ (l.map BitVec.toNat).sum % 256 := by
  have hsum := sum_set_toNat l x hi
  have hne := BitVec.toNat_ne_iff_ne.2 hx
  have hnew := x.isLt
  have hold := (l.getD i 0).isLt
  omega

theorem getD_set_self (w : List Byte) (x : Byte) {i : Nat} (hi : i < w.length) : (w.set i x).getD i 0 = x := by
  simp [hi]

theorem getD_set_ne (w : List Byte) (x : Byte) {i j : Nat} (h : i ≠ j) : (w.set i x).getD j 0 = w.getD j 0 := by
  simp [h]

/-- A byte summed changes the sum and not the field; a byte of the field changes the field and not the sum. -/
theorem pushValid_set {w : List Byte} {i : Nat} {x : Byte} (h2 : 2 ≤ w.length) (hv : pushValid w = true)
    (hi : i < w.length) (hx : x ≠ w.getD i 0) : pushValid (w.set i x) = false := by
  rw [pushValid, beq_iff_eq] at hv
  rw [pushValid, beq_eq_false_iff_ne, List.length_set, List.take_set]
  by_cases hfield : i < w.length - 2
  · have hlen : i < (w.take (w.length - 2)).length := by rw [List.length_take]; omega
    have hbyte : (w.take (w.length - 2)).getD i 0 = w.getD i 0 := by
      rw [List.getD_eq_getElem?_getD, List.getElem?_take_of_lt hfield, List.getD_eq_getElem?_getD]
    have hsum := sum_set_mod_ne hlen (hbyte ▸ hx)
    rw [getD_set_ne w x (by omega), getD_set_ne w x (by omega)]
    omega
  · have hne := BitVec.toNat_ne_iff_ne.2 hx
    rw [List.set_eq_of_length_le (by rw [List.length_take]; omega), hv]
    obtain rfl | rfl : i = w.length - 2 ∨ i = w.length - 1 := by omega
    · rw [getD_set_self w x hi, getD_set_ne w x (by omega)]
      omega
    · rw [getD_set_self w x hi, getD_set_ne w x (by omega)]
      omega

/-- Every byte but the first enters the sum of a query frame. -/
theorem queryValid_set {w : List Byte} {i : Nat} {x : Byte} (hv : queryValid w = true) (h1 : 1 ≤ i) (hi : i < w.length)
    (hx : x ≠ w.getD i 0) : queryValid (w.set i x) = false := by
  obtain ⟨j, rfl⟩ : ∃ j, i = j + 1 := ⟨i - 1, by omega⟩
  obtain ⟨v, r, rfl⟩ := List.exists_cons_of_length_pos (Nat.zero_lt_of_lt hi)
  rw [queryValid, beq_iff_eq] at hv
  rw [queryValid, beq_eq_false_iff_ne, ← hv]
  exact sum_set_mod_ne (Nat.lt_of_succ_lt_succ hi) hx

/-- CHECK finds any byte of a push frame changed, and any byte but the marker of a query frame. -/
theorem frameValid_set {m : Mode} {w : List Byte} {i : Nat} {x : Byte} (hn : FrameLength m w.length)
    (hv : frameValid m w = true) (hm : m = .query → 1 ≤ i) (hi : i < w.length) (hx : x ≠ w.getD i 0) :
    frameValid m (w.set i x) = false := by
  cases m with
  | push =>
    obtain ⟨-, h16⟩ : w.length % 2 = 0 ∧ 16 ≤ w.length := hn
    exact pushValid_set (by omega) hv hi hx
  | query => exact queryValid_set hv (hm rfl) hi hx

/-- `frameValid_set` for CHECK's test after CAPTURE and SWAP. -/
theorem checksumOk_captured_set {m : Mode} {w : List Byte} {b c : Memory} {i : Nat} {x : Byte}
    (hn : FrameLength m w.length) (hb : b.wf = true) (hc : c.wf = true)
    (hok : checksumOk m w.length (swapBuf m w.length (b.writeList 0 w)) = true) (hm : m = .query → 1 ≤ i)
    (hi : i < w.length) (hx : x ≠ w.getD i 0) :
    checksumOk m w.length (swapBuf m w.length (c.writeList 0 (w.set i x))) = false := by
  rw [checksumOk_captured hn hb] at hok
  have hset := checksumOk_captured (w := w.set i x) (by rw [List.length_set]; exact hn) hc
  rw [List.length_set] at hset
  exact hset.trans (frameValid_set hn hok hm hi hx)

/-- Settles O59 for either mode by `frameValid_set`, whatever BUF held. -/
theorem singleByteErrorsAreDetected : Obligations.SingleByteErrorsAreDetected := by
  refine ⟨fun b c w i x hb hc hw hok hi hx => ?_, fun b c w i x hb hc hn hok h1 hi hx => ?_⟩
  · exact checksumOk_captured_set (frameLength_push hw) hb hc hok nofun hi hx
  · have hframe : FrameLength .query w.length := hn
    rw [← hn] at hok hi ⊢
    exact checksumOk_captured_set hframe hb hc hok (fun _ => h1) hi hx

/-! ## READDATA of a frame with one byte changed (R118, T13) -/

/-- The scan keeps a whole frame only when the frame starts with the marker (R83). -/
theorem length_le_fromMarker {b : Byte} {w : List Byte} (hw : w ≠ []) :
    w.length ≤ (fromMarker b w).length ↔ w.getD 0 0 = b := by
  obtain ⟨v, r, rfl⟩ := List.exists_cons_of_ne_nil hw
  rw [List.getD_cons_zero]
  by_cases hv : v = b
  · simp [fromMarker, hv]
  · have hshort := (List.dropWhile_suffix (l := r) (· != b)).length_le
    rw [fromMarker, List.dropWhile_cons_of_pos (by simpa using hv), List.length_cons]
    exact iff_of_false (by omega) hv

/-- How READDATA's closed form ends where exactly one frame `v` stands before the scan: it succeeds when the frame starts with
the marker and is valid, and fails otherwise. `p` is what the closed form says of BUF. -/
theorem status_of_oneFrame {m : Mode} {v q w : List Byte} {n : Nat} {t a b c d : State} {p : Prop} (hv : v ≠ [])
    (hn : v.length = n) (hq : q = fromMarker (marker m) v) (hw : w = q.take n)
    (h : if q = [] then t = a.fail .syncMiss
      else if q.length < n then t = b.fail .shortFrame
      else p ∧ (if frameValid m w then t = c.done 0 else t = d.fail .checksumMismatch)) :
    t.phase = .idle ∧ (t.status = true ↔ v.getD 0 0 = marker m ∧ frameValid m v = true) := by
  subst hn
  have hkept := length_le_fromMarker (b := marker m) hv
  rw [← hq] at hkept
  by_cases hlen : v.length ≤ q.length
  · have hqv : q = v := by
      have hsuffix : q <:+ v := hq ▸ List.dropWhile_suffix _
      exact hsuffix.eq_of_length_le hlen
    subst hqv
    rw [List.take_length] at hw
    subst hw
    rw [if_neg hv, if_neg (Nat.lt_irrefl _)] at h
    obtain ⟨-, hend⟩ := h
    split at hend
    · next hok => exact hend ▸ ⟨rfl, iff_of_true rfl ⟨hkept.1 hlen, hok⟩⟩
    · next hbad => exact hend ▸ ⟨rfl, iff_of_false nofun fun ⟨_, hok⟩ => hbad hok⟩
  · have hfail : ∃ u k, t = State.fail u k := by
      split at h
      · exact ⟨_, _, h⟩
      · rw [if_pos (Nat.lt_of_not_le hlen)] at h
        exact ⟨_, _, h⟩
    obtain ⟨u, k, rfl⟩ := hfail
    exact ⟨rfl, iff_of_false nofun fun ⟨hm, _⟩ => hlen (hkept.2 hm)⟩

/-- READDATA started in `s` ends, and succeeds exactly when the frame `w` starts with the marker and is valid. -/
def ReadsFrame (s : State) (w : List Byte) : Prop :=
  ∃ t, exec .readdata s = .next t ∧ t.phase = .idle ∧
    (t.status = true ↔ w.getD 0 0 = marker s.mode ∧ frameValid s.mode w = true)

theorem readsFrame_push {s : State} {w : List Byte} (hp : s.phase = .idle) (hq : s.quiescent = true) (hm : s.mode = .push)
    (hg : s.Geometry) (hb : s.buf.wf = true) (hx : s.rxq = w) (hl : w.length = s.fs.toNat) : ReadsFrame s w := by
  have hw : w ≠ [] := by
    obtain ⟨h9, -⟩ := hg.bounds
    exact List.ne_nil_of_length_pos (by omega)
  obtain ⟨t, hrun, -, -, hend⟩ := quiescentPushRead s _ _ hp hq hm hg hb rfl rfl
  refine ⟨t, hrun, ?_⟩
  rw [hm]
  exact status_of_oneFrame hw hl (by rw [hx]; rfl) rfl hend

theorem readsFrame_query {s : State} {w : List Byte} {r : List Input} (hp : s.phase = .idle)
    (hi : s.inputs = .waitFor .qwait :: .rx w :: r) (hr : quietInputs r = true) (hx : s.line.txProgress = true)
    (hm : s.mode = .query) (hg : s.Geometry) (hb : s.buf.wf = true) (hl : w.length = 9) : ReadsFrame s w := by
  have hw : w ≠ [] := List.ne_nil_of_length_pos (by omega)
  obtain ⟨t, u, hrun, -, -, hend⟩ := queryReadOfAReply s w _ _ r hp hi hr hx hm hg hb rfl rfl
  refine ⟨t, hrun, ?_⟩
  rw [hm]
  exact status_of_oneFrame hw hl rfl rfl hend

/-- A frame that READDATA accepts is not accepted with one byte changed: not by the scan where the marker is changed, not by
CHECK where another byte is. -/
theorem changed_read_fails {s u t : State} {w : List Byte} {i : Nat} {x : Byte} (hn : FrameLength s.mode w.length)
    (hs : ReadsFrame s w) (hu : ReadsFrame u (w.set i x)) (hm : u.mode = s.mode) (ht : exec .readdata s = .next t)
    (hok : t.status = true) (hi : i < w.length) (hx : x ≠ w.getD i 0) :
    ∃ v, exec .readdata u = .next v ∧ v.phase = .idle ∧ v.status = false ∧ SameRegisters u v := by
  obtain ⟨t', ht', -, hiff⟩ := hs
  obtain rfl : t' = t := by rw [ht] at ht'; exact (Host.Outcome.next.inj ht').symm
  obtain ⟨hmark, hvalid⟩ := hiff.1 hok
  obtain ⟨v, hv, hidle, hviff⟩ := hu
  rw [hm] at hviff
  have hreject : ¬ ((w.set i x).getD 0 0 = marker s.mode ∧ frameValid s.mode (w.set i x) = true) := by
    rintro ⟨hmark', hvalid'⟩
    cases i with
    | zero => exact hx ((getD_set_self w x hi).symm.trans (hmark'.trans hmark.symm))
    | succ j =>
      rw [frameValid_set hn hvalid (fun _ => Nat.le_add_left 1 j) hi hx] at hvalid'
      cases hvalid'
  have hfail : v.status = false := Bool.eq_false_iff.2 fun h => hreject (hviff.1 h)
  obtain ⟨hsame, -⟩ := failureLeavesTheRegisters .readdata u v rfl hv hidle hfail
  exact ⟨v, hv, hidle, hfail, hsame⟩

/-- Settles O34: in either mode the frame and the changed frame are each one frame before the scan. -/
theorem mutatedFramesFailTheRead : Obligations.MutatedFramesFailTheRead := by
  refine ⟨fun s t w i x hp hq hm hg hb hr hl ht hok hi hx => ?_, fun s t w r i x hp hin hr hx hm hg hb hl ht hok hi hne => ?_⟩
  · have hframe : FrameLength s.mode w.length := hl ▸ hg.frameLength
    have hchanged : ReadsFrame { s with rxq := w.set i x } (w.set i x) :=
      readsFrame_push hp hq hm hg hb rfl (by rw [List.length_set]; exact hl)
    exact changed_read_fails hframe (readsFrame_push hp hq hm hg hb hr hl) hchanged rfl ht hok hi hx
  · have hframe : FrameLength s.mode w.length := by rw [hm]; exact hl
    have hchanged : ReadsFrame { s with inputs := .waitFor .qwait :: .rx (w.set i x) :: r } (w.set i x) :=
      readsFrame_query hp rfl hr hx hm hg hb (by rw [List.length_set]; exact hl)
    exact changed_read_fails hframe (readsFrame_query hp hin hr hx hm hg hb hl) hchanged rfl ht hok (by rwa [hl]) hne

end Sys2Proof.Machine
end

section
/-! PROOFS. What GETPM1_0, GETPM2_5 and GETPM10_0 answer once a READDATA has succeeded (spec/44_commit_access.md rules R122 to
R124 and R127). -/

namespace Sys2Proof.Machine

/-- R127: after a success the accessor's answer is the register's value, and nothing is drawn. -/
theorem readMeasurement_written {s : State} (v : Half) (h : s.lmWritten = true) : readMeasurement v s = .next (s.done v) :=
  if_pos h

/-- In IDLE, after a success, an accessor of the register `v` answers with it. -/
theorem accessor_written {s : State} (v : State → Half) (hp : s.phase = .idle) (hw : s.lmWritten = true) :
    whenIdle s (fun u => readMeasurement (v u) u) = .next (s.done (v s)) :=
  (whenIdle_of_idle hp).trans (readMeasurement_written _ hw)

/-- Settles O35: each accessor is the one of its own register. -/
theorem accessorsReturnTheMeasurement : Obligations.AccessorsReturnTheMeasurement := by
  intro s hp hw
  refine ⟨?pm1_0, ?pm2_5, ?pm10⟩
  case pm1_0 => exact accessor_written State.pm1_0 hp hw
  case pm2_5 => exact accessor_written State.pm2_5 hp hw
  case pm10 => exact accessor_written State.pm10 hp hw

end Sys2Proof.Machine
end

section
/-! PROOFS. SLEEP and WAKEUP are confirmed only by nine bytes that arrived while they ran (spec/45_power.md rules R130 to R132 and
R134). -/

namespace Sys2Proof.Machine

/-- When a command row has been sent, RXQ holds only bytes that arrived while it was (R141, R142). -/
theorem exec_outbound_rxq_arrived {k : Instr} {s u : State} (hk : k.context = .outbound) (h : exec k s = .next u)
    (hp : u.phase ≠ .cmdtx ∧ u.phase ≠ .qreq) : ∃ a, Brought s.inputs a u.inputs ∧ u.rxq <:+ a := by
  obtain ⟨-, -, -, -, -, -, -, hsent⟩ := commandsAreOrderedInTheLog k s u hk h
  obtain ⟨-, -, a, d, ha, hall, -, hd⟩ := hsent hp
  refine ⟨a, ha, List.suffix_of_suffix_length_le (hall ▸ List.suffix_append d u.rxq) (List.suffix_append s.rxq a) ?_⟩
  have hlen := congrArg List.length hall
  simp only [List.length_append] at hlen
  omega

/-- The byte at an offset below 9 of the first nine of a reply. -/
theorem getD_take_nine {o : Nat} (reply : List Byte) (ho : o < 9) : (reply.take 9).getD o 0 = reply.getD o 0 := by
  rw [List.getD_eq_getElem?_getD, List.getD_eq_getElem?_getD, List.getElem?_take_of_lt ho]

/-- Settles O41: the reply that O39 names arrived during the operation, because SENDCMD's RXFLUSH leaves nothing older, and
STATUS = 1 is the outcome of its test only. -/
theorem confirmationNeedsTheThreeBytes : Obligations.ConfirmationNeedsTheThreeBytes := by
  intro i b s t hi hw h ht hst
  have row : ∃ (k : Instr) (a : Activity) (e : Byte × Byte × Byte), k.context = .outbound ∧ e = (0xA7, b, 0x58) ∧
      ((i = .sleep ∧ k = .cmdSleep ∧ a = .sleep ∧ e = (0xA7, 0x01, 0x58)) ∨
        (i = .wakeup ∧ k = .cmdWake ∧ a = .wakeup ∧ e = (0xA7, 0x00, 0x58))) := by
    rcases hi with ⟨rfl, rfl⟩ | ⟨rfl, rfl⟩
    · exact ⟨.cmdSleep, .sleep, _, rfl, rfl, .inl ⟨rfl, rfl, rfl, rfl⟩⟩
    · exact ⟨.cmdWake, .wakeup, _, rfl, rfl, .inr ⟨rfl, rfl, rfl, rfl⟩⟩
  obtain ⟨k, a, e, hk, rfl, hrow⟩ := row
  obtain ⟨u, v, x, reply, hu, hup, hx, hreply, ⟨-, hreads⟩, hv, hend⟩ :=
    acknowledgmentsAreReadInAnyPieces i k a _ s t hrow hw h ht
  obtain ⟨y, hy, hsuf⟩ := exec_outbound_rxq_arrived hk hu (by simp [hup])
  have arrived : reply <:+ y ++ x := by
    obtain ⟨d, rfl⟩ := hsuf
    exact ⟨d, by rw [hreply, List.append_assoc]⟩
  split at hend
  case isFalse =>
    rw [hend] at hst
    cases hst
  case isTrue hc =>
    obtain ⟨hlen, h1, h2, h8⟩ := hc
    have hrx : t.rxq = reply.drop 9 := by rw [hend, hv]; rfl
    refine ⟨y ++ x, reply.take 9, hy.trans hx, List.length_take_of_le hlen, ?_, fun o ho => ?_, ?_, ?_, ?_⟩
    · rwa [hrx, List.take_append_drop]
    · rw [hreads, if_pos (by omega), getD_take_nine reply ho]
    · rwa [getD_take_nine reply (by decide)]
    · rwa [getD_take_nine reply (by decide)]
    · rwa [getD_take_nine reply (by decide)]

end Sys2Proof.Machine
end

section
/-! PROOFS. SENDCMD while bytes arrive before every primitive call for ever: its first TxFlush ends, its RXFLUSH never does
(spec/46_helpers.md rules R140 and R141, spec/60_exceptions.md rule R164, spec/93_implementation_defined.md U19; log entries 6
and 7). -/

namespace Sys2Proof.Machine

/-- An endless source, none of whose bursts is empty, stands first on the timeline. -/
def State.Flooded (s : State) : Prop := ∃ e r, s.inputs = .endless e :: r ∧ ∀ k, (e.after k).now ≠ []

/-- A turn of such a source brings something into RXQ, and nothing departs. -/
theorem State.Flooded.turn {s : State} (h : s.Flooded) :
    s.turn.Flooded ∧ s.turn.rxq ≠ [] ∧ s.turn.txq = s.txq ∧ s.turn.inputs.length = s.inputs.length := by
  obtain ⟨e, r, hi, he⟩ := h
  rw [State.turn_endless hi, hi]
  exact ⟨⟨e.next, r, rfl, fun k => he (k + 1)⟩, fun hnil => he 0 (List.append_eq_nil_iff.1 hnil).2, rfl, rfl⟩

/-- SENDCMD at the place `p`, under TxProgress, while bytes arrive for ever. -/
structure FloodedAt (p : Point) (s : State) : Prop where
  sending : s.Sending
  point : s.point = p
  txProgress : s.line.txProgress = true
  flooded : s.Flooded

/-- A turn of the environment leaves SENDCMD where it is. -/
theorem FloodedAt.turn {p : Point} {s : State} (h : FloodedAt p s) : FloodedAt p s.turn := by
  obtain ⟨a, k, r, hturn, -⟩ := s.turn_effect
  obtain ⟨hflood, -⟩ := h.flooded.turn
  rw [hturn] at hflood ⊢
  exact ⟨h.sending, h.point, h.txProgress, hflood⟩

theorem FloodedAt.beginSend {s : State} (a : Activity) (c : CommandBytes) (hx : s.line.txProgress = true) (hf : s.Flooded) :
    FloodedAt .flushBefore (s.beginSend a c) :=
  ⟨(s.serving a).sending_inside c, rfl, hx, hf⟩

/-! ## The first TxFlush ends -/

/-- The arrivals do not stop TxProgress: a look of TxFlush finds TXQ empty, or a byte departs (R36). -/
theorem txFlush_flooded {p : Point} {s : State} (h : FloodedAt p s) :
    txFlush s = if s.txq = [] then (true, s.turn) else (false, s.turn.depart) := by
  obtain ⟨-, -, hq, hl⟩ := h.flooded.turn
  simp only [txFlush, hq, hl, h.turn.txProgress, and_self, if_true]

theorem tick_flushBefore {s : State} (hs : s.Sending) (hp : s.point = .flushBefore) :
    tick s = .next (if (txFlush s).1 then (txFlush s).2.atPoint .settle else (txFlush s).2) := by
  rw [tick_sending hs, sendTick, hp]

/-- With TXQ empty, SENDCMD goes on to RXFLUSH's delay. -/
theorem tick_flushed {s : State} (h : FloodedAt .flushBefore s) (hq : s.txq = []) :
    tick s = .next (s.turn.atPoint .settle) ∧ FloodedAt .settle (s.turn.atPoint .settle) := by
  obtain ⟨hs, -, hx, hf⟩ := h.turn
  refine ⟨?_, hs, rfl, hx, hf⟩
  rw [tick_flushBefore h.sending h.point, txFlush_flooded h, if_pos hq]
  rfl

/-- While TXQ holds something, its oldest byte departs. -/
theorem tick_flushes {s : State} {b : Byte} {q : List Byte} (h : FloodedAt .flushBefore s) (hq : s.txq = b :: q) :
    tick s = .next s.turn.depart ∧ FloodedAt .flushBefore s.turn.depart ∧ s.turn.depart.txq = q := by
  have hlook : txFlush s = (false, s.turn.depart) := by rw [txFlush_flooded h, if_neg (by simp [hq])]
  obtain ⟨-, -, htx, -⟩ := h.flooded.turn
  obtain ⟨hs, hp, hx, hf⟩ := h.turn
  have hdepart : s.turn.depart = { s.turn with txq := q, txlog := s.turn.txlog ++ [b] } := by
    rw [State.depart, htx.trans hq]
  refine ⟨?_, ?_, ?_⟩
  · rw [tick_flushBefore h.sending h.point, hlook]
    rfl
  · rw [hdepart]
    exact ⟨hs, hp, hx, hf⟩
  · rw [hdepart]

/-- RXFLUSH's delay passes and its loop begins (R141). -/
theorem tick_settles {s : State} (h : FloodedAt .settle s) :
    tick s = .next s.turn.startDrain ∧ FloodedAt .drain s.turn.startDrain := by
  obtain ⟨hs, -, hx, hf⟩ := h.turn
  refine ⟨?_, hs, rfl, hx, hf⟩
  rw [tick_sending h.sending, sendTick, h.point]
  rfl

/-- SENDCMD comes to RXFLUSH's loop: a tick for each byte of TXQ, one that finds TXQ empty and one for the delay. -/
theorem flooded_reaches_drain {stop : State → Bool} (hstop : ∀ u : State, u.Sending → stop u = false) {s : State}
    (h : FloodedAt .flushBefore s) : ∃ t, Reaches stop (s.txq.length + 2) s t ∧ FloodedAt .drain t := by
  obtain ⟨q, hq⟩ : ∃ q, s.txq = q := ⟨_, rfl⟩
  rw [hq]
  induction q generalizing s with
  | nil =>
    obtain ⟨hflush, hsettle⟩ := tick_flushed h hq
    obtain ⟨hdelay, hdrain⟩ := tick_settles hsettle
    exact ⟨_, (Reaches.one (hstop _ h.sending) hflush).trans (Reaches.one (hstop _ hsettle.sending) hdelay), hdrain⟩
  | cons b q ih =>
    obtain ⟨htick, hnext, hrest⟩ := tick_flushes h hq
    obtain ⟨t, hreach, ht⟩ := ih hnext hrest
    refine ⟨t, ?_, ht⟩
    rw [List.length_cons, show q.length + 1 + 2 = 1 + (q.length + 2) by omega]
    exact (Reaches.one (hstop _ h.sending) htick).trans hreach

/-! ## RXFLUSH does not -/

/-- A look of RXFLUSH's loop finds a byte, discards it and leaves the loop where it is (R141). -/
theorem tick_draining {s : State} (h : FloodedAt .drain s) : ∃ t, tick s = .next t ∧ FloodedAt .drain t := by
  obtain ⟨-, havail, -⟩ := h.flooded.turn
  obtain ⟨-, hbyte, -⟩ := h.turn.flooded.turn
  obtain ⟨b, q, hbq⟩ := List.exists_cons_of_ne_nil hbyte
  have hread : rxRead s.turn = some (b, s.turn.turn.withRxq q) := by simp only [rxRead, hbq]
  obtain ⟨hs, hp, hx, hf⟩ := h.turn.turn
  refine ⟨(s.turn.turn.withRxq q).counted, ?_, hs, hp, hx, hf⟩
  rw [tick_sending h.sending, sendTick, h.point]
  simp only [drainTick, rxAvail, List.length_eq_zero_iff, if_neg havail, hread]

/-- Inside RXFLUSH's loop no command is fetched any more (log entry 9), so the next step only goes on with it. -/
theorem step_draining {s : State} (h : FloodedAt .drain s) : ∃ t, step s = .next t ∧ FloodedAt .drain t := by
  have hfetch : fetch s = .engine := by
    rcases h.sending with hph | hph <;> simp only [fetch, hph, fetchCommand, h.point]
  rw [step, hfetch]
  exact runUntil_total _ h fun _ hu => tick_draining hu

/-- One step of the model is enough to come to the loop, and does not leave it. -/
theorem runToIdle_flooded {s : State} (h : FloodedAt .flushBefore s) : ∃ t, runToIdle s = .next t ∧ FloodedAt .drain t := by
  obtain ⟨u, hreach, hu⟩ := flooded_reaches_drain (stop := State.isIdle)
    (fun v hv => by rcases hv with hv | hv <;> simp [State.isIdle, hv]) h
  obtain ⟨n, hn⟩ := Nat.exists_eq_add_of_le (show s.txq.length + 2 ≤ budget s by unfold budget; omega)
  rw [runToIdle, hn, hreach]
  exact runUntil_total n hu fun _ hv => tick_draining hv

/-- Settles O52: every operation of the list starts SENDCMD, and neither its ticks nor further steps leave RXFLUSH's loop. -/
theorem endlessArrivalsHoldTheDrain : Obligations.EndlessArrivalsHoldTheDrain := by
  intro i e r s n hi hp hx hin he
  have begins (a : Activity) (c : CommandBytes) : FloodedAt .flushBefore (s.beginSend a c) := .beginSend a c hx ⟨e, r, hin, he⟩
  have switches (m : Mode) : FloodedAt .flushBefore (s.switching m) := .beginSend .setmode (modeCommand m) hx ⟨e, r, hin, he⟩
  obtain ⟨u, hexec, hu⟩ : ∃ u, exec i s = runToIdle u ∧ FloodedAt .flushBefore u := by
    rcases hi with rfl | rfl | rfl | rfl | rfl | rfl | ⟨rfl, hm⟩
    · exact ⟨_, exec_switch (.inl rfl) hp, switches .push⟩
    · exact ⟨_, exec_switch (.inl rfl) hp, switches .query⟩
    · exact ⟨_, exec_switch (.inr (.inl ⟨rfl, rfl⟩)) hp, switches .push⟩
    · exact ⟨_, exec_switch (.inr (.inr ⟨rfl, rfl⟩)) hp, switches .query⟩
    · exact ⟨_, exec_sleep hp, begins .sleep params.cmdSleep⟩
    · exact ⟨_, exec_wakeup hp, begins .wakeup params.cmdWake⟩
    · exact ⟨_, exec_readdata hp, startRead_query hm ▸ begins .readdata params.cmdQuery⟩
  obtain ⟨t, ht, st⟩ := runToIdle_flooded hu
  obtain ⟨v, hv, sv⟩ := run_total (fun _ => step_draining) n st
  exact ⟨t, hexec.trans ht, st.sending, st.point, v, hv, sv.sending, sv.point⟩

end Sys2Proof.Machine
end

section
/-! PROOFS. What a host operation comes to: a refusal while the engine is busy, an answer at once, or a run of the state machine,
which under the premises of R159 ends in IDLE (spec/60_exceptions.md rules R156, R159 and R164, spec/95_test_vectors.md T15). -/

namespace Sys2Proof.Machine

/-! ## What a host operation starts -/

/-- Where the operations that run the state machine start from IDLE (R70 to R72, R80, R131, R132). -/
inductive StartsAt (s : State) : Instr → State → Prop where
  | switch (i : Instr) (m : Mode) (h : SwitchesTo i m) : StartsAt s i (s.switching m)
  | read : StartsAt s .readdata (startRead s)
  | sleep : StartsAt s .sleep (s.beginSend .sleep params.cmdSleep)
  | wakeup : StartsAt s .wakeup (s.beginSend .wakeup params.cmdWake)

/-- In IDLE, GETMODE and the accessors answer at once, an accessor perhaps with a free value drawn; every other host operation
is a run from where it starts. -/
theorem exec_hostOp_cases {i : Instr} {s : State} (hi : i.context = .hostOp) (hp : s.phase = .idle) :
    (∃ n d, exec i s = .next (State.done { s with draws := n } d)) ∨ ∃ u, StartsAt s i u ∧ exec i s = runToIdle u := by
  have accessor : ∀ v : State → Half, ∃ n d,
      whenIdle s (fun u => readMeasurement (v u) u) = .next (State.done { s with draws := n } d) := fun v => by
    rw [whenIdle_of_idle hp, readMeasurement]
    split <;> exact ⟨_, _, rfl⟩
  have switch : ∀ m, SwitchesTo i m → ∃ u, StartsAt s i u ∧ exec i s = runToIdle u := fun m hm =>
    ⟨_, .switch i m hm, exec_switch hm hp⟩
  cases i with
  | getmode => exact .inl ⟨_, _, exec_getmode hp⟩
  | setmode m => exact .inr (switch m (.inl rfl))
  | setinitiative => exact .inr (switch .push (.inr (.inl ⟨rfl, rfl⟩)))
  | setqanda => exact .inr (switch .query (.inr (.inr ⟨rfl, rfl⟩)))
  | readdata => exact .inr ⟨_, .read, exec_readdata hp⟩
  | getpm1_0 => exact .inl (accessor State.pm1_0)
  | getpm2_5 => exact .inl (accessor State.pm2_5)
  | getpm10_0 => exact .inl (accessor State.pm10)
  | sleep => exact .inr ⟨_, .sleep, exec_sleep hp⟩
  | wakeup => exact .inr ⟨_, .wakeup, exec_wakeup hp⟩
  | _ => simp [Instr.context] at hi

/-! ## Every operation ends (R159, R164) -/

theorem StartsAt.inv {i : Instr} {s u : State} (h : StartsAt s i u) (hs : s.Inv) : u.Inv := by
  cases h with
  | switch _ m _ => exact State.inv_switching m hs
  | read => exact startRead_inv hs
  | sleep => exact State.inv_beginSend hs (by simp) (by simp) rfl rfl
  | wakeup => exact State.inv_beginSend hs (by simp) (by simp) rfl rfl

/-- No operation's start touches the environment. -/
theorem StartsAt.environment {i : Instr} {s u : State} (h : StartsAt s i u) : u.inputs = s.inputs ∧ u.line = s.line := by
  cases h with
  | read => unfold startRead; split <;> exact ⟨rfl, rfl⟩
  | _ => exact ⟨rfl, rfl⟩

theorem StartsAt.fair {i : Instr} {s u : State} (h : StartsAt s i u) (hs : s.Fair) : u.Fair := by
  obtain ⟨hin, hl⟩ := h.environment
  rw [State.Fair, hin, hl]
  exact hs

/-- Under the premises of R159 one step of the model is enough for the run of an operation. -/
theorem runToIdle_ends {u : State} (hi : u.Inv) (hf : u.Fair) : ∃ t, runToIdle u = .next t ∧ t.phase = .idle ∧ t.Inv := by
  obtain ⟨t, ht, hover, hinv, -⟩ := runUntil_ends (fun _ => isIdle_false) hi hf (work_rank_le_budget u)
  exact ⟨t, ht, isIdle_true hover, hinv⟩

/-- Settles O21: an answer at once is in IDLE, and a run starts from the invariant under the premises that `s` has, so that it
ends within its budget. -/
theorem everyOperationEnds : Obligations.EveryOperationEnds := by
  intro i s hi hs hf hp
  rcases exec_hostOp_cases hi hp with ⟨n, d, h⟩ | ⟨u, hu, h⟩
  · exact ⟨_, h, rfl, exec_inv hs (by simp [hi]) h⟩
  · rw [h]
    exact runToIdle_ends (hu.inv hs) (hu.fair hf)

/-! ## No operation while another one runs (R156, R176) -/

theorem whenIdle_of_busy {s : State} {k : State → Result} (h : s.phase ≠ .idle) : whenIdle s k = .refused .engineBusy :=
  if_neg h

/-- The meaning of every host operation is guarded by PHASE. -/
theorem exec_hostOp_eq_whenIdle {i : Instr} (hi : i.context = .hostOp) : ∃ k, ∀ s, exec i s = whenIdle s k := by
  cases i with
  | getmode => exact ⟨_, fun _ => rfl⟩
  | setmode m => exact ⟨_, fun _ => rfl⟩
  | setinitiative => exact ⟨_, fun _ => rfl⟩
  | setqanda => exact ⟨_, fun _ => rfl⟩
  | readdata => exact ⟨_, fun _ => rfl⟩
  | getpm1_0 => exact ⟨_, fun _ => rfl⟩
  | getpm2_5 => exact ⟨_, fun _ => rfl⟩
  | getpm10_0 => exact ⟨_, fun _ => rfl⟩
  | sleep => exact ⟨_, fun _ => rfl⟩
  | wakeup => exact ⟨_, fun _ => rfl⟩
  | _ => simp [Instr.context] at hi

/-- Settles O6: outside IDLE the guard of the operation refuses it. -/
theorem operationsAreRefusedWhileBusy : Obligations.OperationsAreRefusedWhileBusy := by
  intro i s hi hp
  obtain ⟨k, hk⟩ := exec_hostOp_eq_whenIdle hi
  rw [hk, whenIdle_of_busy hp]

end Sys2Proof.Machine
end

section
/-! PROOFS. How an operation ends: with STATUS = 1, or with a failure of its own kind (spec/60_exceptions.md rules R150, R151 and
R153). -/

namespace Sys2Proof.Machine

/-! ## The end of a run -/

/-- The failures that an operation in progress can end with (R150). -/
def Activity.failures : Activity → List ErrKind
  | .none => []
  | .setmode => []
  | .readdata => [.syncMiss, .shortFrame, .checksumMismatch]
  | .sleep => [.cmdNotConfirmed]
  | .wakeup => [.cmdNotConfirmed]

/-- The operation `a` is in progress, in a phase of its own (R81). -/
structure Running (a : Activity) (s : State) : Prop where
  act : s.act = a
  serves : s.phase.serves a = true

/-- The operation `a` has ended: `return ok(d)`, or one of its failures (R6, R153). -/
inductive Over (a : Activity) : State → Prop where
  | success (u : State) (d : Half) : Over a (u.done d)
  | failure (u : State) (k : ErrKind) (hk : k ∈ a.failures) : Over a (u.fail k)

theorem Over.phase {a : Activity} {t : State} (h : Over a t) : t.phase = .idle := by
  cases h <;> rfl

/-- SENDCMD returns to a phase of the operation that it serves (R81). -/
theorem afterSend_running {a : Activity} {s : State} (h : Running a s) (hs : s.Sending) : Running a (afterSend s) := by
  obtain ⟨rfl, serves⟩ := h
  rcases hs with hp | hp
  · rw [hp] at serves
    cases ha : s.act <;> simp [ha, Phase.serves] at serves
    all_goals exact ⟨by simp [afterSend, hp, ha], by simp [afterSend, hp, ha, Phase.serves]⟩
  · rw [hp] at serves
    exact ⟨by simp [afterSend, hp], by simpa [afterSend, hp, Phase.serves] using serves⟩

/-- A tick of an operation in progress goes on with it, or ends it as R150 allows. -/
theorem tick_running {a : Activity} {s t : State} (hs : Running a s) (hi : s.phase ≠ .idle) (h : tick s = .next t) :
    Running a t ∨ Over a t := by
  have serves : ∀ {p}, s.phase = p → p.serves a = true := fun hp => hp ▸ hs.serves
  have reads : ∀ {p}, s.phase = p → p.serves a = (a == .readdata) → a = .readdata := fun hp hr =>
    beq_iff_eq.1 (hr ▸ serves hp)
  have powers : ∀ {p}, s.phase = p → p.serves a = (a == .sleep || a == .wakeup) → .cmdNotConfirmed ∈ a.failures := by
    intro p hp hr
    have ha : a = .sleep ∨ a = .wakeup := by simpa [serves hp] using hr
    rcases ha with rfl | rfl <;> exact List.mem_singleton_self _
  cases tick_cases h with
  | idle hp => exact absurd hp hi
  | sent b r hp => exact .inl (afterSend_running ⟨hs.act, hs.serves⟩ hp)
  | queryWaited _ _ _ hp => exact .inl ⟨hs.act, (serves hp :)⟩
  | syncExhausted _ _ _ hp => exact .inl ⟨hs.act, (serves hp :)⟩
  | syncFound _ _ _ _ hp => exact .inl ⟨hs.act, (serves hp :)⟩
  | tooShort _ _ _ hp =>
    obtain rfl := reads hp rfl
    exact .inr (.failure _ _ (by split <;> simp [Activity.failures]))
  | longEnough _ _ _ hp => exact .inl ⟨hs.act, (serves hp :)⟩
  | captured _ _ _ _ hp _ _ _ ht => subst ht; exact .inl ⟨hs.act, (serves hp :)⟩
  | swapped hp => exact .inl ⟨hs.act, (serves hp :)⟩
  | checkPassed hp => exact .inl ⟨hs.act, (serves hp :)⟩
  | checkFailed hp =>
    obtain rfl := reads hp rfl
    exact .inr (.failure _ _ (by simp [Activity.failures]))
  | committed _ _ ht => exact .inr (ht ▸ .success _ _)
  | drainFinished => exact .inr (.success _ _)
  | ackComplete hp => exact .inl ⟨hs.act, (serves hp :)⟩
  | ackTimedOut _ _ _ hp => exact .inr (.failure _ _ (powers hp rfl))
  | ackByte _ _ _ _ _ _ _ _ _ _ ht => subst ht; exact .inl ⟨hs.act, hs.serves⟩
  | confirmed => exact .inr (.success _ _)
  | unconfirmed hp => exact .inr (.failure _ _ (powers hp rfl))
  | _ => exact .inl ⟨hs.act, hs.serves⟩

theorem Running.busy {a : Activity} {s : State} (h : Running a s) (ha : a ≠ .none) : s.phase ≠ .idle := by
  intro hp
  have serves := h.serves
  rw [hp] at serves
  exact ha (beq_iff_eq.1 serves)

/-- A run of an operation in progress that has come to IDLE has ended it. -/
theorem runToIdle_over {a : Activity} {u t : State} (ha : a ≠ .none) (hu : Running a u) (h : runToIdle u = .next t)
    (ht : t.phase = .idle) : Over a t := by
  have reached : Running a t ∨ Over a t :=
    runToIdle_keeps (P := fun v => Running a v ∨ Over a v) h (.inl hu) fun v w hv hi hw =>
      tick_running (hv.resolve_right fun ho => hi ho.phase) hi hw
  exact reached.resolve_left fun hr => hr.busy ha ht

/-! ## The end of a host operation -/

/-- The operation in progress while a host operation runs; GETMODE and the accessors run nothing. -/
def activityOf : Instr → Activity
  | .setmode _ => .setmode
  | .setinitiative => .setmode
  | .setqanda => .setmode
  | .readdata => .readdata
  | .sleep => .sleep
  | .wakeup => .wakeup
  | _ => .none

theorem StartsAt.running {i : Instr} {s u : State} (h : StartsAt s i u) :
    activityOf i ≠ .none ∧ Running (activityOf i) u := by
  cases h with
  | switch _ m hm => rcases hm with rfl | ⟨rfl, -⟩ | ⟨rfl, -⟩ <;> exact ⟨by simp [activityOf], rfl, rfl⟩
  | read => exact ⟨by decide, by unfold startRead; split <;> exact ⟨rfl, rfl⟩⟩
  | sleep => exact ⟨by decide, rfl, rfl⟩
  | wakeup => exact ⟨by decide, rfl, rfl⟩

/-- A host operation that has come to IDLE has ended with STATUS = 1 or with one of its failures. -/
theorem exec_over {i : Instr} {s t : State} (hi : i.context = .hostOp) (h : exec i s = .next t) (ht : t.phase = .idle) :
    Over (activityOf i) t := by
  rcases exec_hostOp_cases hi (idle_of_exec hi h) with ⟨n, d, he⟩ | ⟨u, hu, he⟩ <;> rw [he] at h
  · injection h with h
    exact h ▸ .success _ d
  · obtain ⟨ha, hr⟩ := hu.running
    exact runToIdle_over ha hr h ht

/-- R151: code 0 is NONE's alone. -/
theorem ErrKind.code_eq_zero_iff (k : ErrKind) : k.code = 0 ↔ k = .none := by
  cases k <;> decide

theorem none_notMem_failures (a : Activity) : .none ∉ a.failures := by
  cases a <;> decide

/-- What the result registers hold when an operation has ended. -/
theorem Over.results {a : Activity} {t : State} (h : Over a t) :
    (t.errkind = .none ↔ t.status = true) ∧ (t.status = false → t.data = 0) ∧
      (t.errkind = .none ∨ t.errkind ∈ a.failures) := by
  cases h with
  | success u d => exact ⟨⟨fun _ => rfl, fun _ => rfl⟩, nofun, .inl rfl⟩
  | failure u k hk =>
    have hne : k ≠ .none := fun he => none_notMem_failures a (he ▸ hk)
    exact ⟨⟨fun he => absurd he hne, nofun⟩, fun _ => rfl, .inr hk⟩

/-- Settles O17: the results at the end of an operation are those of a success or of one of its failures, by `exec_over`. -/
theorem resultsOfEveryOperation : Obligations.ResultsOfEveryOperation := by
  refine ⟨⟨rfl, fun k => by cases k <;> decide⟩, fun i s t hi h hp => ?_⟩
  obtain ⟨hstatus, hdata, hkind⟩ := (exec_over hi h hp).results
  refine ⟨(ErrKind.code_eq_zero_iff _).trans hstatus, hstatus, hdata, ?_⟩
  cases i <;> simpa [activityOf, Activity.failures] using hkind

end Sys2Proof.Machine
end

section
/-! PROOFS. The silent stream: nothing is in RXQ and nothing arrives (spec/60_exceptions.md rule R157, under the premises of R159,
R164 and spec/70_reset_and_hazards.md R184). -/

namespace Sys2Proof.Machine

/-! ## READDATA -/

/-- In PushMode the scan of an empty RXQ is exhausted at once, and nothing is written to the transport (R83, R84). -/
theorem readdata_push_silent {s : State} (hp : s.phase = .idle) (hm : s.mode = .push) (hq : s.quiescent = true)
    (hg : s.Geometry) (hr : s.rxq = []) :
    ∃ t, exec .readdata s = .next t ∧ Transmits s t ∧ t = State.fail ((startRead s).lined t) .syncMiss := by
  obtain ⟨hrx, htq, htl, hin⟩ := startRead_transport s
  have hsync : (startRead s).phase = .sync := by rw [startRead_push hm]
  obtain ⟨t, hrun, -, htr, hend⟩ := scan_quiet (.inr hsync) (startRead_geometry hg)
    (by rw [State.quiescent, hin]; exact hq) (work_rank_le_budget _)
  rw [readEnd_of_empty (y := (startRead s).lined t) (startRead_geometry hg) (hrx.trans hr)] at hend
  rw [Transmits, htl, htq] at htr
  exact ⟨t, (exec_readdata hp).trans hrun, htr, hend⟩

/-! ## SLEEP and WAKEUP -/

/-- ACKREAD with RXQ empty and nothing arriving ends with a Timeout (R130, R164). -/
theorem ackwait_silent {y : State} {n : Nat} (hp : y.phase = .ackwait) (hq : y.quiescent = true) (hr : y.rxq = [])
    (hc : y.ackCount = 0) (ht : y.line.timesOut = true) (hn : y.work + y.rank ≤ n) :
    ∃ t, runUntil State.isIdle n y = .next t ∧ t = State.fail ((y.ackRead 0).lined t) .cmdNotConfirmed := by
  have hcalm : runUntil State.isIdle 11 y.calm = .next ((y.calm.ackRead 0).fail .cmdNotConfirmed) := by
    rw [ack_still (s := y.calm) hp rfl (fun _ => ht) hc (Nat.le_refl 11), State.calm_rxq, hr]
    rfl
  obtain ⟨t, hrun, -, hend, -⟩ := run_quiet (by simp [hp]) (by simp [State.Sending, hp]) hq (fun _ => .inl ht) hcalm rfl hn
  exact ⟨t, hrun, State.eq_lined_of_calm hend⟩

/-- SLEEP or WAKEUP with nothing arriving: RXFLUSH leaves RXQ empty, and ACKREAD ends with a Timeout. -/
theorem power_silent {a : Activity} {c : CommandBytes} {s : State} (ha : a = .sleep ∨ a = .wakeup)
    (hq : s.quiescent = true) (hx : s.line.txProgress = true) (ht : s.line.timesOut = true)
    (hc : commandFrame c.c1 c.c2 = commandWire c) :
    ∃ t, runToIdle (s.beginSend a c) = .next t ∧ t.phase = .idle ∧ t.status = false ∧ t.errkind = .cmdNotConfirmed ∧
      t.rxq = [] ∧ t.txlog = s.txlog ++ s.txq ++ commandWire c := by
  have hph : (s.beginSend a c).phase = .cmdtx := by rcases ha with rfl | rfl <;> rfl
  obtain ⟨n, w, b, d, hw, hp, hwq, hn, hrun⟩ :=
    send_returns (s := s.beginSend a c) (.inl hph) rfl (finiteInputs_of_quiet hq) hx
  obtain ⟨he, -, hr⟩ := hw.quiet hq hp hwq
  have hwp : w.phase = .cmdtx ∧ w.act = a ∧ w.rxq = [] ∧ w.line = s.line := by rw [he]; exact ⟨hph, rfl, rfl, rfl⟩
  obtain ⟨hphase, hact, hrx, hline⟩ := hwp
  have hafter := afterSend_power hphase (hact ▸ ha)
  have hbudget := work_rank_le_budget (s.beginSend a c)
  obtain ⟨k, hk⟩ := Nat.exists_eq_add_of_le (show n ≤ budget (s.beginSend a c) by omega)
  obtain ⟨t, hack, hend⟩ := ackwait_silent (y := afterSend w) (n := k) (by rw [hafter])
    (by rw [State.quiescent, afterSend_inputs]; exact hr) (by rw [afterSend_rxq, hrx]) (by rw [hafter])
    (by rw [hafter]; exact hline ▸ ht) (by omega)
  have hbusy : ∀ u : State, u.Sending → u.isIdle = false := fun u hu => by
    rcases hu with hu | hu <;> simp [State.isIdle, hu]
  have hexec : runToIdle (s.beginSend a c) = .next t := by rw [runToIdle, hk, hrun _ hbusy, hack]
  have hidle : t.phase = .idle := by rw [hend]; rfl
  obtain ⟨-, hlog⟩ := beginSend_transmits hc hexec hidle
  have hempty : t.rxq = [] := by
    rw [hend]
    change (afterSend w).rxq.drop 0 = []
    rw [afterSend_rxq, hrx]
    rfl
  exact ⟨t, hexec, hidle, by rw [hend]; rfl, by rw [hend]; rfl, hempty, hlog⟩

/-- Settles O33: in QueryMode READDATA is O28's, in PushMode it scans an empty RXQ, and SLEEP and WAKEUP time out. -/
theorem silentStreamFailsEveryRead : Obligations.SilentStreamFailsEveryRead := by
  intro s hp hq hx ht hg hr
  refine ⟨?read, ?sleep, ?wakeup⟩
  case read =>
    cases hm : s.mode with
    | push =>
      obtain ⟨t, hexec, ⟨-, hlog⟩, hend⟩ := readdata_push_silent hp hm hq hg hr
      obtain ⟨hrx, -⟩ := startRead_transport s
      refine ⟨t, hexec, by rw [hend]; rfl, by rw [hend]; rfl, by rw [hend]; rfl, ?_, by rw [hlog, List.append_nil]⟩
      rw [hend]
      exact hrx.trans hr
    | query =>
      obtain ⟨t, hexec, -, hend⟩ := quiescentQueryReadMisses s hp hq hx hm hg
      exact ⟨t, hexec, by rw [hend]; rfl, by rw [hend]; rfl, by rw [hend]; rfl, by rw [hend]; rfl,
        by rw [hend]; exact List.append_nil _⟩
  case sleep =>
    obtain ⟨t, hexec, hend⟩ := power_silent (.inl rfl) hq hx ht (c := params.cmdSleep) (by decide)
    exact ⟨t, (exec_sleep hp).trans hexec, hend⟩
  case wakeup =>
    obtain ⟨t, hexec, hend⟩ := power_silent (.inr rfl) hq hx ht (c := params.cmdWake) (by decide)
    exact ⟨t, (exec_wakeup hp).trans hexec, hend⟩

end Sys2Proof.Machine
end

section
/-! PROOFS. What RESET(v) sets and what it keeps (spec/70_reset_and_hazards.md rule R171). -/

namespace Sys2Proof.Machine

/-! ## What RESET(v) sets -/

@[simp] theorem State.construct_variant (v : Variant) (s : State) : (State.construct v s).variant = v := rfl
@[simp] theorem State.construct_mode (v : Variant) (s : State) : (State.construct v s).mode = .push := rfl
@[simp] theorem State.construct_phase (v : Variant) (s : State) : (State.construct v s).phase = .idle := rfl
@[simp] theorem State.construct_rxto (v : Variant) (s : State) : (State.construct v s).rxto = 100 := rfl
@[simp] theorem State.construct_fs (v : Variant) (s : State) : (State.construct v s).fs = BitVec.ofNat 6 (pushLen v) := rfl

/-! ## What RESET(v) keeps -/

@[simp] theorem State.construct_rxq (v : Variant) (s : State) : (State.construct v s).rxq = s.rxq := rfl
@[simp] theorem State.construct_txq (v : Variant) (s : State) : (State.construct v s).txq = s.txq := rfl
@[simp] theorem State.construct_txlog (v : Variant) (s : State) : (State.construct v s).txlog = s.txlog := rfl

/-- Settles O8: each register by its own rule; FS is the push-frame length, whose value is read off per variant. -/
theorem resetSetsTheControlRegisters : Obligations.ResetSetsTheControlRegisters := by
  intro v s
  refine ⟨s.construct_variant v, s.construct_mode v, s.construct_phase v, s.construct_rxto v, ?fs,
    s.construct_rxq v, s.construct_txq v, s.construct_txlog v⟩
  case fs =>
    rw [State.construct_fs]
    cases v with
    | a => rfl
    | b => rfl

end Sys2Proof.Machine
end
